-- ==== Sys2Proof/Word.lean ====
section
/-! DEFINITION. The two widths of the core (R6): an 8-bit data byte and a 16-bit word (a register
value of PC, or an address). Their plain arithmetic is that of bit vectors, which wraps modulo 256 and
modulo 65536 as R6 and R9 ask. -/

namespace Sys2Proof

/-- A byte, 0..255 (R8). -/
abbrev Byte := BitVec 8

/-- A 16-bit value, 0..65535 (R8): PC, an address, a two-byte parameter. -/
abbrev Word := BitVec 16

end Sys2Proof
end

