-- ==== Sys2Proof/Config.lean ====
section
/-! DEFINITION. What the host or the implementation fixes for the core: the parameters of R7, the
chunks a host may define (R81, R87), the events a device chunk sees, and the free values (values the
spec leaves open: constants without a body). -/

namespace Sys2Proof

/-! ## Chunks (R81, R87) -/

/-- What backs a chunk (R87). `ram base` and `rom base` are the two standard kinds of R87: windows onto
the backing store at the cells `base`, `base + 1`, … (two chunks with overlapping windows are mirrors,
R97). `device id` is any other host-supplied device: its state is the history of what happened to it
(`IoEvent`), and what a read answers is a free value (R203). DESIGN CHOICE, log entries 4 and 5. -/
inductive ChunkKind where
  | ram (base : Nat)
  | rom (base : Nat)
  | device (id : Nat)
  deriving DecidableEq, Repr

/-- A chunk: the range [start, start + size) of the address space and what backs it (R81). -/
structure Chunk where
  start : Word
  size : Nat
  kind : ChunkKind
  deriving DecidableEq, Repr

/-- Something that happened to a device chunk: a `readAt`, a `writeAt` (R84, R85; offsets are relative
to the chunk's own start), or anything from outside the core, which only the host makes (R51, R336). -/
inductive IoEvent where
  | read (device offset : Nat)
  | write (device offset : Nat) (v : Byte)
  | outside (device input : Nat)
  deriving DecidableEq, Repr

/-! ## Parameters (R7) -/

/-- `P_ZN_POLICY` (R7, R41). -/
inductive ZnPolicy where
  | exact
  | setOnly
  deriving DecidableEq, Repr

/-- `P_DECIMAL` (R7, R251). -/
inductive DecimalPolicy where
  | ignored
  | refuse
  deriving DecidableEq, Repr

/-- `P_JMP_IND_WRAP` (R7, R90). -/
inductive JmpIndWrap where
  | pageWrap
  | linear
  deriving DecidableEq, Repr

/-- `P_ENTRY` (R7, R351): where PC comes from at reset. -/
inductive Entry where
  | vector
  | host (pc : Word)
  deriving DecidableEq, Repr

/-- The parameters of R7 the model takes as an argument. `P_CHUNKS` is the argument of `defineChunks`
and stands in the bus configuration. -/
structure Params where
  znPolicy : ZnPolicy
  decimal : DecimalPolicy
  jmpIndWrap : JmpIndWrap
  entry : Entry
  aReset : Byte
  xReset : Byte
  yReset : Byte
  deriving DecidableEq, Repr

namespace Config

/-- The values R7 takes: EXACT (D1), IGNORED (D2), PAGE_WRAP (D3), VECTOR when the host gives none
(D17), A = X = Y = 0x00 (D17). -/
def params : Params :=
  { znPolicy := .exact, decimal := .ignored, jmpIndWrap := .pageWrap, entry := .vector,
    aReset := 0x00, xReset := 0x00, yReset := 0x00 }

/-- The chunk list `State.reset` is defined with: the source's example map (R97; E6 of file 95), RAM at
0x0000 of size 0x0800 and ROM at 0x8000 of size 0x8000. `P_CHUNKS` is OPEN in R7: DESIGN CHOICE, log
entry 2. -/
def chunks : List Chunk :=
  [{ start := 0x0000, size := 0x0800, kind := .ram 0x0000 },
   { start := 0x8000, size := 0x8000, kind := .rom 0x8000 }]

/-- Free value: what a `readAt` of device `device` at `offset` answers after the events `history`
(latest first). R203: a model does not fix the answers of a side-effecting chunk. Log entry 5. -/
opaque deviceRead (device offset : Nat) (history : List IoEvent) : Byte

/-- Free value: an unspecified byte, one for each count (R200, R350). Log entry 6. -/
opaque freeByte : Nat → Byte

/-- Free value: an unspecified word, one for each count (R200, R350). Log entry 6. -/
opaque freeWord : Nat → Word

/-- Free value: an unspecified natural number, one for each count (R200, R350). Log entry 6. -/
opaque freeNat : Nat → Nat

end Config

end Sys2Proof
end

