-- ==== Sys2Proof/Syntax.lean ====
section
/-! DEFINITION. The instruction set as syntax: the thirteen addressing modes, the 56 mnemonics, the rows
of the operation table and the instructions, one constructor of `Instr` per row of
spec/opcode_table.json (R133, R141), its operand the raw parameter of R132. -/

namespace Sys2Proof

/-- The addressing-mode ids of R160. -/
inductive Mode where
  | implicit
  | accumulator
  | immediate
  | zeroPage
  | indexedZeroPageX
  | indexedZeroPageY
  | absolute
  | indexedAbsoluteX
  | indexedAbsoluteY
  | indirect
  | indexedIndirectX
  | indexedIndirectY
  | relative
  deriving DecidableEq, Repr

/-- R160, R130: how many parameter bytes follow the opcode byte. -/
def Mode.parameterSize : Mode → Nat
  | .implicit | .accumulator => 0
  | .immediate | .zeroPage | .indexedZeroPageX | .indexedZeroPageY | .indexedIndirectX
  | .indexedIndirectY | .relative => 1
  | .absolute | .indexedAbsoluteX | .indexedAbsoluteY | .indirect => 2

/-- The 56 mnemonics of R2, in the order of their rules. -/
inductive Mnemonic where
  | cmp | cpx | cpy | bit | lda | ldx | ldy | sta | stx | sty | tax | tay | txa | tya | tsx
  | txs | adc | sbc | and | ora | eor | inc | dec | inx | iny | dex | dey | asl | lsr | rol
  | ror | pha | php | pla | plp | jmp | jsr | rts | brk | rti | bcc | bcs | beq | bmi | bne
  | bpl | bvc | bvs | clc | cld | cli | clv | sec | sed | sei | nop
  deriving DecidableEq, Repr

/-- The operand classes of R161. -/
inductive OperandClass where
  | read | write | rmw | jump | branch | impl | stack
  deriving DecidableEq, Repr

/-- The operand class of each mnemonic (the `operandClass` field of spec/opcode_table.json, R161). -/
def Mnemonic.operandClass : Mnemonic → OperandClass
  | .cmp | .cpx | .cpy | .bit | .lda | .ldx | .ldy | .adc | .sbc | .and | .ora | .eor => .read
  | .sta | .stx | .sty => .write
  | .inc | .dec | .asl | .lsr | .rol | .ror => .rmw
  | .jmp | .jsr => .jump
  | .bcc | .bcs | .beq | .bmi | .bne | .bpl | .bvc | .bvs => .branch
  | .tax | .tay | .txa | .tya | .tsx | .txs | .inx | .iny | .dex | .dey | .clc | .cld
  | .cli | .clv | .sec | .sed | .sei | .nop => .impl
  | .pha | .php | .pla | .plp | .rts | .brk | .rti => .stack

/-- One row of the operation table (R133, R206): the opcode byte, the Operation it selects (mnemonic and
mode), its base cycle cost and whether a page crossing costs one more (R197). -/
structure Row where
  opcode : Byte
  mnemonic : Mnemonic
  mode : Mode
  cycles : Nat
  pageCross : Bool
  deriving DecidableEq, Repr

/-- The raw parameter of an instruction (R132): no byte, one byte, or two bytes as a little-endian
word. -/
inductive Operand where
  | none
  | byte (p : Byte)
  | word (p : Word)
  deriving DecidableEq, Repr

/-- The instructions, one constructor per row of spec/opcode_table.json, in opcode order. The name is the
mnemonic with the mode: A ACCUMULATOR, Imm IMMEDIATE, Zp ZERO_PAGE, ZpX and ZpY INDEXED_ZERO_PAGE, Abs
ABSOLUTE, AbsX and AbsY INDEXED_ABSOLUTE, Ind INDIRECT, IndX INDEXED_INDIRECT_X, IndY
INDEXED_INDIRECT_Y; IMPLICIT and RELATIVE have no ending. -/
inductive Instr where
  | brk
  | oraIndX (p : Byte)
  | oraZp (p : Byte)
  | aslZp (p : Byte)
  | php
  | oraImm (p : Byte)
  | aslA
  | oraAbs (p : Word)
  | aslAbs (p : Word)
  | bpl (p : Byte)
  | oraIndY (p : Byte)
  | oraZpX (p : Byte)
  | aslZpX (p : Byte)
  | clc
  | oraAbsY (p : Word)
  | oraAbsX (p : Word)
  | aslAbsX (p : Word)
  | jsrAbs (p : Word)
  | andIndX (p : Byte)
  | bitZp (p : Byte)
  | andZp (p : Byte)
  | rolZp (p : Byte)
  | plp
  | andImm (p : Byte)
  | rolA
  | bitAbs (p : Word)
  | andAbs (p : Word)
  | rolAbs (p : Word)
  | bmi (p : Byte)
  | andIndY (p : Byte)
  | andZpX (p : Byte)
  | rolZpX (p : Byte)
  | sec
  | andAbsY (p : Word)
  | andAbsX (p : Word)
  | rolAbsX (p : Word)
  | rti
  | eorIndX (p : Byte)
  | eorZp (p : Byte)
  | lsrZp (p : Byte)
  | pha
  | eorImm (p : Byte)
  | lsrA
  | jmpAbs (p : Word)
  | eorAbs (p : Word)
  | lsrAbs (p : Word)
  | bvc (p : Byte)
  | eorIndY (p : Byte)
  | eorZpX (p : Byte)
  | lsrZpX (p : Byte)
  | cli
  | eorAbsY (p : Word)
  | eorAbsX (p : Word)
  | lsrAbsX (p : Word)
  | rts
  | adcIndX (p : Byte)
  | adcZp (p : Byte)
  | rorZp (p : Byte)
  | pla
  | adcImm (p : Byte)
  | rorA
  | jmpInd (p : Word)
  | adcAbs (p : Word)
  | rorAbs (p : Word)
  | bvs (p : Byte)
  | adcIndY (p : Byte)
  | adcZpX (p : Byte)
  | rorZpX (p : Byte)
  | sei
  | adcAbsY (p : Word)
  | adcAbsX (p : Word)
  | rorAbsX (p : Word)
  | staIndX (p : Byte)
  | styZp (p : Byte)
  | staZp (p : Byte)
  | stxZp (p : Byte)
  | dey
  | txa
  | styAbs (p : Word)
  | staAbs (p : Word)
  | stxAbs (p : Word)
  | bcc (p : Byte)
  | staIndY (p : Byte)
  | styZpX (p : Byte)
  | staZpX (p : Byte)
  | stxZpY (p : Byte)
  | tya
  | staAbsY (p : Word)
  | txs
  | staAbsX (p : Word)
  | ldyImm (p : Byte)
  | ldaIndX (p : Byte)
  | ldxImm (p : Byte)
  | ldyZp (p : Byte)
  | ldaZp (p : Byte)
  | ldxZp (p : Byte)
  | tay
  | ldaImm (p : Byte)
  | tax
  | ldyAbs (p : Word)
  | ldaAbs (p : Word)
  | ldxAbs (p : Word)
  | bcs (p : Byte)
  | ldaIndY (p : Byte)
  | ldyZpX (p : Byte)
  | ldaZpX (p : Byte)
  | ldxZpY (p : Byte)
  | clv
  | ldaAbsY (p : Word)
  | tsx
  | ldyAbsX (p : Word)
  | ldaAbsX (p : Word)
  | ldxAbsY (p : Word)
  | cpyImm (p : Byte)
  | cmpIndX (p : Byte)
  | cpyZp (p : Byte)
  | cmpZp (p : Byte)
  | decZp (p : Byte)
  | iny
  | cmpImm (p : Byte)
  | dex
  | cpyAbs (p : Word)
  | cmpAbs (p : Word)
  | decAbs (p : Word)
  | bne (p : Byte)
  | cmpIndY (p : Byte)
  | cmpZpX (p : Byte)
  | decZpX (p : Byte)
  | cld
  | cmpAbsY (p : Word)
  | cmpAbsX (p : Word)
  | decAbsX (p : Word)
  | cpxImm (p : Byte)
  | sbcIndX (p : Byte)
  | cpxZp (p : Byte)
  | sbcZp (p : Byte)
  | incZp (p : Byte)
  | inx
  | sbcImm (p : Byte)
  | nop
  | cpxAbs (p : Word)
  | sbcAbs (p : Word)
  | incAbs (p : Word)
  | beq (p : Byte)
  | sbcIndY (p : Byte)
  | sbcZpX (p : Byte)
  | incZpX (p : Byte)
  | sed
  | sbcAbsY (p : Word)
  | sbcAbsX (p : Word)
  | incAbsX (p : Word)
  deriving DecidableEq, Repr

/-- The three instruction formats of R131, each with the instruction its parameter completes. -/
inductive Form where
  | f1 (i : Instr)
  | f2 (mk : Byte → Instr)
  | f3 (mk : Word → Instr)

end Sys2Proof
end

