-- ==== Sys2Proof/WellFormed.lean ====
section
/-! DEFINITION. The checks of form the spec makes on constant data: a row of the operation table (R161,
R173, R197, R206), the table as a whole (R133, R325), a bit-field register's field list (R46), a chunk
list (R81). An operand of `Instr` is a byte or a word by its type, so an instruction is well-formed when
its row is (`Instr.wf`, in Decode.lean). -/

namespace Sys2Proof

/-- R161, R173: which modes an operand class takes; a class that needs an effective address is never
paired with a mode that gives none. -/
def OperandClass.takes : OperandClass → Mode → Bool
  | .read, m => match m with
    | .implicit | .accumulator | .indirect | .relative => false
    | _ => true
  | .write, m => match m with
    | .implicit | .accumulator | .immediate | .indirect | .relative => false
    | _ => true
  | .rmw, m => match m with
    | .implicit | .immediate | .indirect | .relative => false
    | _ => true
  | .jump, m => m == .absolute || m == .indirect
  | .branch, m => m == .relative
  | .impl, m => m == .implicit
  | .stack, m => m == .implicit

/-- R197: the page-cross penalty stands exactly on READ-class rows in the three modes named there. -/
def Row.penaltyWf (r : Row) : Bool :=
  r.pageCross == (r.mnemonic.operandClass == .read
    && (r.mode == .indexedAbsoluteX || r.mode == .indexedAbsoluteY || r.mode == .indexedIndirectY))

/-- A row of the operation table is well-formed. -/
def Row.wf (r : Row) : Bool :=
  r.mnemonic.operandClass.takes r.mode && r.penaltyWf && decide (2 ≤ r.cycles ∧ r.cycles ≤ 7)

/-- R133, R325: every row well-formed and no opcode twice. -/
def tableWf (rows : List Row) : Bool :=
  rows.all Row.wf && decide (rows.map Row.opcode).Nodup

/-- A named field of a bit-field register (R46): starting bit and width in bits (default 1). -/
structure BitField where
  start : Nat
  width : Nat := 1
  deriving DecidableEq, Repr

/-- R46: two fields do not overlap. -/
def BitField.disjoint (a b : BitField) : Bool :=
  decide (a.start + a.width ≤ b.start ∨ b.start + b.width ≤ a.start)

/-- R46: the fields of one byte-sized register lie in the byte and do not overlap. -/
def fieldsWf : List BitField → Bool
  | [] => true
  | a :: rest => decide (a.start + a.width ≤ 8) && rest.all a.disjoint && fieldsWf rest

/-- R81: a chunk lies inside the address space. -/
def Chunk.wf (c : Chunk) : Bool := decide (c.start.toNat + c.size ≤ 0x10000)

/-- R81: a valid chunk list; gaps and overlaps are allowed (R82). -/
def chunksWf (cs : List Chunk) : Bool := cs.all Chunk.wf

end Sys2Proof
end

