-- ==== Sys2Proof/Decode.lean ====
section
/-! DEFINITION. The encoding (file 30 of spec/): the operation table row of every instruction, the opcode
map (R134), the decoder, total on any bytes and rejecting by name, and the encoder. -/

namespace Sys2Proof

/-! ## Byte order and widths (R8, R9, R88) -/

/-- `lo(w) = w[7:0]` (R9). -/
def lo (w : Word) : Byte := w.setWidth 8

/-- `hi(w) = w[15:8]` (R9). -/
def hi (w : Word) : Byte := (w >>> 8).setWidth 8

/-- `l | (h << 8)`: the word of a low byte and a high byte (R88, R132). -/
def wordOf (l h : Byte) : Word := l.setWidth 16 ||| (h.setWidth 16 <<< 8)

/-- `zext_16(v)` (R9). -/
def zext (b : Byte) : Word := b.setWidth 16

/-- `sext_8(v)` modulo 65536: the byte read as two's complement (R9). -/
def sext (b : Byte) : Word := b.signExtend 16

/-! ## The operation table (R133, R206) -/

/-- The row of spec/opcode_table.json an instruction stands for: opcode byte, mnemonic, mode, cycles,
pageCrossPenalty. -/
def Instr.row : Instr → Row
  | .brk => ⟨0x00, .brk, .implicit, 7, false⟩
  | .oraIndX _ => ⟨0x01, .ora, .indexedIndirectX, 6, false⟩
  | .oraZp _ => ⟨0x05, .ora, .zeroPage, 3, false⟩
  | .aslZp _ => ⟨0x06, .asl, .zeroPage, 5, false⟩
  | .php => ⟨0x08, .php, .implicit, 3, false⟩
  | .oraImm _ => ⟨0x09, .ora, .immediate, 2, false⟩
  | .aslA => ⟨0x0A, .asl, .accumulator, 2, false⟩
  | .oraAbs _ => ⟨0x0D, .ora, .absolute, 4, false⟩
  | .aslAbs _ => ⟨0x0E, .asl, .absolute, 6, false⟩
  | .bpl _ => ⟨0x10, .bpl, .relative, 2, false⟩
  | .oraIndY _ => ⟨0x11, .ora, .indexedIndirectY, 5, true⟩
  | .oraZpX _ => ⟨0x15, .ora, .indexedZeroPageX, 4, false⟩
  | .aslZpX _ => ⟨0x16, .asl, .indexedZeroPageX, 6, false⟩
  | .clc => ⟨0x18, .clc, .implicit, 2, false⟩
  | .oraAbsY _ => ⟨0x19, .ora, .indexedAbsoluteY, 4, true⟩
  | .oraAbsX _ => ⟨0x1D, .ora, .indexedAbsoluteX, 4, true⟩
  | .aslAbsX _ => ⟨0x1E, .asl, .indexedAbsoluteX, 7, false⟩
  | .jsrAbs _ => ⟨0x20, .jsr, .absolute, 6, false⟩
  | .andIndX _ => ⟨0x21, .and, .indexedIndirectX, 6, false⟩
  | .bitZp _ => ⟨0x24, .bit, .zeroPage, 3, false⟩
  | .andZp _ => ⟨0x25, .and, .zeroPage, 3, false⟩
  | .rolZp _ => ⟨0x26, .rol, .zeroPage, 5, false⟩
  | .plp => ⟨0x28, .plp, .implicit, 4, false⟩
  | .andImm _ => ⟨0x29, .and, .immediate, 2, false⟩
  | .rolA => ⟨0x2A, .rol, .accumulator, 2, false⟩
  | .bitAbs _ => ⟨0x2C, .bit, .absolute, 4, false⟩
  | .andAbs _ => ⟨0x2D, .and, .absolute, 4, false⟩
  | .rolAbs _ => ⟨0x2E, .rol, .absolute, 6, false⟩
  | .bmi _ => ⟨0x30, .bmi, .relative, 2, false⟩
  | .andIndY _ => ⟨0x31, .and, .indexedIndirectY, 5, true⟩
  | .andZpX _ => ⟨0x35, .and, .indexedZeroPageX, 4, false⟩
  | .rolZpX _ => ⟨0x36, .rol, .indexedZeroPageX, 6, false⟩
  | .sec => ⟨0x38, .sec, .implicit, 2, false⟩
  | .andAbsY _ => ⟨0x39, .and, .indexedAbsoluteY, 4, true⟩
  | .andAbsX _ => ⟨0x3D, .and, .indexedAbsoluteX, 4, true⟩
  | .rolAbsX _ => ⟨0x3E, .rol, .indexedAbsoluteX, 7, false⟩
  | .rti => ⟨0x40, .rti, .implicit, 6, false⟩
  | .eorIndX _ => ⟨0x41, .eor, .indexedIndirectX, 6, false⟩
  | .eorZp _ => ⟨0x45, .eor, .zeroPage, 3, false⟩
  | .lsrZp _ => ⟨0x46, .lsr, .zeroPage, 5, false⟩
  | .pha => ⟨0x48, .pha, .implicit, 3, false⟩
  | .eorImm _ => ⟨0x49, .eor, .immediate, 2, false⟩
  | .lsrA => ⟨0x4A, .lsr, .accumulator, 2, false⟩
  | .jmpAbs _ => ⟨0x4C, .jmp, .absolute, 3, false⟩
  | .eorAbs _ => ⟨0x4D, .eor, .absolute, 4, false⟩
  | .lsrAbs _ => ⟨0x4E, .lsr, .absolute, 6, false⟩
  | .bvc _ => ⟨0x50, .bvc, .relative, 2, false⟩
  | .eorIndY _ => ⟨0x51, .eor, .indexedIndirectY, 5, true⟩
  | .eorZpX _ => ⟨0x55, .eor, .indexedZeroPageX, 4, false⟩
  | .lsrZpX _ => ⟨0x56, .lsr, .indexedZeroPageX, 6, false⟩
  | .cli => ⟨0x58, .cli, .implicit, 2, false⟩
  | .eorAbsY _ => ⟨0x59, .eor, .indexedAbsoluteY, 4, true⟩
  | .eorAbsX _ => ⟨0x5D, .eor, .indexedAbsoluteX, 4, true⟩
  | .lsrAbsX _ => ⟨0x5E, .lsr, .indexedAbsoluteX, 7, false⟩
  | .rts => ⟨0x60, .rts, .implicit, 6, false⟩
  | .adcIndX _ => ⟨0x61, .adc, .indexedIndirectX, 6, false⟩
  | .adcZp _ => ⟨0x65, .adc, .zeroPage, 3, false⟩
  | .rorZp _ => ⟨0x66, .ror, .zeroPage, 5, false⟩
  | .pla => ⟨0x68, .pla, .implicit, 4, false⟩
  | .adcImm _ => ⟨0x69, .adc, .immediate, 2, false⟩
  | .rorA => ⟨0x6A, .ror, .accumulator, 2, false⟩
  | .jmpInd _ => ⟨0x6C, .jmp, .indirect, 5, false⟩
  | .adcAbs _ => ⟨0x6D, .adc, .absolute, 4, false⟩
  | .rorAbs _ => ⟨0x6E, .ror, .absolute, 6, false⟩
  | .bvs _ => ⟨0x70, .bvs, .relative, 2, false⟩
  | .adcIndY _ => ⟨0x71, .adc, .indexedIndirectY, 5, true⟩
  | .adcZpX _ => ⟨0x75, .adc, .indexedZeroPageX, 4, false⟩
  | .rorZpX _ => ⟨0x76, .ror, .indexedZeroPageX, 6, false⟩
  | .sei => ⟨0x78, .sei, .implicit, 2, false⟩
  | .adcAbsY _ => ⟨0x79, .adc, .indexedAbsoluteY, 4, true⟩
  | .adcAbsX _ => ⟨0x7D, .adc, .indexedAbsoluteX, 4, true⟩
  | .rorAbsX _ => ⟨0x7E, .ror, .indexedAbsoluteX, 7, false⟩
  | .staIndX _ => ⟨0x81, .sta, .indexedIndirectX, 6, false⟩
  | .styZp _ => ⟨0x84, .sty, .zeroPage, 3, false⟩
  | .staZp _ => ⟨0x85, .sta, .zeroPage, 3, false⟩
  | .stxZp _ => ⟨0x86, .stx, .zeroPage, 3, false⟩
  | .dey => ⟨0x88, .dey, .implicit, 2, false⟩
  | .txa => ⟨0x8A, .txa, .implicit, 2, false⟩
  | .styAbs _ => ⟨0x8C, .sty, .absolute, 4, false⟩
  | .staAbs _ => ⟨0x8D, .sta, .absolute, 4, false⟩
  | .stxAbs _ => ⟨0x8E, .stx, .absolute, 4, false⟩
  | .bcc _ => ⟨0x90, .bcc, .relative, 2, false⟩
  | .staIndY _ => ⟨0x91, .sta, .indexedIndirectY, 6, false⟩
  | .styZpX _ => ⟨0x94, .sty, .indexedZeroPageX, 4, false⟩
  | .staZpX _ => ⟨0x95, .sta, .indexedZeroPageX, 4, false⟩
  | .stxZpY _ => ⟨0x96, .stx, .indexedZeroPageY, 4, false⟩
  | .tya => ⟨0x98, .tya, .implicit, 2, false⟩
  | .staAbsY _ => ⟨0x99, .sta, .indexedAbsoluteY, 5, false⟩
  | .txs => ⟨0x9A, .txs, .implicit, 2, false⟩
  | .staAbsX _ => ⟨0x9D, .sta, .indexedAbsoluteX, 5, false⟩
  | .ldyImm _ => ⟨0xA0, .ldy, .immediate, 2, false⟩
  | .ldaIndX _ => ⟨0xA1, .lda, .indexedIndirectX, 6, false⟩
  | .ldxImm _ => ⟨0xA2, .ldx, .immediate, 2, false⟩
  | .ldyZp _ => ⟨0xA4, .ldy, .zeroPage, 3, false⟩
  | .ldaZp _ => ⟨0xA5, .lda, .zeroPage, 3, false⟩
  | .ldxZp _ => ⟨0xA6, .ldx, .zeroPage, 3, false⟩
  | .tay => ⟨0xA8, .tay, .implicit, 2, false⟩
  | .ldaImm _ => ⟨0xA9, .lda, .immediate, 2, false⟩
  | .tax => ⟨0xAA, .tax, .implicit, 2, false⟩
  | .ldyAbs _ => ⟨0xAC, .ldy, .absolute, 4, false⟩
  | .ldaAbs _ => ⟨0xAD, .lda, .absolute, 4, false⟩
  | .ldxAbs _ => ⟨0xAE, .ldx, .absolute, 4, false⟩
  | .bcs _ => ⟨0xB0, .bcs, .relative, 2, false⟩
  | .ldaIndY _ => ⟨0xB1, .lda, .indexedIndirectY, 5, true⟩
  | .ldyZpX _ => ⟨0xB4, .ldy, .indexedZeroPageX, 4, false⟩
  | .ldaZpX _ => ⟨0xB5, .lda, .indexedZeroPageX, 4, false⟩
  | .ldxZpY _ => ⟨0xB6, .ldx, .indexedZeroPageY, 4, false⟩
  | .clv => ⟨0xB8, .clv, .implicit, 2, false⟩
  | .ldaAbsY _ => ⟨0xB9, .lda, .indexedAbsoluteY, 4, true⟩
  | .tsx => ⟨0xBA, .tsx, .implicit, 2, false⟩
  | .ldyAbsX _ => ⟨0xBC, .ldy, .indexedAbsoluteX, 4, true⟩
  | .ldaAbsX _ => ⟨0xBD, .lda, .indexedAbsoluteX, 4, true⟩
  | .ldxAbsY _ => ⟨0xBE, .ldx, .indexedAbsoluteY, 4, true⟩
  | .cpyImm _ => ⟨0xC0, .cpy, .immediate, 2, false⟩
  | .cmpIndX _ => ⟨0xC1, .cmp, .indexedIndirectX, 6, false⟩
  | .cpyZp _ => ⟨0xC4, .cpy, .zeroPage, 3, false⟩
  | .cmpZp _ => ⟨0xC5, .cmp, .zeroPage, 3, false⟩
  | .decZp _ => ⟨0xC6, .dec, .zeroPage, 5, false⟩
  | .iny => ⟨0xC8, .iny, .implicit, 2, false⟩
  | .cmpImm _ => ⟨0xC9, .cmp, .immediate, 2, false⟩
  | .dex => ⟨0xCA, .dex, .implicit, 2, false⟩
  | .cpyAbs _ => ⟨0xCC, .cpy, .absolute, 4, false⟩
  | .cmpAbs _ => ⟨0xCD, .cmp, .absolute, 4, false⟩
  | .decAbs _ => ⟨0xCE, .dec, .absolute, 6, false⟩
  | .bne _ => ⟨0xD0, .bne, .relative, 2, false⟩
  | .cmpIndY _ => ⟨0xD1, .cmp, .indexedIndirectY, 5, true⟩
  | .cmpZpX _ => ⟨0xD5, .cmp, .indexedZeroPageX, 4, false⟩
  | .decZpX _ => ⟨0xD6, .dec, .indexedZeroPageX, 6, false⟩
  | .cld => ⟨0xD8, .cld, .implicit, 2, false⟩
  | .cmpAbsY _ => ⟨0xD9, .cmp, .indexedAbsoluteY, 4, true⟩
  | .cmpAbsX _ => ⟨0xDD, .cmp, .indexedAbsoluteX, 4, true⟩
  | .decAbsX _ => ⟨0xDE, .dec, .indexedAbsoluteX, 7, false⟩
  | .cpxImm _ => ⟨0xE0, .cpx, .immediate, 2, false⟩
  | .sbcIndX _ => ⟨0xE1, .sbc, .indexedIndirectX, 6, false⟩
  | .cpxZp _ => ⟨0xE4, .cpx, .zeroPage, 3, false⟩
  | .sbcZp _ => ⟨0xE5, .sbc, .zeroPage, 3, false⟩
  | .incZp _ => ⟨0xE6, .inc, .zeroPage, 5, false⟩
  | .inx => ⟨0xE8, .inx, .implicit, 2, false⟩
  | .sbcImm _ => ⟨0xE9, .sbc, .immediate, 2, false⟩
  | .nop => ⟨0xEA, .nop, .implicit, 2, false⟩
  | .cpxAbs _ => ⟨0xEC, .cpx, .absolute, 4, false⟩
  | .sbcAbs _ => ⟨0xED, .sbc, .absolute, 4, false⟩
  | .incAbs _ => ⟨0xEE, .inc, .absolute, 6, false⟩
  | .beq _ => ⟨0xF0, .beq, .relative, 2, false⟩
  | .sbcIndY _ => ⟨0xF1, .sbc, .indexedIndirectY, 5, true⟩
  | .sbcZpX _ => ⟨0xF5, .sbc, .indexedZeroPageX, 4, false⟩
  | .incZpX _ => ⟨0xF6, .inc, .indexedZeroPageX, 6, false⟩
  | .sed => ⟨0xF8, .sed, .implicit, 2, false⟩
  | .sbcAbsY _ => ⟨0xF9, .sbc, .indexedAbsoluteY, 4, true⟩
  | .sbcAbsX _ => ⟨0xFD, .sbc, .indexedAbsoluteX, 4, true⟩
  | .incAbsX _ => ⟨0xFE, .inc, .indexedAbsoluteX, 7, false⟩

/-- The opcode byte of an instruction. -/
def Instr.opcode (i : Instr) : Byte := i.row.opcode

/-- The mnemonic of an instruction. -/
def Instr.mnemonic (i : Instr) : Mnemonic := i.row.mnemonic

/-- The addressing mode of an instruction. -/
def Instr.mode (i : Instr) : Mode := i.row.mode

/-- The raw parameter an instruction carries (R132). -/
def Instr.operand : Instr → Operand
  | .brk | .php | .aslA | .clc | .plp | .rolA | .sec | .rti | .pha | .lsrA | .cli
  | .rts | .pla | .rorA | .sei | .dey | .txa | .tya | .txs | .tay | .tax | .clv
  | .tsx | .iny | .dex | .cld | .inx | .nop | .sed => .none
  | .oraIndX p | .oraZp p | .aslZp p | .oraImm p | .bpl p | .oraIndY p | .oraZpX p
  | .aslZpX p | .andIndX p | .bitZp p | .andZp p | .rolZp p | .andImm p | .bmi p
  | .andIndY p | .andZpX p | .rolZpX p | .eorIndX p | .eorZp p | .lsrZp p
  | .eorImm p | .bvc p | .eorIndY p | .eorZpX p | .lsrZpX p | .adcIndX p | .adcZp p
  | .rorZp p | .adcImm p | .bvs p | .adcIndY p | .adcZpX p | .rorZpX p | .staIndX p
  | .styZp p | .staZp p | .stxZp p | .bcc p | .staIndY p | .styZpX p | .staZpX p
  | .stxZpY p | .ldyImm p | .ldaIndX p | .ldxImm p | .ldyZp p | .ldaZp p | .ldxZp p
  | .ldaImm p | .bcs p | .ldaIndY p | .ldyZpX p | .ldaZpX p | .ldxZpY p | .cpyImm p
  | .cmpIndX p | .cpyZp p | .cmpZp p | .decZp p | .cmpImm p | .bne p | .cmpIndY p
  | .cmpZpX p | .decZpX p | .cpxImm p | .sbcIndX p | .cpxZp p | .sbcZp p | .incZp p
  | .sbcImm p | .beq p | .sbcIndY p | .sbcZpX p | .incZpX p => .byte p
  | .oraAbs p | .aslAbs p | .oraAbsY p | .oraAbsX p | .aslAbsX p | .jsrAbs p
  | .bitAbs p | .andAbs p | .rolAbs p | .andAbsY p | .andAbsX p | .rolAbsX p
  | .jmpAbs p | .eorAbs p | .lsrAbs p | .eorAbsY p | .eorAbsX p | .lsrAbsX p
  | .jmpInd p | .adcAbs p | .rorAbs p | .adcAbsY p | .adcAbsX p | .rorAbsX p
  | .styAbs p | .staAbs p | .stxAbs p | .staAbsY p | .staAbsX p | .ldyAbs p
  | .ldaAbs p | .ldxAbs p | .ldaAbsY p | .ldyAbsX p | .ldaAbsX p | .ldxAbsY p
  | .cpyAbs p | .cmpAbs p | .decAbs p | .cmpAbsY p | .cmpAbsX p | .decAbsX p
  | .cpxAbs p | .sbcAbs p | .incAbs p | .sbcAbsY p | .sbcAbsX p | .incAbsX p => .word p

/-- The parameter as the unsigned value of R132; 0 where there is none. -/
def Operand.value : Operand → Word
  | .none => 0
  | .byte p => zext p
  | .word p => p

/-- The parameter bytes in memory order, low byte first (R131, R140). -/
def Operand.bytes : Operand → List Byte
  | .none => []
  | .byte p => [p]
  | .word p => [lo p, hi p]

/-- The parameter of an instruction as the unsigned value of R132. -/
def Instr.param (i : Instr) : Word := i.operand.value

/-- The length of an instruction in bytes (R130, R137). -/
def Instr.length (i : Instr) : Nat := 1 + i.mode.parameterSize

/-- An instruction is well-formed: its row is, and it carries as many parameter bytes as its mode has
(R130). -/
def Instr.wf (i : Instr) : Bool :=
  i.row.wf && i.operand.bytes.length == i.mode.parameterSize

/-! ## The decoder -/

/-- The opcode map of R134: what each of the 151 assigned bytes selects; every other byte is unassigned
(R135). -/
def formOf (opcode : Byte) : Option Form :=
  match opcode.toNat with
  | 0x00 => some (.f1 .brk)
  | 0x01 => some (.f2 .oraIndX)
  | 0x05 => some (.f2 .oraZp)
  | 0x06 => some (.f2 .aslZp)
  | 0x08 => some (.f1 .php)
  | 0x09 => some (.f2 .oraImm)
  | 0x0A => some (.f1 .aslA)
  | 0x0D => some (.f3 .oraAbs)
  | 0x0E => some (.f3 .aslAbs)
  | 0x10 => some (.f2 .bpl)
  | 0x11 => some (.f2 .oraIndY)
  | 0x15 => some (.f2 .oraZpX)
  | 0x16 => some (.f2 .aslZpX)
  | 0x18 => some (.f1 .clc)
  | 0x19 => some (.f3 .oraAbsY)
  | 0x1D => some (.f3 .oraAbsX)
  | 0x1E => some (.f3 .aslAbsX)
  | 0x20 => some (.f3 .jsrAbs)
  | 0x21 => some (.f2 .andIndX)
  | 0x24 => some (.f2 .bitZp)
  | 0x25 => some (.f2 .andZp)
  | 0x26 => some (.f2 .rolZp)
  | 0x28 => some (.f1 .plp)
  | 0x29 => some (.f2 .andImm)
  | 0x2A => some (.f1 .rolA)
  | 0x2C => some (.f3 .bitAbs)
  | 0x2D => some (.f3 .andAbs)
  | 0x2E => some (.f3 .rolAbs)
  | 0x30 => some (.f2 .bmi)
  | 0x31 => some (.f2 .andIndY)
  | 0x35 => some (.f2 .andZpX)
  | 0x36 => some (.f2 .rolZpX)
  | 0x38 => some (.f1 .sec)
  | 0x39 => some (.f3 .andAbsY)
  | 0x3D => some (.f3 .andAbsX)
  | 0x3E => some (.f3 .rolAbsX)
  | 0x40 => some (.f1 .rti)
  | 0x41 => some (.f2 .eorIndX)
  | 0x45 => some (.f2 .eorZp)
  | 0x46 => some (.f2 .lsrZp)
  | 0x48 => some (.f1 .pha)
  | 0x49 => some (.f2 .eorImm)
  | 0x4A => some (.f1 .lsrA)
  | 0x4C => some (.f3 .jmpAbs)
  | 0x4D => some (.f3 .eorAbs)
  | 0x4E => some (.f3 .lsrAbs)
  | 0x50 => some (.f2 .bvc)
  | 0x51 => some (.f2 .eorIndY)
  | 0x55 => some (.f2 .eorZpX)
  | 0x56 => some (.f2 .lsrZpX)
  | 0x58 => some (.f1 .cli)
  | 0x59 => some (.f3 .eorAbsY)
  | 0x5D => some (.f3 .eorAbsX)
  | 0x5E => some (.f3 .lsrAbsX)
  | 0x60 => some (.f1 .rts)
  | 0x61 => some (.f2 .adcIndX)
  | 0x65 => some (.f2 .adcZp)
  | 0x66 => some (.f2 .rorZp)
  | 0x68 => some (.f1 .pla)
  | 0x69 => some (.f2 .adcImm)
  | 0x6A => some (.f1 .rorA)
  | 0x6C => some (.f3 .jmpInd)
  | 0x6D => some (.f3 .adcAbs)
  | 0x6E => some (.f3 .rorAbs)
  | 0x70 => some (.f2 .bvs)
  | 0x71 => some (.f2 .adcIndY)
  | 0x75 => some (.f2 .adcZpX)
  | 0x76 => some (.f2 .rorZpX)
  | 0x78 => some (.f1 .sei)
  | 0x79 => some (.f3 .adcAbsY)
  | 0x7D => some (.f3 .adcAbsX)
  | 0x7E => some (.f3 .rorAbsX)
  | 0x81 => some (.f2 .staIndX)
  | 0x84 => some (.f2 .styZp)
  | 0x85 => some (.f2 .staZp)
  | 0x86 => some (.f2 .stxZp)
  | 0x88 => some (.f1 .dey)
  | 0x8A => some (.f1 .txa)
  | 0x8C => some (.f3 .styAbs)
  | 0x8D => some (.f3 .staAbs)
  | 0x8E => some (.f3 .stxAbs)
  | 0x90 => some (.f2 .bcc)
  | 0x91 => some (.f2 .staIndY)
  | 0x94 => some (.f2 .styZpX)
  | 0x95 => some (.f2 .staZpX)
  | 0x96 => some (.f2 .stxZpY)
  | 0x98 => some (.f1 .tya)
  | 0x99 => some (.f3 .staAbsY)
  | 0x9A => some (.f1 .txs)
  | 0x9D => some (.f3 .staAbsX)
  | 0xA0 => some (.f2 .ldyImm)
  | 0xA1 => some (.f2 .ldaIndX)
  | 0xA2 => some (.f2 .ldxImm)
  | 0xA4 => some (.f2 .ldyZp)
  | 0xA5 => some (.f2 .ldaZp)
  | 0xA6 => some (.f2 .ldxZp)
  | 0xA8 => some (.f1 .tay)
  | 0xA9 => some (.f2 .ldaImm)
  | 0xAA => some (.f1 .tax)
  | 0xAC => some (.f3 .ldyAbs)
  | 0xAD => some (.f3 .ldaAbs)
  | 0xAE => some (.f3 .ldxAbs)
  | 0xB0 => some (.f2 .bcs)
  | 0xB1 => some (.f2 .ldaIndY)
  | 0xB4 => some (.f2 .ldyZpX)
  | 0xB5 => some (.f2 .ldaZpX)
  | 0xB6 => some (.f2 .ldxZpY)
  | 0xB8 => some (.f1 .clv)
  | 0xB9 => some (.f3 .ldaAbsY)
  | 0xBA => some (.f1 .tsx)
  | 0xBC => some (.f3 .ldyAbsX)
  | 0xBD => some (.f3 .ldaAbsX)
  | 0xBE => some (.f3 .ldxAbsY)
  | 0xC0 => some (.f2 .cpyImm)
  | 0xC1 => some (.f2 .cmpIndX)
  | 0xC4 => some (.f2 .cpyZp)
  | 0xC5 => some (.f2 .cmpZp)
  | 0xC6 => some (.f2 .decZp)
  | 0xC8 => some (.f1 .iny)
  | 0xC9 => some (.f2 .cmpImm)
  | 0xCA => some (.f1 .dex)
  | 0xCC => some (.f3 .cpyAbs)
  | 0xCD => some (.f3 .cmpAbs)
  | 0xCE => some (.f3 .decAbs)
  | 0xD0 => some (.f2 .bne)
  | 0xD1 => some (.f2 .cmpIndY)
  | 0xD5 => some (.f2 .cmpZpX)
  | 0xD6 => some (.f2 .decZpX)
  | 0xD8 => some (.f1 .cld)
  | 0xD9 => some (.f3 .cmpAbsY)
  | 0xDD => some (.f3 .cmpAbsX)
  | 0xDE => some (.f3 .decAbsX)
  | 0xE0 => some (.f2 .cpxImm)
  | 0xE1 => some (.f2 .sbcIndX)
  | 0xE4 => some (.f2 .cpxZp)
  | 0xE5 => some (.f2 .sbcZp)
  | 0xE6 => some (.f2 .incZp)
  | 0xE8 => some (.f1 .inx)
  | 0xE9 => some (.f2 .sbcImm)
  | 0xEA => some (.f1 .nop)
  | 0xEC => some (.f3 .cpxAbs)
  | 0xED => some (.f3 .sbcAbs)
  | 0xEE => some (.f3 .incAbs)
  | 0xF0 => some (.f2 .beq)
  | 0xF1 => some (.f2 .sbcIndY)
  | 0xF5 => some (.f2 .sbcZpX)
  | 0xF6 => some (.f2 .incZpX)
  | 0xF8 => some (.f1 .sed)
  | 0xF9 => some (.f3 .sbcAbsY)
  | 0xFD => some (.f3 .sbcAbsX)
  | 0xFE => some (.f3 .incAbsX)
  | _ => none

/-- Why bytes are no instruction: an unassigned opcode byte (R135), or too few bytes. -/
inductive Reject where
  | unassigned (opcode : Byte)
  | noOpcode
  | noParameter (opcode : Byte)
  deriving DecidableEq, Repr

/-- Decode the first instruction of a byte list, with the bytes left over (R130 to R137). Total; an
unassigned byte is rejected before any parameter byte is looked at (R328). -/
def decode : List Byte → Except Reject (Instr × List Byte)
  | [] => .error .noOpcode
  | op :: rest =>
    match formOf op, rest with
    | none, _ => .error (.unassigned op)
    | some (.f1 i), rest => .ok (i, rest)
    | some (.f2 mk), p :: rest => .ok (mk p, rest)
    | some (.f3 mk), l :: h :: rest => .ok (mk (wordOf l h), rest)
    | some _, _ => .error (.noParameter op)

/-- The bytes of an instruction (R131): the opcode, then the parameter bytes, low byte first. -/
def encode (i : Instr) : List Byte := i.opcode :: i.operand.bytes

/-- The row of the operation table a form stands for. -/
def Form.row : Form → Row
  | .f1 i => i.row
  | .f2 mk => (mk 0).row
  | .f3 mk => (mk 0).row

/-- The operation table of R133: the rows of the assigned bytes, in opcode order. -/
def operationTable : List Row :=
  (List.range 256).filterMap fun n => (formOf (BitVec.ofNat 8 n)).map Form.row

/-! ## Words numbered as spec/opcode_table.json numbers them -/

/-- Byte k of an instruction whose bits are w, the bits at and above nbits taken as 0. -/
def tableByte (nbits w k : Nat) : Byte := BitVec.ofNat 8 ((w % 2 ^ nbits) >>> (8 * k))

/-- The bytes an instruction given by its table bits has in memory, up to the longest instruction
(3 bytes, R130); the first byte is at the lowest address. -/
def tableBytes (nbits w : Nat) : List Byte :=
  [tableByte nbits w 0, tableByte nbits w 1, tableByte nbits w 2]

/-- The instruction the decoder reads from an instruction given by its table bits. -/
def decodeTableWord (nbits w : Nat) : Option Instr :=
  match decode (tableBytes nbits w) with
  | .ok (i, _) => some i
  | .error _ => none

end Sys2Proof
end

