-- ==== Sys2Proof/Machine/State.lean ====
section
/-! DEFINITION. The state of the machine (file 10 of spec/), the errors it raises (R320), what a step
that stops leaves behind, and the state after reset. Every field is plain data. -/

namespace Sys2Proof.Machine

/-- The kind of a bus access (R83). -/
inductive AccessKind where
  | read
  | write
  deriving DecidableEq, Repr

/-- The errors of the core (R320), with the information each carries. All are SAFE: the spec names each
of them and says that it stops the core (R325). -/
inductive CoreError where
  /-- Code 1: a bus access while the bus configuration is undefined. Raised by `locate` (R83, R321). -/
  | configurationError (kind : AccessKind)
  /-- Code 2: a bus access no chunk covers. Raised by `locate` (R83, R322). -/
  | unmappedAddress (address : Word) (kind : AccessKind)
  /-- Code 3: an unassigned opcode byte and its address. Raised by `fetch` (R192, R323). -/
  | unknownOpcode (opcode : Byte) (pc : Word)
  /-- Code 4: ADC or SBC with D = 1 under `P_DECIMAL = REFUSE`. Raised by `decimalCheck` (R251, R324). -/
  | decimalModeRefused (opcode : Byte) (pc : Word)
  /-- Code 5: an effective address asked of a mode that has none. Raised by `needEA`; no instruction of
  the table reaches it (R173). -/
  | noEffectiveAddress (mode : Mode)
  deriving DecidableEq, Repr

/-- The flags register: eight stored booleans at the bits 7..0 in this order (R37). -/
structure Flags where
  N : Bool
  V : Bool
  B1 : Bool
  B2 : Bool
  D : Bool
  I : Bool
  Z : Bool
  C : Bool
  deriving DecidableEq, Repr

/-- The backing store of the RAM and ROM chunks: the bytes that differ from what an unlisted cell reads
as, by cell number, strictly rising (`Memory.wf` in Ops.lean). -/
abbrev Memory := List Host.Cell

/-- The composed memory bus and what stands behind it: the bus configuration, `none` while undefined
(R49); the backing store of the RAM and ROM chunks (R51, R87); what has happened to the device chunks,
latest first (R87). -/
structure Bus where
  chunks : Option (List Chunk)
  mem : Memory
  io : List IoEvent
  deriving DecidableEq, Repr

/-- The whole state. -/
structure State where
  /-- The accumulator (R31). -/
  A : Byte
  /-- Index register X (R32). -/
  X : Byte
  /-- Index register Y (R33). -/
  Y : Byte
  /-- The stack pointer: low byte of the address of the next free stack byte in page 1 (R34, R94). -/
  SP : Byte
  /-- The program counter (R35). -/
  PC : Word
  /-- The cycle counter, unbounded (R36, D10). -/
  CYC : Nat
  /-- The flags register (R37). -/
  flags : Flags
  /-- The bus and the state of its chunks (R49, R51). -/
  bus : Bus
  /-- The fault record (R50). -/
  fault : Option CoreError
  /-- Whether a power-on reset has been made in the core's life (R350, D27). -/
  resetMade : Bool
  /-- The parameters of R7; no step changes them. Log entry 3. -/
  params : Params
  /-- The MODEL's own: how many free values have been used (log entry 6). -/
  free : Nat
  deriving DecidableEq, Repr

/-- Why a step stops (R200). -/
inductive Fault where
  /-- The step raised `error`, or the fault record holds it already (R326). `left` is the bus as the
  accesses made before the failing one left it, the one part of the state that is defined after an error
  (R327). Raised by `Res.outcome` and `step`. SAFE: the spec says the core is stuck. -/
  | raised (error : CoreError) (left : Bus)
  deriving DecidableEq, Repr

/-- Why a step is refused. -/
inductive Refusal where
  /-- An instruction without a meaning in this model. Raised by an arm of `exec`; no arm raises it. SAFE. -/
  | notModelled (mnemonic : String)
  /-- `step` before any power-on reset. Raised by `step`. SAFE: R350 and D27 refuse it. -/
  | neverReset
  deriving DecidableEq, Repr

/-- The state right after reset. The registers, flags, CYC and fault record are R55's; the bus
configuration is the host's `Config.chunks` (log entry 2), with nothing listed in the backing store, so
that the reset vector `Read16(0xFFFC)` of R351 is 0x0000 (log entry 1). The test
`test_reset_procedure_gives_reset` shows it to be what the procedure of R351 answers. -/
def State.reset : State :=
  { A := 0x00, X := 0x00, Y := 0x00, SP := 0xFD, PC := 0x0000, CYC := 7,
    flags := { N := false, V := false, B1 := true, B2 := false, D := false, I := true, Z := false,
               C := false },
    bus := { chunks := some Config.chunks, mem := [], io := [] },
    fault := none, resetMade := true, params := Config.params, free := 0 }

/-- What a part of a step answers (R190, R200): a value and the state after it, or an error and the
state it was raised in (whose bus is all that is defined then, R327). -/
inductive Res (α : Type) where
  | ok (a : α) (s : State)
  | err (e : CoreError) (s : State)

end Sys2Proof.Machine
end

