-- ==== Sys2Proof/Machine/Flags.lean ====
section
/-! DEFINITION. The flags register and every flag computation of the spec: packing and loading (R38,
R39), the zero/negative update under both policies (R41, R42), compare (R220), add with carry (R250),
and the bit-field reading of the register (R46, R47). -/

namespace Sys2Proof.Machine

/-! ## The flags register -/

/-- `load(b)`: every flag from its bit position (R38). -/
def Flags.load (b : Byte) : Flags :=
  { N := b.getLsbD 7, V := b.getLsbD 6, B1 := b.getLsbD 5, B2 := b.getLsbD 4,
    D := b.getLsbD 3, I := b.getLsbD 2, Z := b.getLsbD 1, C := b.getLsbD 0 }

/-- `toByte() = (N, V, B1, B2, D, I, Z, C)`, N in bit 7 (R39). -/
def Flags.toByte (f : Flags) : Byte :=
  BitVec.ofBool f.N ++ BitVec.ofBool f.V ++ BitVec.ofBool f.B1 ++ BitVec.ofBool f.B2 ++
  BitVec.ofBool f.D ++ BitVec.ofBool f.I ++ BitVec.ofBool f.Z ++ BitVec.ofBool f.C

/-- What PLP and RTI do with a pulled byte: six flags from it, B1 and B2 kept (R283, R294). -/
def Flags.pulled (b : Byte) (f : Flags) : Flags :=
  { Flags.load b with B1 := f.B1, B2 := f.B2 }

/-- The byte PHP and BRK push: bits 5 and 4 set to 1 (R281, R293). -/
def Flags.pushedByProgram (f : Flags) : Byte := f.toByte ||| 0x30

/-- The byte a host interrupt entry pushes: bit 4 = 0, bit 5 = 1 (R330). -/
def Flags.pushedByInterrupt (f : Flags) : Byte := (f.toByte &&& 0xEF) ||| 0x20

/-- `updateZeroAndNegative(value)`: only ever sets Z and N (R42). -/
def Flags.updateZeroAndNegative (r : Byte) (f : Flags) : Flags :=
  { f with Z := f.Z || r == 0, N := f.N || r.getLsbD 7 }

/-- `SetZN(r)` (R41) under a `P_ZN_POLICY`. -/
def Flags.setZN (policy : ZnPolicy) (r : Byte) (f : Flags) : Flags :=
  match policy with
  | .exact => { f with Z := r == 0, N := r.getLsbD 7 }
  | .setOnly => f.updateZeroAndNegative r

/-- `Compare(source, value)` (R220). -/
def Flags.compare (source value : Byte) (f : Flags) : Flags :=
  { f with Z := source == value, N := (source - value).getLsbD 7,
           C := decide (value.toNat ≤ source.toNat) }

/-- The flags of BIT for accumulator a and operand v (R224). -/
def Flags.bitTest (a v : Byte) (f : Flags) : Flags :=
  { f with Z := a &&& v == 0, N := v.getLsbD 7, V := v.getLsbD 6 }

/-- `AddWithCarry(a, b, cin)` (R250): the result, the carry out and the signed overflow. -/
def addWithCarry (a b : Byte) (cin : Bool) : Byte × Bool × Bool :=
  let t := a.toNat + b.toNat + cin.toNat
  let r : Byte := BitVec.ofNat 8 t
  (r, decide (t > 255), (~~~(a ^^^ b)) &&& (a ^^^ r) &&& 0x80 != 0)

/-- `SetZN(r)` on the state, under its `P_ZN_POLICY` (R41). -/
def State.setZN (r : Byte) (s : State) : State :=
  { s with flags := s.flags.setZN s.params.znPolicy r }

/-! ## The bit-field register (R46, R47) -/

/-- `field(raw, start, width) = (raw >> start) & ((1 << width) - 1)` (R46). -/
def BitField.read (raw : Byte) (f : BitField) : Nat :=
  (raw.toNat >>> f.start) &&& ((1 <<< f.width) - 1)

/-- The eight width-1 fields of the flags register, N first (R37, R47). -/
def flagFields : List BitField :=
  [{ start := 7 }, { start := 6 }, { start := 5 }, { start := 4 },
   { start := 3 }, { start := 2 }, { start := 1 }, { start := 0 }]

end Sys2Proof.Machine
end

