-- ==== Sys2Proof/Machine/Ops.lean ====
section
/-! DEFINITION. The named operations over registers, memory and the bus: the backing store, routing
(R83), the two bus accesses (R84, R85), the multi-byte reads (R88 to R90), the stack (R94), entering a
trap and returning from one (R293, R294, R330), and the fetch of an instruction (R191 to R193). -/

namespace Sys2Proof.Machine

/-- What a meaning answers. -/
abbrev Answer := Host.Outcome State Fault Refusal

/-! ## Sequencing (R12) -/

/-- Run `f` after `r`; an error ends the step at once (R200, R325). -/
def Res.andThen {α β : Type} (r : Res α) (f : α → State → Res β) : Res β :=
  match r with
  | .ok a s => f a s
  | .err e s => .err e s

/-- The outcome of a step made of parts (R190): the next state, or the error with the bus as the accesses
before the failing one left it (R327). -/
def Res.outcome (r : Res Unit) : Answer :=
  match r with
  | .ok _ s => .next s
  | .err e s => .fault (.raised e s.bus)

/-! ## The backing store -/

/-- What a cell that no write has reached reads as: 0x00. The initial content of RAM and the image of ROM
are the host's (R87). DESIGN CHOICE, log entry 1. -/
def unlistedByte : Byte := 0x00

/-- The byte of a cell of the backing store. -/
def Memory.get : Memory → Nat → Byte
  | [], _ => unlistedByte
  | (k, v) :: m, i => if i = k then v else Memory.get m i

/-- Store a byte in a cell of the backing store, keeping the canonical form. -/
def Memory.set : Memory → Nat → Byte → Memory
  | [], i, b => if b = unlistedByte then [] else [(i, b)]
  | (k, v) :: m, i, b =>
    if i < k then (if b = unlistedByte then (k, v) :: m else (i, b) :: (k, v) :: m)
    else if i = k then (if b = unlistedByte then m else (i, b) :: m)
    else (k, v) :: Memory.set m i b

/-- The canonical form: cells strictly rising, none equal to what an unlisted cell reads as. -/
def Memory.wf : Memory → Bool
  | [] => true
  | (k, v) :: m => decide (v ≠ unlistedByte) && m.all (fun c => decide (k < c.1)) && Memory.wf m

/-! ## Routing (R83) -/

/-- `c.startAddress <= addr < c.startAddress + c.size` (R83). -/
def Chunk.covers (c : Chunk) (a : Word) : Bool :=
  decide (c.start.toNat ≤ a.toNat ∧ a.toNat < c.start.toNat + c.size)

/-- The scan of R83 over the chunks in list order: the first that covers the address, with the offset. -/
def firstCovering : List Chunk → Word → Option (ChunkKind × Nat)
  | [], _ => none
  | c :: cs, a =>
    if Chunk.covers c a then some (c.kind, a.toNat - c.start.toNat) else firstCovering cs a

/-- `Locate(addr, kind)` (R83). -/
def locate (chunks : Option (List Chunk)) (a : Word) (k : AccessKind) :
    Except CoreError (ChunkKind × Nat) :=
  match chunks with
  | none => .error (.configurationError k)
  | some cs =>
    match firstCovering cs a with
    | some hit => .ok hit
    | none => .error (.unmappedAddress a k)

/-! ## The bus (R84, R85, R87) -/

/-- `MemRead(addr, 1)` on the bus (R84): RAM and ROM answer the byte of their cell; a device is read once
and its answer is a free value (R87, R203). -/
def Bus.read (b : Bus) (a : Word) : Except CoreError (Byte × Bus) :=
  match locate b.chunks a .read with
  | .error e => .error e
  | .ok (.ram base, off) => .ok (b.mem.get (base + off), b)
  | .ok (.rom base, off) => .ok (b.mem.get (base + off), b)
  | .ok (.device id, off) =>
    .ok (Config.deviceRead id off b.io, { b with io := .read id off :: b.io })

/-- `MemWrite(addr, 1, v)` on the bus (R85): RAM stores the byte, ROM ignores it, a device receives it
(R87, D24). -/
def Bus.write (b : Bus) (a : Word) (v : Byte) : Except CoreError Bus :=
  match locate b.chunks a .write with
  | .error e => .error e
  | .ok (.ram base, off) => .ok { b with mem := b.mem.set (base + off) v }
  | .ok (.rom _, _) => .ok b
  | .ok (.device id, off) => .ok { b with io := .write id off v :: b.io }

/-- `MemRead(addr, 1)` (R84). -/
def memRead (a : Word) (s : State) : Res Byte :=
  match s.bus.read a with
  | .ok (v, b) => .ok v { s with bus := b }
  | .error e => .err e s

/-- `MemWrite(addr, 1, v)` (R85). -/
def memWrite (a : Word) (v : Byte) (s : State) : Res Unit :=
  match s.bus.write a v with
  | .ok b => .ok () { s with bus := b }
  | .error e => .err e s

/-! ## What stands in memory -/

/-- The backing cell a read of an address answers from, if a RAM or ROM chunk covers it. -/
def State.cellOf (s : State) (a : Word) : Option Nat :=
  match locate s.bus.chunks a .read with
  | .ok (.ram base, off) => some (base + off)
  | .ok (.rom base, off) => some (base + off)
  | _ => none

/-- The backing cell a write of an address stores to, if a RAM chunk covers it. -/
def State.ramCell (s : State) (a : Word) : Option Nat :=
  match locate s.bus.chunks a .write with
  | .ok (.ram base, off) => some (base + off)
  | _ => none

/-- The byte that stands at an address, if a RAM or ROM chunk covers it. -/
def State.byteAt (s : State) (a : Word) : Option Byte :=
  (s.cellOf a).map s.bus.mem.get

/-! ## Multi-byte reads (R88 to R90) -/

/-- Two one-byte reads, the low byte first (R88). -/
def readPair (al ah : Word) (s : State) : Res Word :=
  (memRead al s).andThen fun l s =>
  (memRead ah s).andThen fun h s => .ok (wordOf l h) s

/-- `Read16(a)` (R88). -/
def read16 (a : Word) (s : State) : Res Word := readPair a (a + 1) s

/-- `Read16ZP(p)`: both bytes from the zero page (R89, D4). -/
def read16ZP (p : Byte) (s : State) : Res Word := readPair (zext p) (zext (p + 1)) s

/-- `Read16PageWrap(p)` under `P_JMP_IND_WRAP` (R90, D3). -/
def read16PageWrap (p : Word) (s : State) : Res Word :=
  match s.params.jmpIndWrap with
  | .pageWrap => readPair p ((p &&& 0xFF00) ||| ((p + 1) &&& 0x00FF)) s
  | .linear => read16 p s

/-! ## The stack (R94) -/

/-- The stack address of a stack pointer: `0x0100 | SP` (R94). -/
def stackAddress (sp : Byte) : Word := 0x0100 ||| zext sp

/-- `Push(v)` (R94). -/
def push (v : Byte) (s : State) : Res Unit :=
  (memWrite (stackAddress s.SP) v s).andThen fun _ s => .ok () { s with SP := s.SP - 1 }

/-- `Pull()` (R94). -/
def pull (s : State) : Res Byte :=
  let s := { s with SP := s.SP + 1 }
  memRead (stackAddress s.SP) s

/-- Push a 16-bit value, high byte first (R94). -/
def pushWord (w : Word) (s : State) : Res Unit :=
  (push (hi w) s).andThen fun _ s => push (lo w) s

/-- Pull a 16-bit value, low byte first (R94). -/
def pullWord (s : State) : Res Word :=
  (pull s).andThen fun l s =>
  (pull s).andThen fun h s => .ok (wordOf l h) s

/-! ## Taking a trap and returning from one -/

/-- The NMI vector (R95). -/
def nmiVector : Word := 0xFFFA

/-- The reset vector (R95). -/
def resetVector : Word := 0xFFFC

/-- The IRQ and BRK vector (R95). -/
def irqVector : Word := 0xFFFE

/-- Taking a trap (R293, R330): stack the return address, high byte first, and the status byte, set I,
load PC from the vector. BRK and the host's interrupt entry differ in the three arguments only. -/
def enterTrap (ret : Word) (status : Byte) (vector : Word) (s : State) : Res Unit :=
  (pushWord ret s).andThen fun _ s =>
  (push status s).andThen fun _ s =>
  (read16 vector { s with flags := { s.flags with I := true } }).andThen fun pc s =>
  .ok () { s with PC := pc }

/-- Returning from a trap (R294): pull the status (B1, B2 kept), then the return address. -/
def returnFromTrap (s : State) : Res Unit :=
  (pull s).andThen fun b s =>
  (pullWord { s with flags := s.flags.pulled b }).andThen fun pc s =>
  .ok () { s with PC := pc }

/-! ## Fetching an instruction (R191 to R193) -/

/-- Read the byte at PC and advance PC by 1, modulo 65536 (R191, R193). -/
def fetchByte (s : State) : Res Byte :=
  (memRead s.PC s).andThen fun v s => .ok v { s with PC := s.PC + 1 }

/-- Fetch, Decode and Read Operand: the instruction at PC, and the state with PC at NextPC (R199). An
unassigned byte raises its error before any parameter byte is read (R192, R328). -/
def fetch (s : State) : Res Instr :=
  (fetchByte s).andThen fun op s1 =>
  match formOf op with
  | none => .err (.unknownOpcode op s.PC) s1
  | some (.f1 i) => .ok i s1
  | some (.f2 mk) => (fetchByte s1).andThen fun p s2 => .ok (mk p) s2
  | some (.f3 mk) =>
    (fetchByte s1).andThen fun l s2 =>
    (fetchByte s2).andThen fun h s3 => .ok (mk (wordOf l h)) s3

/-! ## Placing an instruction where the next fetch reads it -/

/-- Put a byte where a read of an address answers it: in the backing cell of the address if a RAM or ROM
chunk covers it; else in front of the chunk list in a RAM chunk of that one byte. Log entry 9. -/
def State.placeByte (a : Word) (v : Byte) (s : State) : State :=
  match s.cellOf a with
  | some k => { s with bus := { s.bus with mem := s.bus.mem.set k v } }
  | none =>
    { s with bus :=
      { s.bus with
        chunks := some ({ start := a, size := 1, kind := .ram (0x100000 + a.toNat) } ::
          s.bus.chunks.getD [])
        mem := s.bus.mem.set (0x100000 + a.toNat) v } }

/-- Put bytes at an address and the ones after it, modulo 65536. -/
def State.placeBytes (a : Word) : List Byte → State → State
  | [], s => s
  | v :: vs, s => State.placeBytes (a + 1) vs (s.placeByte a v)

end Sys2Proof.Machine
end

