-- ==== Sys2Proof/Machine/Operands.lean ====
section
/-! DEFINITION. The addressing-mode resolver (file 40 of spec/), the operand of each operand class (R161),
the cycle accounting (R196 to R198), and the shape of an instruction of each class: Resolve, then
Execute, then Account (R190). An instruction runs in the state Read Operand leaves, so that PC is
NextPC (R199). -/

namespace Sys2Proof.Machine

/-! ## The resolver (R160 to R175) -/

/-- What the resolver returns (R160, R175): an effective address or NoAddress (`none`), and
PageCrossed. -/
structure Resolved where
  ea : Option Word
  crossed : Bool
  deriving DecidableEq, Repr

/-- `PageCrossed` for the page-cross base b (R175). -/
def pageCrossed (b ea : Word) : Bool := (b &&& 0xFF00) != (ea &&& 0xFF00)

/-- An effective address of a mode without a page-cross base (R175). -/
def Resolved.at (ea : Word) : Resolved := ⟨some ea, false⟩

/-- An effective address of a mode with the page-cross base b (R175). -/
def Resolved.from (b ea : Word) : Resolved := ⟨some ea, pageCrossed b ea⟩

/-- `getAddress(mode, param)` (R160, R162 to R173) in the state Read Operand leaves. A one-byte parameter
stands in `param` zero-extended (R132). -/
def resolve (mode : Mode) (param : Word) (s : State) : Res Resolved :=
  match mode with
  | .implicit | .accumulator | .immediate => .ok ⟨none, false⟩ s
  | .zeroPage => .ok (.at param) s
  | .indexedZeroPageX => .ok (.at (zext (lo param + s.X))) s
  | .indexedZeroPageY => .ok (.at (zext (lo param + s.Y))) s
  | .absolute => .ok (.at param) s
  | .indexedAbsoluteX => .ok (.from param (param + zext s.X)) s
  | .indexedAbsoluteY => .ok (.from param (param + zext s.Y)) s
  | .indirect => (read16PageWrap param s).andThen fun ea s => .ok (.at ea) s
  | .indexedIndirectX => (read16ZP (lo param + s.X) s).andThen fun ea s => .ok (.at ea) s
  | .indexedIndirectY =>
    (read16ZP (lo param) s).andThen fun base s => .ok (.from base (base + zext s.Y)) s
  | .relative => .ok (.from s.PC (s.PC + sext (lo param))) s

/-- The effective address an instruction needs; the error of R173 if its mode gives none. -/
def needEA (mode : Mode) (r : Resolved) (s : State) : Res Word :=
  match r.ea with
  | some ea => .ok ea s
  | none => .err (.noEffectiveAddress mode) s

/-- The READ-class operand value: the parameter in IMMEDIATE mode, else one read of EA (R161, R164). -/
def operandValue (mode : Mode) (param : Word) (r : Resolved) (s : State) : Res Byte :=
  match mode with
  | .immediate => .ok (lo param) s
  | _ => (needEA mode r s).andThen fun ea s => memRead ea s

/-- Resolve, then the READ-class operand read (R194, R161). -/
def readOperand (mode : Mode) (param : Word) (s : State) : Res (Resolved × Byte) :=
  (resolve mode param s).andThen fun r s =>
  (operandValue mode param r s).andThen fun v s => .ok (r, v) s

/-! ## Account (R196 to R198) -/

/-- The page-cross cycle of R197 for a row's pageCrossPenalty. -/
def crossExtra (penalty : Bool) (r : Resolved) : Nat := if penalty && r.crossed then 1 else 0

/-- The extra cycles of a conditional branch (R198). -/
def branchExtra (taken : Bool) (r : Resolved) : Nat :=
  if taken then (if r.crossed then 2 else 1) else 0

/-- `CYC <- CYC + baseCycles + extra` (R196). -/
def State.account (cycles : Nat) (s : State) : State := { s with CYC := s.CYC + cycles }

/-! ## Checks before the operand read -/

/-- No check. -/
def unchecked (s : State) : Res Unit := .ok () s

/-- R251, R324, D28: under `P_DECIMAL = REFUSE`, ADC and SBC with D = 1 are refused after Resolve and
before the operand read. `opcode` and `length` are the instruction's; PCfetch is NextPC − length
(R199). -/
def decimalCheck (opcode : Byte) (length : Word) (s : State) : Res Unit :=
  if s.params.decimal = .refuse ∧ s.flags.D = true then
    .err (.decimalModeRefused opcode (s.PC - length)) s
  else .ok () s

/-! ## The shape of an instruction of each operand class (R161) -/

/-- READ: resolve, check, read the operand, apply `f`, account. -/
def readClass (mode : Mode) (param : Word) (cycles : Nat) (penalty : Bool)
    (check : State → Res Unit) (f : Byte → State → State) (s : State) : Res Unit :=
  (resolve mode param s).andThen fun r s =>
  (check s).andThen fun _ s =>
  (operandValue mode param r s).andThen fun v s =>
  .ok () ((f v s).account (cycles + crossExtra penalty r))

/-- WRITE: resolve, write a register to EA with no read of EA, account. -/
def writeClass (mode : Mode) (param : Word) (cycles : Nat) (reg : State → Byte) (s : State) :
    Res Unit :=
  (resolve mode param s).andThen fun r s =>
  (needEA mode r s).andThen fun ea s =>
  (memWrite ea (reg s) s).andThen fun _ s => .ok () (s.account cycles)

/-- RMW: on A in ACCUMULATOR mode, else one read then one write of EA (R161, R270, D12). `f` maps the
operand to the result and the state with the flags it writes. -/
def rmwClass (mode : Mode) (param : Word) (cycles : Nat) (f : Byte → State → Byte × State)
    (s : State) : Res Unit :=
  (resolve mode param s).andThen fun r s =>
  match mode with
  | .accumulator =>
    let (v, s) := f s.A s
    .ok () (State.account cycles { s with A := v })
  | _ =>
    (needEA mode r s).andThen fun ea s =>
    (memRead ea s).andThen fun v s =>
    let (v, s) := f v s
    (memWrite ea v s).andThen fun _ s => .ok () (s.account cycles)

/-- JUMP: resolve, hand EA to `f` with no read of EA, account. -/
def jumpClass (mode : Mode) (param : Word) (cycles : Nat) (f : Word → State → Res Unit)
    (s : State) : Res Unit :=
  (resolve mode param s).andThen fun r s =>
  (needEA mode r s).andThen fun ea s =>
  (f ea s).andThen fun _ s => .ok () (s.account cycles)

/-- BRANCH: `if cond: PC <- EA`, base cost 2 (R295, R198). -/
def branchClass (param : Word) (cond : State → Bool) (s : State) : Res Unit :=
  (resolve .relative param s).andThen fun r s =>
  (needEA .relative r s).andThen fun ea s =>
  let taken := cond s
  let s := if taken then { s with PC := ea } else s
  .ok () (s.account (2 + branchExtra taken r))

/-- IMPL: registers and flags only. -/
def implClass (cycles : Nat) (f : State → State) (s : State) : Res Unit :=
  .ok () ((f s).account cycles)

/-- STACK: the instruction's own stack accesses, then account. -/
def stackClass (cycles : Nat) (f : State → Res Unit) (s : State) : Res Unit :=
  (f s).andThen fun _ s => .ok () (s.account cycles)

end Sys2Proof.Machine
end

