-- ==== Sys2Proof/Machine/Arith.lean ====
section
/-! DEFINITION. Arithmetic, logic, increment and decrement instructions (file 44 of spec/, R250 to R262).
The effect of each mnemonic, then one meaning per instruction. -/

namespace Sys2Proof.Machine

/-- `A <- AddWithCarry(A, v, C); SetZN(A)`, C and V written by AddWithCarry (R250, R252). -/
def adcEffect (v : Byte) (s : State) : State :=
  let (r, c, o) := addWithCarry s.A v s.flags.C
  { s with A := r, flags := { s.flags with C := c, V := o } }.setZN r

/-- The effect of SBC: AddWithCarry of the complement of v (R253). -/
def sbcEffect (v : Byte) (s : State) : State :=
  let (r, c, o) := addWithCarry s.A (~~~v) s.flags.C
  { s with A := r, flags := { s.flags with C := c, V := o } }.setZN r

/-- The effect of AND: `A <- A & v; SetZN(A)` (R254). -/
def andEffect (v : Byte) (s : State) : State := { s with A := s.A &&& v }.setZN (s.A &&& v)

/-- The effect of ORA: `A <- A | v; SetZN(A)` (R255). -/
def oraEffect (v : Byte) (s : State) : State := { s with A := s.A ||| v }.setZN (s.A ||| v)

/-- The effect of EOR: `A <- A ^ v; SetZN(A)` (R256). -/
def eorEffect (v : Byte) (s : State) : State := { s with A := s.A ^^^ v }.setZN (s.A ^^^ v)

/-- The result and flags of INC: `r <- u8(v + 1); SetZN(r)` (R257). -/
def incEffect (v : Byte) (s : State) : Byte × State := (v + 1, s.setZN (v + 1))

/-- The result and flags of DEC: `r <- u8(v - 1); SetZN(r)` (R258). -/
def decEffect (v : Byte) (s : State) : Byte × State := (v - 1, s.setZN (v - 1))

/-- The effect of INX: `X <- u8(X + 1); SetZN(X)` (R259). -/
def inxEffect (s : State) : State := { s with X := s.X + 1 }.setZN (s.X + 1)

/-- The effect of INY: `Y <- u8(Y + 1); SetZN(Y)` (R260). -/
def inyEffect (s : State) : State := { s with Y := s.Y + 1 }.setZN (s.Y + 1)

/-- The effect of DEX: `X <- u8(X - 1); SetZN(X)` (R261). -/
def dexEffect (s : State) : State := { s with X := s.X - 1 }.setZN (s.X - 1)

/-- The effect of DEY: `Y <- u8(Y - 1); SetZN(Y)` (R262). -/
def deyEffect (s : State) : State := { s with Y := s.Y - 1 }.setZN (s.Y - 1)

/-- `ADC ($nn,X)` (0x61): R252, INDEXED_INDIRECT_X (R170). -/
def execAdcIndX (p : Byte) (s : State) : Answer :=
  (readClass .indexedIndirectX (zext p) 6 false (decimalCheck 0x61 2) adcEffect s).outcome

/-- `ADC $nn` (0x65): R252, ZERO_PAGE (R165). -/
def execAdcZp (p : Byte) (s : State) : Answer :=
  (readClass .zeroPage (zext p) 3 false (decimalCheck 0x65 2) adcEffect s).outcome

/-- `ADC #$nn` (0x69): R252, IMMEDIATE (R164). -/
def execAdcImm (p : Byte) (s : State) : Answer :=
  (readClass .immediate (zext p) 2 false (decimalCheck 0x69 2) adcEffect s).outcome

/-- `ADC $nnnn` (0x6D): R252, ABSOLUTE (R167). -/
def execAdcAbs (p : Word) (s : State) : Answer :=
  (readClass .absolute p 4 false (decimalCheck 0x6D 3) adcEffect s).outcome

/-- `ADC ($nn),Y` (0x71): R252, INDEXED_INDIRECT_Y (R171). -/
def execAdcIndY (p : Byte) (s : State) : Answer :=
  (readClass .indexedIndirectY (zext p) 5 true (decimalCheck 0x71 2) adcEffect s).outcome

/-- `ADC $nn,X` (0x75): R252, INDEXED_ZERO_PAGE_X (R166). -/
def execAdcZpX (p : Byte) (s : State) : Answer :=
  (readClass .indexedZeroPageX (zext p) 4 false (decimalCheck 0x75 2) adcEffect s).outcome

/-- `ADC $nnnn,Y` (0x79): R252, INDEXED_ABSOLUTE_Y (R168). -/
def execAdcAbsY (p : Word) (s : State) : Answer :=
  (readClass .indexedAbsoluteY p 4 true (decimalCheck 0x79 3) adcEffect s).outcome

/-- `ADC $nnnn,X` (0x7D): R252, INDEXED_ABSOLUTE_X (R168). -/
def execAdcAbsX (p : Word) (s : State) : Answer :=
  (readClass .indexedAbsoluteX p 4 true (decimalCheck 0x7D 3) adcEffect s).outcome

/-- `SBC ($nn,X)` (0xE1): R253, INDEXED_INDIRECT_X (R170). -/
def execSbcIndX (p : Byte) (s : State) : Answer :=
  (readClass .indexedIndirectX (zext p) 6 false (decimalCheck 0xE1 2) sbcEffect s).outcome

/-- `SBC $nn` (0xE5): R253, ZERO_PAGE (R165). -/
def execSbcZp (p : Byte) (s : State) : Answer :=
  (readClass .zeroPage (zext p) 3 false (decimalCheck 0xE5 2) sbcEffect s).outcome

/-- `SBC #$nn` (0xE9): R253, IMMEDIATE (R164). -/
def execSbcImm (p : Byte) (s : State) : Answer :=
  (readClass .immediate (zext p) 2 false (decimalCheck 0xE9 2) sbcEffect s).outcome

/-- `SBC $nnnn` (0xED): R253, ABSOLUTE (R167). -/
def execSbcAbs (p : Word) (s : State) : Answer :=
  (readClass .absolute p 4 false (decimalCheck 0xED 3) sbcEffect s).outcome

/-- `SBC ($nn),Y` (0xF1): R253, INDEXED_INDIRECT_Y (R171). -/
def execSbcIndY (p : Byte) (s : State) : Answer :=
  (readClass .indexedIndirectY (zext p) 5 true (decimalCheck 0xF1 2) sbcEffect s).outcome

/-- `SBC $nn,X` (0xF5): R253, INDEXED_ZERO_PAGE_X (R166). -/
def execSbcZpX (p : Byte) (s : State) : Answer :=
  (readClass .indexedZeroPageX (zext p) 4 false (decimalCheck 0xF5 2) sbcEffect s).outcome

/-- `SBC $nnnn,Y` (0xF9): R253, INDEXED_ABSOLUTE_Y (R168). -/
def execSbcAbsY (p : Word) (s : State) : Answer :=
  (readClass .indexedAbsoluteY p 4 true (decimalCheck 0xF9 3) sbcEffect s).outcome

/-- `SBC $nnnn,X` (0xFD): R253, INDEXED_ABSOLUTE_X (R168). -/
def execSbcAbsX (p : Word) (s : State) : Answer :=
  (readClass .indexedAbsoluteX p 4 true (decimalCheck 0xFD 3) sbcEffect s).outcome

/-- `AND ($nn,X)` (0x21): R254, INDEXED_INDIRECT_X (R170). -/
def execAndIndX (p : Byte) (s : State) : Answer :=
  (readClass .indexedIndirectX (zext p) 6 false unchecked andEffect s).outcome

/-- `AND $nn` (0x25): R254, ZERO_PAGE (R165). -/
def execAndZp (p : Byte) (s : State) : Answer :=
  (readClass .zeroPage (zext p) 3 false unchecked andEffect s).outcome

/-- `AND #$nn` (0x29): R254, IMMEDIATE (R164). -/
def execAndImm (p : Byte) (s : State) : Answer :=
  (readClass .immediate (zext p) 2 false unchecked andEffect s).outcome

/-- `AND $nnnn` (0x2D): R254, ABSOLUTE (R167). -/
def execAndAbs (p : Word) (s : State) : Answer :=
  (readClass .absolute p 4 false unchecked andEffect s).outcome

/-- `AND ($nn),Y` (0x31): R254, INDEXED_INDIRECT_Y (R171). -/
def execAndIndY (p : Byte) (s : State) : Answer :=
  (readClass .indexedIndirectY (zext p) 5 true unchecked andEffect s).outcome

/-- `AND $nn,X` (0x35): R254, INDEXED_ZERO_PAGE_X (R166). -/
def execAndZpX (p : Byte) (s : State) : Answer :=
  (readClass .indexedZeroPageX (zext p) 4 false unchecked andEffect s).outcome

/-- `AND $nnnn,Y` (0x39): R254, INDEXED_ABSOLUTE_Y (R168). -/
def execAndAbsY (p : Word) (s : State) : Answer :=
  (readClass .indexedAbsoluteY p 4 true unchecked andEffect s).outcome

/-- `AND $nnnn,X` (0x3D): R254, INDEXED_ABSOLUTE_X (R168). -/
def execAndAbsX (p : Word) (s : State) : Answer :=
  (readClass .indexedAbsoluteX p 4 true unchecked andEffect s).outcome

/-- `ORA ($nn,X)` (0x01): R255, INDEXED_INDIRECT_X (R170). -/
def execOraIndX (p : Byte) (s : State) : Answer :=
  (readClass .indexedIndirectX (zext p) 6 false unchecked oraEffect s).outcome

/-- `ORA $nn` (0x05): R255, ZERO_PAGE (R165). -/
def execOraZp (p : Byte) (s : State) : Answer :=
  (readClass .zeroPage (zext p) 3 false unchecked oraEffect s).outcome

/-- `ORA #$nn` (0x09): R255, IMMEDIATE (R164). -/
def execOraImm (p : Byte) (s : State) : Answer :=
  (readClass .immediate (zext p) 2 false unchecked oraEffect s).outcome

/-- `ORA $nnnn` (0x0D): R255, ABSOLUTE (R167). -/
def execOraAbs (p : Word) (s : State) : Answer :=
  (readClass .absolute p 4 false unchecked oraEffect s).outcome

/-- `ORA ($nn),Y` (0x11): R255, INDEXED_INDIRECT_Y (R171). -/
def execOraIndY (p : Byte) (s : State) : Answer :=
  (readClass .indexedIndirectY (zext p) 5 true unchecked oraEffect s).outcome

/-- `ORA $nn,X` (0x15): R255, INDEXED_ZERO_PAGE_X (R166). -/
def execOraZpX (p : Byte) (s : State) : Answer :=
  (readClass .indexedZeroPageX (zext p) 4 false unchecked oraEffect s).outcome

/-- `ORA $nnnn,Y` (0x19): R255, INDEXED_ABSOLUTE_Y (R168). -/
def execOraAbsY (p : Word) (s : State) : Answer :=
  (readClass .indexedAbsoluteY p 4 true unchecked oraEffect s).outcome

/-- `ORA $nnnn,X` (0x1D): R255, INDEXED_ABSOLUTE_X (R168). -/
def execOraAbsX (p : Word) (s : State) : Answer :=
  (readClass .indexedAbsoluteX p 4 true unchecked oraEffect s).outcome

/-- `EOR ($nn,X)` (0x41): R256, INDEXED_INDIRECT_X (R170). -/
def execEorIndX (p : Byte) (s : State) : Answer :=
  (readClass .indexedIndirectX (zext p) 6 false unchecked eorEffect s).outcome

/-- `EOR $nn` (0x45): R256, ZERO_PAGE (R165). -/
def execEorZp (p : Byte) (s : State) : Answer :=
  (readClass .zeroPage (zext p) 3 false unchecked eorEffect s).outcome

/-- `EOR #$nn` (0x49): R256, IMMEDIATE (R164). -/
def execEorImm (p : Byte) (s : State) : Answer :=
  (readClass .immediate (zext p) 2 false unchecked eorEffect s).outcome

/-- `EOR $nnnn` (0x4D): R256, ABSOLUTE (R167). -/
def execEorAbs (p : Word) (s : State) : Answer :=
  (readClass .absolute p 4 false unchecked eorEffect s).outcome

/-- `EOR ($nn),Y` (0x51): R256, INDEXED_INDIRECT_Y (R171). -/
def execEorIndY (p : Byte) (s : State) : Answer :=
  (readClass .indexedIndirectY (zext p) 5 true unchecked eorEffect s).outcome

/-- `EOR $nn,X` (0x55): R256, INDEXED_ZERO_PAGE_X (R166). -/
def execEorZpX (p : Byte) (s : State) : Answer :=
  (readClass .indexedZeroPageX (zext p) 4 false unchecked eorEffect s).outcome

/-- `EOR $nnnn,Y` (0x59): R256, INDEXED_ABSOLUTE_Y (R168). -/
def execEorAbsY (p : Word) (s : State) : Answer :=
  (readClass .indexedAbsoluteY p 4 true unchecked eorEffect s).outcome

/-- `EOR $nnnn,X` (0x5D): R256, INDEXED_ABSOLUTE_X (R168). -/
def execEorAbsX (p : Word) (s : State) : Answer :=
  (readClass .indexedAbsoluteX p 4 true unchecked eorEffect s).outcome

/-- `INC $nn` (0xE6): R257, ZERO_PAGE (R165). -/
def execIncZp (p : Byte) (s : State) : Answer :=
  (rmwClass .zeroPage (zext p) 5 incEffect s).outcome

/-- `INC $nnnn` (0xEE): R257, ABSOLUTE (R167). -/
def execIncAbs (p : Word) (s : State) : Answer :=
  (rmwClass .absolute p 6 incEffect s).outcome

/-- `INC $nn,X` (0xF6): R257, INDEXED_ZERO_PAGE_X (R166). -/
def execIncZpX (p : Byte) (s : State) : Answer :=
  (rmwClass .indexedZeroPageX (zext p) 6 incEffect s).outcome

/-- `INC $nnnn,X` (0xFE): R257, INDEXED_ABSOLUTE_X (R168). -/
def execIncAbsX (p : Word) (s : State) : Answer :=
  (rmwClass .indexedAbsoluteX p 7 incEffect s).outcome

/-- `DEC $nn` (0xC6): R258, ZERO_PAGE (R165). -/
def execDecZp (p : Byte) (s : State) : Answer :=
  (rmwClass .zeroPage (zext p) 5 decEffect s).outcome

/-- `DEC $nnnn` (0xCE): R258, ABSOLUTE (R167). -/
def execDecAbs (p : Word) (s : State) : Answer :=
  (rmwClass .absolute p 6 decEffect s).outcome

/-- `DEC $nn,X` (0xD6): R258, INDEXED_ZERO_PAGE_X (R166). -/
def execDecZpX (p : Byte) (s : State) : Answer :=
  (rmwClass .indexedZeroPageX (zext p) 6 decEffect s).outcome

/-- `DEC $nnnn,X` (0xDE): R258, INDEXED_ABSOLUTE_X (R168). -/
def execDecAbsX (p : Word) (s : State) : Answer :=
  (rmwClass .indexedAbsoluteX p 7 decEffect s).outcome

/-- `INX` (0xE8): R259, IMPLICIT (R162). -/
def execInx (s : State) : Answer :=
  (implClass 2 inxEffect s).outcome

/-- `INY` (0xC8): R260, IMPLICIT (R162). -/
def execIny (s : State) : Answer :=
  (implClass 2 inyEffect s).outcome

/-- `DEX` (0xCA): R261, IMPLICIT (R162). -/
def execDex (s : State) : Answer :=
  (implClass 2 dexEffect s).outcome

/-- `DEY` (0x88): R262, IMPLICIT (R162). -/
def execDey (s : State) : Answer :=
  (implClass 2 deyEffect s).outcome

end Sys2Proof.Machine
end

