-- ==== Sys2Proof/Machine/Compare.lean ====
section
/-! DEFINITION. Compare and bit-test instructions (file 42 of spec/, R220 to R224): CMP, CPX, CPY, BIT. They assign
their flags directly, whatever `P_ZN_POLICY` is (R220).
The effect of each mnemonic, then one meaning per instruction. -/

namespace Sys2Proof.Machine

/-- The effect of CMP: `Compare(A, v)` (R221). -/
def cmpEffect (v : Byte) (s : State) : State := { s with flags := s.flags.compare s.A v }

/-- The effect of CPX: `Compare(X, v)` (R222). -/
def cpxEffect (v : Byte) (s : State) : State := { s with flags := s.flags.compare s.X v }

/-- The effect of CPY: `Compare(Y, v)` (R223). -/
def cpyEffect (v : Byte) (s : State) : State := { s with flags := s.flags.compare s.Y v }

/-- The effect of BIT (R224). -/
def bitEffect (v : Byte) (s : State) : State := { s with flags := s.flags.bitTest s.A v }

/-- `CMP ($nn,X)` (0xC1): R221, INDEXED_INDIRECT_X (R170). -/
def execCmpIndX (p : Byte) (s : State) : Answer :=
  (readClass .indexedIndirectX (zext p) 6 false unchecked cmpEffect s).outcome

/-- `CMP $nn` (0xC5): R221, ZERO_PAGE (R165). -/
def execCmpZp (p : Byte) (s : State) : Answer :=
  (readClass .zeroPage (zext p) 3 false unchecked cmpEffect s).outcome

/-- `CMP #$nn` (0xC9): R221, IMMEDIATE (R164). -/
def execCmpImm (p : Byte) (s : State) : Answer :=
  (readClass .immediate (zext p) 2 false unchecked cmpEffect s).outcome

/-- `CMP $nnnn` (0xCD): R221, ABSOLUTE (R167). -/
def execCmpAbs (p : Word) (s : State) : Answer :=
  (readClass .absolute p 4 false unchecked cmpEffect s).outcome

/-- `CMP ($nn),Y` (0xD1): R221, INDEXED_INDIRECT_Y (R171). -/
def execCmpIndY (p : Byte) (s : State) : Answer :=
  (readClass .indexedIndirectY (zext p) 5 true unchecked cmpEffect s).outcome

/-- `CMP $nn,X` (0xD5): R221, INDEXED_ZERO_PAGE_X (R166). -/
def execCmpZpX (p : Byte) (s : State) : Answer :=
  (readClass .indexedZeroPageX (zext p) 4 false unchecked cmpEffect s).outcome

/-- `CMP $nnnn,Y` (0xD9): R221, INDEXED_ABSOLUTE_Y (R168). -/
def execCmpAbsY (p : Word) (s : State) : Answer :=
  (readClass .indexedAbsoluteY p 4 true unchecked cmpEffect s).outcome

/-- `CMP $nnnn,X` (0xDD): R221, INDEXED_ABSOLUTE_X (R168). -/
def execCmpAbsX (p : Word) (s : State) : Answer :=
  (readClass .indexedAbsoluteX p 4 true unchecked cmpEffect s).outcome

/-- `CPX #$nn` (0xE0): R222, IMMEDIATE (R164). -/
def execCpxImm (p : Byte) (s : State) : Answer :=
  (readClass .immediate (zext p) 2 false unchecked cpxEffect s).outcome

/-- `CPX $nn` (0xE4): R222, ZERO_PAGE (R165). -/
def execCpxZp (p : Byte) (s : State) : Answer :=
  (readClass .zeroPage (zext p) 3 false unchecked cpxEffect s).outcome

/-- `CPX $nnnn` (0xEC): R222, ABSOLUTE (R167). -/
def execCpxAbs (p : Word) (s : State) : Answer :=
  (readClass .absolute p 4 false unchecked cpxEffect s).outcome

/-- `CPY #$nn` (0xC0): R223, IMMEDIATE (R164). -/
def execCpyImm (p : Byte) (s : State) : Answer :=
  (readClass .immediate (zext p) 2 false unchecked cpyEffect s).outcome

/-- `CPY $nn` (0xC4): R223, ZERO_PAGE (R165). -/
def execCpyZp (p : Byte) (s : State) : Answer :=
  (readClass .zeroPage (zext p) 3 false unchecked cpyEffect s).outcome

/-- `CPY $nnnn` (0xCC): R223, ABSOLUTE (R167). -/
def execCpyAbs (p : Word) (s : State) : Answer :=
  (readClass .absolute p 4 false unchecked cpyEffect s).outcome

/-- `BIT $nn` (0x24): R224, ZERO_PAGE (R165). -/
def execBitZp (p : Byte) (s : State) : Answer :=
  (readClass .zeroPage (zext p) 3 false unchecked bitEffect s).outcome

/-- `BIT $nnnn` (0x2C): R224, ABSOLUTE (R167). -/
def execBitAbs (p : Word) (s : State) : Answer :=
  (readClass .absolute p 4 false unchecked bitEffect s).outcome

end Sys2Proof.Machine
end

