-- ==== Sys2Proof/Machine/Control.lean ====
section
/-! DEFINITION. Control-transfer instructions (file 47 of spec/, R290 to R303), the software trap BRK and its return RTI
among them.
The effect of each mnemonic, then one meaning per instruction. -/

namespace Sys2Proof.Machine

/-- The effect of JMP: `PC <- EA` (R290). -/
def jmpEffect (ea : Word) (s : State) : Res Unit := .ok () { s with PC := ea }

/-- The effect of JSR: push `u16(NextPC - 1)`, high byte first, then `PC <- EA` (R291, D23). -/
def jsrEffect (ea : Word) (s : State) : Res Unit :=
  (pushWord (s.PC - 1) s).andThen fun _ s => .ok () { s with PC := ea }

/-- The effect of RTS: pull the address, low byte first, and add 1 (R292, D23). -/
def rtsEffect (s : State) : Res Unit :=
  (pullWord s).andThen fun w s => .ok () { s with PC := w + 1 }

/-- The effect of BRK: the trap entry with return address `u16(NextPC + 1)`, pushed status
`toByte() | 0x30`, through the IRQ/BRK vector (R293, R331, D22). -/
def brkEffect (s : State) : Res Unit :=
  enterTrap (s.PC + 1) s.flags.pushedByProgram irqVector s

/-- The effect of RTI: the return from a trap (R294, R332). -/
def rtiEffect (s : State) : Res Unit := returnFromTrap s

/-- `JMP $nnnn` (0x4C): R290, ABSOLUTE (R167). -/
def execJmpAbs (p : Word) (s : State) : Answer :=
  (jumpClass .absolute p 3 jmpEffect s).outcome

/-- `JMP ($nnnn)` (0x6C): R290, INDIRECT (R169). -/
def execJmpInd (p : Word) (s : State) : Answer :=
  (jumpClass .indirect p 5 jmpEffect s).outcome

/-- `JSR $nnnn` (0x20): R291, ABSOLUTE (R167). -/
def execJsrAbs (p : Word) (s : State) : Answer :=
  (jumpClass .absolute p 6 jsrEffect s).outcome

/-- `RTS` (0x60): R292, IMPLICIT (R162). -/
def execRts (s : State) : Answer :=
  (stackClass 6 rtsEffect s).outcome

/-- `BRK` (0x00): R293, IMPLICIT (R162). -/
def execBrk (s : State) : Answer :=
  (stackClass 7 brkEffect s).outcome

/-- `RTI` (0x40): R294, IMPLICIT (R162). -/
def execRti (s : State) : Answer :=
  (stackClass 6 rtiEffect s).outcome

/-- `BCC label` (0x90): R296, RELATIVE (R172). -/
def execBcc (p : Byte) (s : State) : Answer :=
  (branchClass (zext p) (fun s => !s.flags.C) s).outcome

/-- `BCS label` (0xB0): R297, RELATIVE (R172). -/
def execBcs (p : Byte) (s : State) : Answer :=
  (branchClass (zext p) (fun s => s.flags.C) s).outcome

/-- `BEQ label` (0xF0): R298, RELATIVE (R172). -/
def execBeq (p : Byte) (s : State) : Answer :=
  (branchClass (zext p) (fun s => s.flags.Z) s).outcome

/-- `BMI label` (0x30): R299, RELATIVE (R172). -/
def execBmi (p : Byte) (s : State) : Answer :=
  (branchClass (zext p) (fun s => s.flags.N) s).outcome

/-- `BNE label` (0xD0): R300, RELATIVE (R172). -/
def execBne (p : Byte) (s : State) : Answer :=
  (branchClass (zext p) (fun s => !s.flags.Z) s).outcome

/-- `BPL label` (0x10): R301, RELATIVE (R172). -/
def execBpl (p : Byte) (s : State) : Answer :=
  (branchClass (zext p) (fun s => !s.flags.N) s).outcome

/-- `BVC label` (0x50): R302, RELATIVE (R172). -/
def execBvc (p : Byte) (s : State) : Answer :=
  (branchClass (zext p) (fun s => !s.flags.V) s).outcome

/-- `BVS label` (0x70): R303, RELATIVE (R172). -/
def execBvs (p : Byte) (s : State) : Answer :=
  (branchClass (zext p) (fun s => s.flags.V) s).outcome

end Sys2Proof.Machine
end

