-- ==== Sys2Proof/Machine/FlagOps.lean ====
section
/-! DEFINITION. Flag instructions and NOP (file 48 of spec/, R310 to R317).
The effect of each mnemonic, then one meaning per instruction. -/

namespace Sys2Proof.Machine

/-- The effect of CLC: `C <- 0` (R310). -/
def clcEffect (s : State) : State := { s with flags := { s.flags with C := false } }

/-- The effect of CLD: `D <- 0` (R311). -/
def cldEffect (s : State) : State := { s with flags := { s.flags with D := false } }

/-- The effect of CLI: `I <- 0` (R312). -/
def cliEffect (s : State) : State := { s with flags := { s.flags with I := false } }

/-- The effect of CLV: `V <- 0` (R313). -/
def clvEffect (s : State) : State := { s with flags := { s.flags with V := false } }

/-- The effect of SEC: `C <- 1` (R314). -/
def secEffect (s : State) : State := { s with flags := { s.flags with C := true } }

/-- The effect of SED: `D <- 1` (R315). -/
def sedEffect (s : State) : State := { s with flags := { s.flags with D := true } }

/-- The effect of SEI: `I <- 1` (R316). -/
def seiEffect (s : State) : State := { s with flags := { s.flags with I := true } }

/-- The effect of NOP: none (R317). -/
def nopEffect (s : State) : State := s

/-- `CLC` (0x18): R310, IMPLICIT (R162). -/
def execClc (s : State) : Answer :=
  (implClass 2 clcEffect s).outcome

/-- `CLD` (0xD8): R311, IMPLICIT (R162). -/
def execCld (s : State) : Answer :=
  (implClass 2 cldEffect s).outcome

/-- `CLI` (0x58): R312, IMPLICIT (R162). -/
def execCli (s : State) : Answer :=
  (implClass 2 cliEffect s).outcome

/-- `CLV` (0xB8): R313, IMPLICIT (R162). -/
def execClv (s : State) : Answer :=
  (implClass 2 clvEffect s).outcome

/-- `SEC` (0x38): R314, IMPLICIT (R162). -/
def execSec (s : State) : Answer :=
  (implClass 2 secEffect s).outcome

/-- `SED` (0xF8): R315, IMPLICIT (R162). -/
def execSed (s : State) : Answer :=
  (implClass 2 sedEffect s).outcome

/-- `SEI` (0x78): R316, IMPLICIT (R162). -/
def execSei (s : State) : Answer :=
  (implClass 2 seiEffect s).outcome

/-- `NOP` (0xEA): R317, IMPLICIT (R162). -/
def execNop (s : State) : Answer :=
  (implClass 2 nopEffect s).outcome

end Sys2Proof.Machine
end

