-- ==== Sys2Proof/Machine/LoadStore.lean ====
section
/-! DEFINITION. Load, store and register-transfer instructions (file 43 of spec/, R230 to R241).
The effect of each mnemonic, then one meaning per instruction. -/

namespace Sys2Proof.Machine

/-- The effect of LDA: `A <- v; SetZN(A)` (R230). -/
def ldaEffect (v : Byte) (s : State) : State := { s with A := v }.setZN v

/-- The effect of LDX: `X <- v; SetZN(X)` (R231). -/
def ldxEffect (v : Byte) (s : State) : State := { s with X := v }.setZN v

/-- The effect of LDY: `Y <- v; SetZN(Y)` (R232). -/
def ldyEffect (v : Byte) (s : State) : State := { s with Y := v }.setZN v

/-- The effect of TAX: `X <- A; SetZN(X)` (R236). -/
def taxEffect (s : State) : State := { s with X := s.A }.setZN s.A

/-- The effect of TAY: `Y <- A; SetZN(Y)` (R237). -/
def tayEffect (s : State) : State := { s with Y := s.A }.setZN s.A

/-- The effect of TXA: `A <- X; SetZN(A)` (R238). -/
def txaEffect (s : State) : State := { s with A := s.X }.setZN s.X

/-- The effect of TYA: `A <- Y; SetZN(A)` (R239). -/
def tyaEffect (s : State) : State := { s with A := s.Y }.setZN s.Y

/-- The effect of TSX: `X <- SP; SetZN(X)` (R240). -/
def tsxEffect (s : State) : State := { s with X := s.SP }.setZN s.SP

/-- The effect of TXS: `SP <- X`, no flag (R241). -/
def txsEffect (s : State) : State := { s with SP := s.X }

/-- `LDA ($nn,X)` (0xA1): R230, INDEXED_INDIRECT_X (R170). -/
def execLdaIndX (p : Byte) (s : State) : Answer :=
  (readClass .indexedIndirectX (zext p) 6 false unchecked ldaEffect s).outcome

/-- `LDA $nn` (0xA5): R230, ZERO_PAGE (R165). -/
def execLdaZp (p : Byte) (s : State) : Answer :=
  (readClass .zeroPage (zext p) 3 false unchecked ldaEffect s).outcome

/-- `LDA #$nn` (0xA9): R230, IMMEDIATE (R164). -/
def execLdaImm (p : Byte) (s : State) : Answer :=
  (readClass .immediate (zext p) 2 false unchecked ldaEffect s).outcome

/-- `LDA $nnnn` (0xAD): R230, ABSOLUTE (R167). -/
def execLdaAbs (p : Word) (s : State) : Answer :=
  (readClass .absolute p 4 false unchecked ldaEffect s).outcome

/-- `LDA ($nn),Y` (0xB1): R230, INDEXED_INDIRECT_Y (R171). -/
def execLdaIndY (p : Byte) (s : State) : Answer :=
  (readClass .indexedIndirectY (zext p) 5 true unchecked ldaEffect s).outcome

/-- `LDA $nn,X` (0xB5): R230, INDEXED_ZERO_PAGE_X (R166). -/
def execLdaZpX (p : Byte) (s : State) : Answer :=
  (readClass .indexedZeroPageX (zext p) 4 false unchecked ldaEffect s).outcome

/-- `LDA $nnnn,Y` (0xB9): R230, INDEXED_ABSOLUTE_Y (R168). -/
def execLdaAbsY (p : Word) (s : State) : Answer :=
  (readClass .indexedAbsoluteY p 4 true unchecked ldaEffect s).outcome

/-- `LDA $nnnn,X` (0xBD): R230, INDEXED_ABSOLUTE_X (R168). -/
def execLdaAbsX (p : Word) (s : State) : Answer :=
  (readClass .indexedAbsoluteX p 4 true unchecked ldaEffect s).outcome

/-- `LDX #$nn` (0xA2): R231, IMMEDIATE (R164). -/
def execLdxImm (p : Byte) (s : State) : Answer :=
  (readClass .immediate (zext p) 2 false unchecked ldxEffect s).outcome

/-- `LDX $nn` (0xA6): R231, ZERO_PAGE (R165). -/
def execLdxZp (p : Byte) (s : State) : Answer :=
  (readClass .zeroPage (zext p) 3 false unchecked ldxEffect s).outcome

/-- `LDX $nnnn` (0xAE): R231, ABSOLUTE (R167). -/
def execLdxAbs (p : Word) (s : State) : Answer :=
  (readClass .absolute p 4 false unchecked ldxEffect s).outcome

/-- `LDX $nn,Y` (0xB6): R231, INDEXED_ZERO_PAGE_Y (R166). -/
def execLdxZpY (p : Byte) (s : State) : Answer :=
  (readClass .indexedZeroPageY (zext p) 4 false unchecked ldxEffect s).outcome

/-- `LDX $nnnn,Y` (0xBE): R231, INDEXED_ABSOLUTE_Y (R168). -/
def execLdxAbsY (p : Word) (s : State) : Answer :=
  (readClass .indexedAbsoluteY p 4 true unchecked ldxEffect s).outcome

/-- `LDY #$nn` (0xA0): R232, IMMEDIATE (R164). -/
def execLdyImm (p : Byte) (s : State) : Answer :=
  (readClass .immediate (zext p) 2 false unchecked ldyEffect s).outcome

/-- `LDY $nn` (0xA4): R232, ZERO_PAGE (R165). -/
def execLdyZp (p : Byte) (s : State) : Answer :=
  (readClass .zeroPage (zext p) 3 false unchecked ldyEffect s).outcome

/-- `LDY $nnnn` (0xAC): R232, ABSOLUTE (R167). -/
def execLdyAbs (p : Word) (s : State) : Answer :=
  (readClass .absolute p 4 false unchecked ldyEffect s).outcome

/-- `LDY $nn,X` (0xB4): R232, INDEXED_ZERO_PAGE_X (R166). -/
def execLdyZpX (p : Byte) (s : State) : Answer :=
  (readClass .indexedZeroPageX (zext p) 4 false unchecked ldyEffect s).outcome

/-- `LDY $nnnn,X` (0xBC): R232, INDEXED_ABSOLUTE_X (R168). -/
def execLdyAbsX (p : Word) (s : State) : Answer :=
  (readClass .indexedAbsoluteX p 4 true unchecked ldyEffect s).outcome

/-- `STA ($nn,X)` (0x81): R233, INDEXED_INDIRECT_X (R170). -/
def execStaIndX (p : Byte) (s : State) : Answer :=
  (writeClass .indexedIndirectX (zext p) 6 State.A s).outcome

/-- `STA $nn` (0x85): R233, ZERO_PAGE (R165). -/
def execStaZp (p : Byte) (s : State) : Answer :=
  (writeClass .zeroPage (zext p) 3 State.A s).outcome

/-- `STA $nnnn` (0x8D): R233, ABSOLUTE (R167). -/
def execStaAbs (p : Word) (s : State) : Answer :=
  (writeClass .absolute p 4 State.A s).outcome

/-- `STA ($nn),Y` (0x91): R233, INDEXED_INDIRECT_Y (R171). -/
def execStaIndY (p : Byte) (s : State) : Answer :=
  (writeClass .indexedIndirectY (zext p) 6 State.A s).outcome

/-- `STA $nn,X` (0x95): R233, INDEXED_ZERO_PAGE_X (R166). -/
def execStaZpX (p : Byte) (s : State) : Answer :=
  (writeClass .indexedZeroPageX (zext p) 4 State.A s).outcome

/-- `STA $nnnn,Y` (0x99): R233, INDEXED_ABSOLUTE_Y (R168). -/
def execStaAbsY (p : Word) (s : State) : Answer :=
  (writeClass .indexedAbsoluteY p 5 State.A s).outcome

/-- `STA $nnnn,X` (0x9D): R233, INDEXED_ABSOLUTE_X (R168). -/
def execStaAbsX (p : Word) (s : State) : Answer :=
  (writeClass .indexedAbsoluteX p 5 State.A s).outcome

/-- `STX $nn` (0x86): R234, ZERO_PAGE (R165). -/
def execStxZp (p : Byte) (s : State) : Answer :=
  (writeClass .zeroPage (zext p) 3 State.X s).outcome

/-- `STX $nnnn` (0x8E): R234, ABSOLUTE (R167). -/
def execStxAbs (p : Word) (s : State) : Answer :=
  (writeClass .absolute p 4 State.X s).outcome

/-- `STX $nn,Y` (0x96): R234, INDEXED_ZERO_PAGE_Y (R166). -/
def execStxZpY (p : Byte) (s : State) : Answer :=
  (writeClass .indexedZeroPageY (zext p) 4 State.X s).outcome

/-- `STY $nn` (0x84): R235, ZERO_PAGE (R165). -/
def execStyZp (p : Byte) (s : State) : Answer :=
  (writeClass .zeroPage (zext p) 3 State.Y s).outcome

/-- `STY $nnnn` (0x8C): R235, ABSOLUTE (R167). -/
def execStyAbs (p : Word) (s : State) : Answer :=
  (writeClass .absolute p 4 State.Y s).outcome

/-- `STY $nn,X` (0x94): R235, INDEXED_ZERO_PAGE_X (R166). -/
def execStyZpX (p : Byte) (s : State) : Answer :=
  (writeClass .indexedZeroPageX (zext p) 4 State.Y s).outcome

/-- `TAX` (0xAA): R236, IMPLICIT (R162). -/
def execTax (s : State) : Answer :=
  (implClass 2 taxEffect s).outcome

/-- `TAY` (0xA8): R237, IMPLICIT (R162). -/
def execTay (s : State) : Answer :=
  (implClass 2 tayEffect s).outcome

/-- `TXA` (0x8A): R238, IMPLICIT (R162). -/
def execTxa (s : State) : Answer :=
  (implClass 2 txaEffect s).outcome

/-- `TYA` (0x98): R239, IMPLICIT (R162). -/
def execTya (s : State) : Answer :=
  (implClass 2 tyaEffect s).outcome

/-- `TSX` (0xBA): R240, IMPLICIT (R162). -/
def execTsx (s : State) : Answer :=
  (implClass 2 tsxEffect s).outcome

/-- `TXS` (0x9A): R241, IMPLICIT (R162). -/
def execTxs (s : State) : Answer :=
  (implClass 2 txsEffect s).outcome

end Sys2Proof.Machine
end

