-- ==== Sys2Proof/Machine/Shift.lean ====
section
/-! DEFINITION. Shift and rotate instructions (file 45 of spec/, R270 to R274).
The effect of each mnemonic, then one meaning per instruction. -/

namespace Sys2Proof.Machine

/-- What the four operations share: write C, then SetZN of the result (R271 to R274). -/
def shiftFlags (c : Bool) (r : Byte) (s : State) : State :=
  { s with flags := { s.flags with C := c } }.setZN r

/-- ASL: bit 7 leaves into C, bit 0 of the result is 0 (R271). -/
def aslEffect (v : Byte) (s : State) : Byte × State :=
  let r := v <<< 1
  (r, shiftFlags (v.getLsbD 7) r s)

/-- LSR: bit 0 leaves into C, bit 7 of the result is 0 (R272). -/
def lsrEffect (v : Byte) (s : State) : Byte × State :=
  let r := v >>> 1
  (r, shiftFlags (v.getLsbD 0) r s)

/-- ROL: the old C enters bit 0, bit 7 leaves into C (R273). -/
def rolEffect (v : Byte) (s : State) : Byte × State :=
  let r := (v <<< 1) ||| (BitVec.ofBool s.flags.C).setWidth 8
  (r, shiftFlags (v.getLsbD 7) r s)

/-- ROR: the old C enters bit 7, bit 0 leaves into C (R274). -/
def rorEffect (v : Byte) (s : State) : Byte × State :=
  let r := (v >>> 1) ||| ((BitVec.ofBool s.flags.C).setWidth 8 <<< 7)
  (r, shiftFlags (v.getLsbD 0) r s)

/-- `ASL $nn` (0x06): R271, ZERO_PAGE (R165). -/
def execAslZp (p : Byte) (s : State) : Answer :=
  (rmwClass .zeroPage (zext p) 5 aslEffect s).outcome

/-- `ASL A` (0x0A): R271, ACCUMULATOR (R163). -/
def execAslA (s : State) : Answer :=
  (rmwClass .accumulator 0 2 aslEffect s).outcome

/-- `ASL $nnnn` (0x0E): R271, ABSOLUTE (R167). -/
def execAslAbs (p : Word) (s : State) : Answer :=
  (rmwClass .absolute p 6 aslEffect s).outcome

/-- `ASL $nn,X` (0x16): R271, INDEXED_ZERO_PAGE_X (R166). -/
def execAslZpX (p : Byte) (s : State) : Answer :=
  (rmwClass .indexedZeroPageX (zext p) 6 aslEffect s).outcome

/-- `ASL $nnnn,X` (0x1E): R271, INDEXED_ABSOLUTE_X (R168). -/
def execAslAbsX (p : Word) (s : State) : Answer :=
  (rmwClass .indexedAbsoluteX p 7 aslEffect s).outcome

/-- `LSR $nn` (0x46): R272, ZERO_PAGE (R165). -/
def execLsrZp (p : Byte) (s : State) : Answer :=
  (rmwClass .zeroPage (zext p) 5 lsrEffect s).outcome

/-- `LSR A` (0x4A): R272, ACCUMULATOR (R163). -/
def execLsrA (s : State) : Answer :=
  (rmwClass .accumulator 0 2 lsrEffect s).outcome

/-- `LSR $nnnn` (0x4E): R272, ABSOLUTE (R167). -/
def execLsrAbs (p : Word) (s : State) : Answer :=
  (rmwClass .absolute p 6 lsrEffect s).outcome

/-- `LSR $nn,X` (0x56): R272, INDEXED_ZERO_PAGE_X (R166). -/
def execLsrZpX (p : Byte) (s : State) : Answer :=
  (rmwClass .indexedZeroPageX (zext p) 6 lsrEffect s).outcome

/-- `LSR $nnnn,X` (0x5E): R272, INDEXED_ABSOLUTE_X (R168). -/
def execLsrAbsX (p : Word) (s : State) : Answer :=
  (rmwClass .indexedAbsoluteX p 7 lsrEffect s).outcome

/-- `ROL $nn` (0x26): R273, ZERO_PAGE (R165). -/
def execRolZp (p : Byte) (s : State) : Answer :=
  (rmwClass .zeroPage (zext p) 5 rolEffect s).outcome

/-- `ROL A` (0x2A): R273, ACCUMULATOR (R163). -/
def execRolA (s : State) : Answer :=
  (rmwClass .accumulator 0 2 rolEffect s).outcome

/-- `ROL $nnnn` (0x2E): R273, ABSOLUTE (R167). -/
def execRolAbs (p : Word) (s : State) : Answer :=
  (rmwClass .absolute p 6 rolEffect s).outcome

/-- `ROL $nn,X` (0x36): R273, INDEXED_ZERO_PAGE_X (R166). -/
def execRolZpX (p : Byte) (s : State) : Answer :=
  (rmwClass .indexedZeroPageX (zext p) 6 rolEffect s).outcome

/-- `ROL $nnnn,X` (0x3E): R273, INDEXED_ABSOLUTE_X (R168). -/
def execRolAbsX (p : Word) (s : State) : Answer :=
  (rmwClass .indexedAbsoluteX p 7 rolEffect s).outcome

/-- `ROR $nn` (0x66): R274, ZERO_PAGE (R165). -/
def execRorZp (p : Byte) (s : State) : Answer :=
  (rmwClass .zeroPage (zext p) 5 rorEffect s).outcome

/-- `ROR A` (0x6A): R274, ACCUMULATOR (R163). -/
def execRorA (s : State) : Answer :=
  (rmwClass .accumulator 0 2 rorEffect s).outcome

/-- `ROR $nnnn` (0x6E): R274, ABSOLUTE (R167). -/
def execRorAbs (p : Word) (s : State) : Answer :=
  (rmwClass .absolute p 6 rorEffect s).outcome

/-- `ROR $nn,X` (0x76): R274, INDEXED_ZERO_PAGE_X (R166). -/
def execRorZpX (p : Byte) (s : State) : Answer :=
  (rmwClass .indexedZeroPageX (zext p) 6 rorEffect s).outcome

/-- `ROR $nnnn,X` (0x7E): R274, INDEXED_ABSOLUTE_X (R168). -/
def execRorAbsX (p : Word) (s : State) : Answer :=
  (rmwClass .indexedAbsoluteX p 7 rorEffect s).outcome

end Sys2Proof.Machine
end

