-- ==== Sys2Proof/Machine/Stack.lean ====
section
/-! DEFINITION. Stack instructions (file 46 of spec/, R280 to R283).
The effect of each mnemonic, then one meaning per instruction. -/

namespace Sys2Proof.Machine

/-- The effect of PHA: `Push(A)` (R280). -/
def phaEffect (s : State) : Res Unit := push s.A s

/-- The effect of PHP: `Push(toByte() | 0x30)` (R281, D7). -/
def phpEffect (s : State) : Res Unit := push s.flags.pushedByProgram s

/-- The effect of PLA: `A <- Pull(); SetZN(A)` (R282). -/
def plaEffect (s : State) : Res Unit :=
  (pull s).andThen fun v s => .ok () ({ s with A := v }.setZN v)

/-- The effect of PLP: six flags from the pulled byte, B1 and B2 kept (R283, D7). -/
def plpEffect (s : State) : Res Unit :=
  (pull s).andThen fun b s => .ok () { s with flags := s.flags.pulled b }

/-- `PHA` (0x48): R280, IMPLICIT (R162). -/
def execPha (s : State) : Answer :=
  (stackClass 3 phaEffect s).outcome

/-- `PHP` (0x08): R281, IMPLICIT (R162). -/
def execPhp (s : State) : Answer :=
  (stackClass 3 phpEffect s).outcome

/-- `PLA` (0x68): R282, IMPLICIT (R162). -/
def execPla (s : State) : Answer :=
  (stackClass 4 plaEffect s).outcome

/-- `PLP` (0x28): R283, IMPLICIT (R162). -/
def execPlp (s : State) : Answer :=
  (stackClass 4 plpEffect s).outcome

end Sys2Proof.Machine
end

