-- ==== Sys2Proof/Machine/Dispatch.lean ====
section
/-! DEFINITION. The dispatch: one arm per constructor of `Instr`, each one call of its meaning (R195). -/

namespace Sys2Proof.Machine

/-- Resolve, Execute and Account of one instruction, in the state Read Operand leaves (R194 to R196). -/
def exec (i : Instr) (s : State) : Host.Outcome State Fault Refusal :=
  match i with
  | .brk => Sys2Proof.Machine.execBrk s
  | .oraIndX p => Sys2Proof.Machine.execOraIndX p s
  | .oraZp p => Sys2Proof.Machine.execOraZp p s
  | .aslZp p => Sys2Proof.Machine.execAslZp p s
  | .php => Sys2Proof.Machine.execPhp s
  | .oraImm p => Sys2Proof.Machine.execOraImm p s
  | .aslA => Sys2Proof.Machine.execAslA s
  | .oraAbs p => Sys2Proof.Machine.execOraAbs p s
  | .aslAbs p => Sys2Proof.Machine.execAslAbs p s
  | .bpl p => Sys2Proof.Machine.execBpl p s
  | .oraIndY p => Sys2Proof.Machine.execOraIndY p s
  | .oraZpX p => Sys2Proof.Machine.execOraZpX p s
  | .aslZpX p => Sys2Proof.Machine.execAslZpX p s
  | .clc => Sys2Proof.Machine.execClc s
  | .oraAbsY p => Sys2Proof.Machine.execOraAbsY p s
  | .oraAbsX p => Sys2Proof.Machine.execOraAbsX p s
  | .aslAbsX p => Sys2Proof.Machine.execAslAbsX p s
  | .jsrAbs p => Sys2Proof.Machine.execJsrAbs p s
  | .andIndX p => Sys2Proof.Machine.execAndIndX p s
  | .bitZp p => Sys2Proof.Machine.execBitZp p s
  | .andZp p => Sys2Proof.Machine.execAndZp p s
  | .rolZp p => Sys2Proof.Machine.execRolZp p s
  | .plp => Sys2Proof.Machine.execPlp s
  | .andImm p => Sys2Proof.Machine.execAndImm p s
  | .rolA => Sys2Proof.Machine.execRolA s
  | .bitAbs p => Sys2Proof.Machine.execBitAbs p s
  | .andAbs p => Sys2Proof.Machine.execAndAbs p s
  | .rolAbs p => Sys2Proof.Machine.execRolAbs p s
  | .bmi p => Sys2Proof.Machine.execBmi p s
  | .andIndY p => Sys2Proof.Machine.execAndIndY p s
  | .andZpX p => Sys2Proof.Machine.execAndZpX p s
  | .rolZpX p => Sys2Proof.Machine.execRolZpX p s
  | .sec => Sys2Proof.Machine.execSec s
  | .andAbsY p => Sys2Proof.Machine.execAndAbsY p s
  | .andAbsX p => Sys2Proof.Machine.execAndAbsX p s
  | .rolAbsX p => Sys2Proof.Machine.execRolAbsX p s
  | .rti => Sys2Proof.Machine.execRti s
  | .eorIndX p => Sys2Proof.Machine.execEorIndX p s
  | .eorZp p => Sys2Proof.Machine.execEorZp p s
  | .lsrZp p => Sys2Proof.Machine.execLsrZp p s
  | .pha => Sys2Proof.Machine.execPha s
  | .eorImm p => Sys2Proof.Machine.execEorImm p s
  | .lsrA => Sys2Proof.Machine.execLsrA s
  | .jmpAbs p => Sys2Proof.Machine.execJmpAbs p s
  | .eorAbs p => Sys2Proof.Machine.execEorAbs p s
  | .lsrAbs p => Sys2Proof.Machine.execLsrAbs p s
  | .bvc p => Sys2Proof.Machine.execBvc p s
  | .eorIndY p => Sys2Proof.Machine.execEorIndY p s
  | .eorZpX p => Sys2Proof.Machine.execEorZpX p s
  | .lsrZpX p => Sys2Proof.Machine.execLsrZpX p s
  | .cli => Sys2Proof.Machine.execCli s
  | .eorAbsY p => Sys2Proof.Machine.execEorAbsY p s
  | .eorAbsX p => Sys2Proof.Machine.execEorAbsX p s
  | .lsrAbsX p => Sys2Proof.Machine.execLsrAbsX p s
  | .rts => Sys2Proof.Machine.execRts s
  | .adcIndX p => Sys2Proof.Machine.execAdcIndX p s
  | .adcZp p => Sys2Proof.Machine.execAdcZp p s
  | .rorZp p => Sys2Proof.Machine.execRorZp p s
  | .pla => Sys2Proof.Machine.execPla s
  | .adcImm p => Sys2Proof.Machine.execAdcImm p s
  | .rorA => Sys2Proof.Machine.execRorA s
  | .jmpInd p => Sys2Proof.Machine.execJmpInd p s
  | .adcAbs p => Sys2Proof.Machine.execAdcAbs p s
  | .rorAbs p => Sys2Proof.Machine.execRorAbs p s
  | .bvs p => Sys2Proof.Machine.execBvs p s
  | .adcIndY p => Sys2Proof.Machine.execAdcIndY p s
  | .adcZpX p => Sys2Proof.Machine.execAdcZpX p s
  | .rorZpX p => Sys2Proof.Machine.execRorZpX p s
  | .sei => Sys2Proof.Machine.execSei s
  | .adcAbsY p => Sys2Proof.Machine.execAdcAbsY p s
  | .adcAbsX p => Sys2Proof.Machine.execAdcAbsX p s
  | .rorAbsX p => Sys2Proof.Machine.execRorAbsX p s
  | .staIndX p => Sys2Proof.Machine.execStaIndX p s
  | .styZp p => Sys2Proof.Machine.execStyZp p s
  | .staZp p => Sys2Proof.Machine.execStaZp p s
  | .stxZp p => Sys2Proof.Machine.execStxZp p s
  | .dey => Sys2Proof.Machine.execDey s
  | .txa => Sys2Proof.Machine.execTxa s
  | .styAbs p => Sys2Proof.Machine.execStyAbs p s
  | .staAbs p => Sys2Proof.Machine.execStaAbs p s
  | .stxAbs p => Sys2Proof.Machine.execStxAbs p s
  | .bcc p => Sys2Proof.Machine.execBcc p s
  | .staIndY p => Sys2Proof.Machine.execStaIndY p s
  | .styZpX p => Sys2Proof.Machine.execStyZpX p s
  | .staZpX p => Sys2Proof.Machine.execStaZpX p s
  | .stxZpY p => Sys2Proof.Machine.execStxZpY p s
  | .tya => Sys2Proof.Machine.execTya s
  | .staAbsY p => Sys2Proof.Machine.execStaAbsY p s
  | .txs => Sys2Proof.Machine.execTxs s
  | .staAbsX p => Sys2Proof.Machine.execStaAbsX p s
  | .ldyImm p => Sys2Proof.Machine.execLdyImm p s
  | .ldaIndX p => Sys2Proof.Machine.execLdaIndX p s
  | .ldxImm p => Sys2Proof.Machine.execLdxImm p s
  | .ldyZp p => Sys2Proof.Machine.execLdyZp p s
  | .ldaZp p => Sys2Proof.Machine.execLdaZp p s
  | .ldxZp p => Sys2Proof.Machine.execLdxZp p s
  | .tay => Sys2Proof.Machine.execTay s
  | .ldaImm p => Sys2Proof.Machine.execLdaImm p s
  | .tax => Sys2Proof.Machine.execTax s
  | .ldyAbs p => Sys2Proof.Machine.execLdyAbs p s
  | .ldaAbs p => Sys2Proof.Machine.execLdaAbs p s
  | .ldxAbs p => Sys2Proof.Machine.execLdxAbs p s
  | .bcs p => Sys2Proof.Machine.execBcs p s
  | .ldaIndY p => Sys2Proof.Machine.execLdaIndY p s
  | .ldyZpX p => Sys2Proof.Machine.execLdyZpX p s
  | .ldaZpX p => Sys2Proof.Machine.execLdaZpX p s
  | .ldxZpY p => Sys2Proof.Machine.execLdxZpY p s
  | .clv => Sys2Proof.Machine.execClv s
  | .ldaAbsY p => Sys2Proof.Machine.execLdaAbsY p s
  | .tsx => Sys2Proof.Machine.execTsx s
  | .ldyAbsX p => Sys2Proof.Machine.execLdyAbsX p s
  | .ldaAbsX p => Sys2Proof.Machine.execLdaAbsX p s
  | .ldxAbsY p => Sys2Proof.Machine.execLdxAbsY p s
  | .cpyImm p => Sys2Proof.Machine.execCpyImm p s
  | .cmpIndX p => Sys2Proof.Machine.execCmpIndX p s
  | .cpyZp p => Sys2Proof.Machine.execCpyZp p s
  | .cmpZp p => Sys2Proof.Machine.execCmpZp p s
  | .decZp p => Sys2Proof.Machine.execDecZp p s
  | .iny => Sys2Proof.Machine.execIny s
  | .cmpImm p => Sys2Proof.Machine.execCmpImm p s
  | .dex => Sys2Proof.Machine.execDex s
  | .cpyAbs p => Sys2Proof.Machine.execCpyAbs p s
  | .cmpAbs p => Sys2Proof.Machine.execCmpAbs p s
  | .decAbs p => Sys2Proof.Machine.execDecAbs p s
  | .bne p => Sys2Proof.Machine.execBne p s
  | .cmpIndY p => Sys2Proof.Machine.execCmpIndY p s
  | .cmpZpX p => Sys2Proof.Machine.execCmpZpX p s
  | .decZpX p => Sys2Proof.Machine.execDecZpX p s
  | .cld => Sys2Proof.Machine.execCld s
  | .cmpAbsY p => Sys2Proof.Machine.execCmpAbsY p s
  | .cmpAbsX p => Sys2Proof.Machine.execCmpAbsX p s
  | .decAbsX p => Sys2Proof.Machine.execDecAbsX p s
  | .cpxImm p => Sys2Proof.Machine.execCpxImm p s
  | .sbcIndX p => Sys2Proof.Machine.execSbcIndX p s
  | .cpxZp p => Sys2Proof.Machine.execCpxZp p s
  | .sbcZp p => Sys2Proof.Machine.execSbcZp p s
  | .incZp p => Sys2Proof.Machine.execIncZp p s
  | .inx => Sys2Proof.Machine.execInx s
  | .sbcImm p => Sys2Proof.Machine.execSbcImm p s
  | .nop => Sys2Proof.Machine.execNop s
  | .cpxAbs p => Sys2Proof.Machine.execCpxAbs p s
  | .sbcAbs p => Sys2Proof.Machine.execSbcAbs p s
  | .incAbs p => Sys2Proof.Machine.execIncAbs p s
  | .beq p => Sys2Proof.Machine.execBeq p s
  | .sbcIndY p => Sys2Proof.Machine.execSbcIndY p s
  | .sbcZpX p => Sys2Proof.Machine.execSbcZpX p s
  | .incZpX p => Sys2Proof.Machine.execIncZpX p s
  | .sed => Sys2Proof.Machine.execSed s
  | .sbcAbsY p => Sys2Proof.Machine.execSbcAbsY p s
  | .sbcAbsX p => Sys2Proof.Machine.execSbcAbsX p s
  | .incAbsX p => Sys2Proof.Machine.execIncAbsX p s

end Sys2Proof.Machine
end

