-- ==== Sys2Proof/Machine/Step.lean ====
section
/-! DEFINITION. One step of the machine (R190), and the state in which the next step runs a given
instruction. -/

namespace Sys2Proof.Machine

/-- `step()` (R190): refused before any reset (R350, D27); stuck while the fault record is not empty
(R326); else Fetch, Decode and Read Operand (`fetch`), then Resolve, Execute and Account (`exec`). -/
def step (s : State) : Host.Outcome State Fault Refusal :=
  if s.resetMade then
    match s.fault with
    | some e => .fault (.raised e s.bus)
    | none =>
      match fetch s with
      | .ok i s => exec i s
      | .err e s => .fault (.raised e s.bus)
  else .refused .neverReset

/-- The state with an instruction, given by its table bits, where `step` fetches its next instruction,
and the step enabled. Log entry 9. -/
def State.withFetchWord (s : State) (nbits w : Nat) : State :=
  ({ s with resetMade := true, fault := none } : State).placeBytes s.PC (tableBytes nbits w)

end Sys2Proof.Machine
end

