-- ==== Sys2Proof/Machine/Session.lean ====
section
/-! DEFINITION. What the host does to the core between steps (R350, R53): `defineChunks` (R82), the
power-on reset (R351), register and flag access (R53), the reference interrupt entry (R330), direct bus
access (R321), and what a session holds after a step that raised an error (R200, R326, R327). -/

namespace Sys2Proof.Machine

/-! ## The fault record -/

/-- The state after an error (R200, R326, R327): the error recorded, the bus as the accesses made before
the failing one left it, the registers, flags and CYC unspecified (free values, log entry 6). -/
def State.recordError (e : CoreError) (left : Bus) (s : State) : State :=
  { s with
    A := Config.freeByte s.free, X := Config.freeByte (s.free + 1),
    Y := Config.freeByte (s.free + 2), SP := Config.freeByte (s.free + 3),
    flags := Flags.load (Config.freeByte (s.free + 4)),
    PC := Config.freeWord s.free, CYC := Config.freeNat s.free,
    bus := left, fault := some e, free := s.free + 5 }

/-- What the session holds after a host procedure that may raise an error. -/
def Res.settle (r : Res Unit) : State :=
  match r with
  | .ok _ s => s
  | .err e s => s.recordError e s.bus

/-- What the session holds after `step()`: the next state, or the error recorded (R200); nothing changes
while the core is stuck (R326) or before any reset (R350). -/
def sessionStep (s : State) : State :=
  match step s with
  | .next s' => s'
  | .fault (.raised e left) => if s.fault.isSome then s else s.recordError e left
  | .refused _ => s

/-! ## A fresh core and the reset -/

/-- A fresh core (R350): undefined bus configuration, empty fault record, every register unspecified
(free values), no reset made. -/
def State.fresh (p : Params) : State :=
  { A := Config.freeByte 0, X := Config.freeByte 1, Y := Config.freeByte 2, SP := Config.freeByte 3,
    PC := Config.freeWord 0, CYC := Config.freeNat 0, flags := Flags.load (Config.freeByte 4),
    bus := { chunks := none, mem := [], io := [] }, fault := none, resetMade := false, params := p,
    free := 5 }

/-- The power-on reset procedure (R351): the registers in the order written, then PC by `P_ENTRY`. Bus
configuration and chunk contents are kept. -/
def powerOnReset (s : State) : Res Unit :=
  let s1 : State :=
    { s with fault := none, A := s.params.aReset, X := s.params.xReset, Y := s.params.yReset,
             SP := 0xFD, flags := Flags.load 0x24, CYC := 7, resetMade := true }
  match s1.params.entry with
  | .vector => (read16 resetVector s1).andThen fun pc s => .ok () { s with PC := pc }
  | .host pc => .ok () { s1 with PC := pc }

/-- `defineChunks(list)` (R82): the list replaces the configuration; one that breaks R81 is refused and
the old configuration stays (`none`: the call fails). -/
def defineChunks (cs : List Chunk) (s : State) : Option State :=
  if chunksWf cs then some { s with bus := { s.bus with chunks := some cs } } else none

/-! ## Interrupts (R329, R330) -/

/-- The kinds of interrupt a host delivers. -/
inductive Interrupt where
  | nmi
  | irq
  deriving DecidableEq, Repr

/-- `EnterInterrupt(k)` (R330): IRQ is masked by I, NMI is not; then the trap entry with PC as the
return address and bit 4 of the pushed status 0, and 7 cycles. -/
def enterInterrupt (k : Interrupt) (s : State) : Res Unit :=
  if k = .irq ∧ s.flags.I = true then .ok () s
  else
    (enterTrap s.PC s.flags.pushedByInterrupt (if k = .nmi then nmiVector else irqVector) s).andThen
      fun _ s => .ok () (s.account 7)

/-- What the host holds pending at a boundary between steps: the reset, an NMI edge not yet entered, the
IRQ level (R330, D18). It is the host's, not the core's (R329). -/
structure Pending where
  reset : Bool
  nmiEdge : Bool
  irqLevel : Bool
  deriving DecidableEq, Repr

/-- One boundary (R330): reset over NMI over IRQ; an NMI is entered once per edge, an IRQ is looked at
again at every boundary while its level is held. -/
def atBoundary (p : Pending) (s : State) : Res Unit × Pending :=
  if p.reset then (powerOnReset s, { p with reset := false })
  else if p.nmiEdge then (enterInterrupt .nmi s, { p with nmiEdge := false })
  else if p.irqLevel then (enterInterrupt .irq s, p)
  else (.ok () s, p)

/-! ## Host access to registers and flags (R53) -/

/-- A flag the host writes by name (R53). B1 and B2 have no write by name: `load` alone writes them (R45,
D7). Log entry 22. -/
inductive FlagName where
  | N | V | D | I | Z | C
  deriving DecidableEq, Repr

/-- Write one flag by name (R53). -/
def Flags.put (n : FlagName) (v : Bool) (f : Flags) : Flags :=
  match n with
  | .N => { f with N := v }
  | .V => { f with V := v }
  | .D => { f with D := v }
  | .I => { f with I := v }
  | .Z => { f with Z := v }
  | .C => { f with C := v }

/-- A host write to a register, the flags register or CYC (R53, R352). `updateZN` is the helper of
R42. -/
inductive HostWrite where
  | a (v : Byte)
  | x (v : Byte)
  | y (v : Byte)
  | sp (v : Byte)
  | pc (v : Word)
  | cyc (v : Nat)
  | loadFlags (b : Byte)
  | flag (n : FlagName) (v : Bool)
  | updateZN (r : Byte)
  deriving DecidableEq, Repr

/-- Apply a host write (R53). -/
def hostWrite (w : HostWrite) (s : State) : State :=
  match w with
  | .a v => { s with A := v }
  | .x v => { s with X := v }
  | .y v => { s with Y := v }
  | .sp v => { s with SP := v }
  | .pc v => { s with PC := v }
  | .cyc v => { s with CYC := v }
  | .loadFlags b => { s with flags := Flags.load b }
  | .flag n v => { s with flags := s.flags.put n v }
  | .updateZN r => { s with flags := s.flags.updateZeroAndNegative r }

/-! ## A session (R350) -/

/-- What can happen to the core, each between steps: the host operations of R350, the interrupt entry
of R330, direct bus access (R321) and an event outside the core at a device chunk (R336). -/
inductive HostOp where
  | defineChunks (cs : List Chunk)
  | reset
  | write (w : HostWrite)
  | interrupt (k : Interrupt)
  | busRead (a : Word)
  | busWrite (a : Word) (v : Byte)
  | deviceEvent (device input : Nat)
  | step
  deriving DecidableEq, Repr

/-- The state after a host operation. A refused `defineChunks` changes nothing (R82); an error of a
direct bus access goes to the host and changes nothing (log entry 8); every other error is recorded
(R326, R351, R330). -/
def hostOp (o : HostOp) (s : State) : State :=
  match o with
  | .defineChunks cs => (defineChunks cs s).getD s
  | .reset => (powerOnReset s).settle
  | .write w => hostWrite w s
  | .interrupt k => (enterInterrupt k s).settle
  | .busRead a =>
    match memRead a s with
    | .ok _ s' => s'
    | .err _ _ => s
  | .busWrite a v =>
    match memWrite a v s with
    | .ok _ s' => s'
    | .err _ _ => s
  | .deviceEvent d n => { s with bus := { s.bus with io := .outside d n :: s.bus.io } }
  | .step => sessionStep s

end Sys2Proof.Machine
end

