-- ==== Sys2Proof/Machine/Trace.lean ====
section
/-! DEFINITION. The trace record of a step (R202) and the assembler form of an instruction (R138, R140).
Neither is state (R52). -/

namespace Sys2Proof.Machine

/-- The record of a successful step (R202). -/
structure TraceRecord where
  pcFetch : Word
  mnemonic : Mnemonic
  mode : Mode
  raw : Option Word
  resolved : Option Word
  deriving DecidableEq, Repr

/-- The resolved parameter (R202, D20), in the state Read Operand leaves. -/
def resolvedParameter (i : Instr) (s : State) : Option Word :=
  match i.mode with
  | .implicit | .accumulator => none
  | .immediate => some i.param
  | m =>
    match resolve m i.param s with
    | .ok r _ => r.ea
    | .err _ _ => none

/-- The raw parameter: none where the mode has no parameter byte (R202). -/
def rawParameter (i : Instr) : Option Word :=
  if i.mode.parameterSize = 0 then none else some i.param

/-- The trace record of the step a state would make; none for a step that fails or is not enabled
(R202). -/
def stepTrace (s : State) : Option TraceRecord :=
  match step s, fetch s with
  | .next _, .ok i s1 =>
    some { pcFetch := s.PC, mnemonic := i.mnemonic, mode := i.mode, raw := rawParameter i,
           resolved := resolvedParameter i s1 }
  | _, _ => none

/-- `step()` with both outcomes of R190: the state' and the trace, or the error. -/
def stepWithTrace (s : State) : Host.Outcome (State × Option TraceRecord) Fault Refusal :=
  match step s with
  | .next s' => .next (s', stepTrace s)
  | .fault f => .fault f
  | .refused r => .refused r

/-! ## Assembler form (R138) -/

/-- One hexadecimal digit, capital letters. -/
def hexDigit (n : Nat) : String := ((["0", "1", "2", "3", "4", "5", "6", "7", "8", "9", "A", "B", "C", "D",
  "E", "F"] : List String)[n % 16]?).getD "0"

/-- A byte as two hexadecimal digits. -/
def hexByte (b : Byte) : String := hexDigit (b.toNat / 16) ++ hexDigit b.toNat

/-- A word as four hexadecimal digits. -/
def hexWord (w : Word) : String := hexByte (hi w) ++ hexByte (lo w)

/-- The mnemonic as it is written (R138). -/
def Mnemonic.text : Mnemonic → String
  | .cmp => "CMP"
  | .cpx => "CPX"
  | .cpy => "CPY"
  | .bit => "BIT"
  | .lda => "LDA"
  | .ldx => "LDX"
  | .ldy => "LDY"
  | .sta => "STA"
  | .stx => "STX"
  | .sty => "STY"
  | .tax => "TAX"
  | .tay => "TAY"
  | .txa => "TXA"
  | .tya => "TYA"
  | .tsx => "TSX"
  | .txs => "TXS"
  | .adc => "ADC"
  | .sbc => "SBC"
  | .and => "AND"
  | .ora => "ORA"
  | .eor => "EOR"
  | .inc => "INC"
  | .dec => "DEC"
  | .inx => "INX"
  | .iny => "INY"
  | .dex => "DEX"
  | .dey => "DEY"
  | .asl => "ASL"
  | .lsr => "LSR"
  | .rol => "ROL"
  | .ror => "ROR"
  | .pha => "PHA"
  | .php => "PHP"
  | .pla => "PLA"
  | .plp => "PLP"
  | .jmp => "JMP"
  | .jsr => "JSR"
  | .rts => "RTS"
  | .brk => "BRK"
  | .rti => "RTI"
  | .bcc => "BCC"
  | .bcs => "BCS"
  | .beq => "BEQ"
  | .bmi => "BMI"
  | .bne => "BNE"
  | .bpl => "BPL"
  | .bvc => "BVC"
  | .bvs => "BVS"
  | .clc => "CLC"
  | .cld => "CLD"
  | .cli => "CLI"
  | .clv => "CLV"
  | .sec => "SEC"
  | .sed => "SED"
  | .sei => "SEI"
  | .nop => "NOP"

/-- The operand form of each mode (R138); `target` is the address a RELATIVE operand names. -/
def operandText (m : Mode) (param target : Word) : String :=
  match m with
  | .implicit => ""
  | .accumulator => " A"
  | .immediate => " #$" ++ hexByte (lo param)
  | .zeroPage => " $" ++ hexByte (lo param)
  | .indexedZeroPageX => " $" ++ hexByte (lo param) ++ ",X"
  | .indexedZeroPageY => " $" ++ hexByte (lo param) ++ ",Y"
  | .absolute => " $" ++ hexWord param
  | .indexedAbsoluteX => " $" ++ hexWord param ++ ",X"
  | .indexedAbsoluteY => " $" ++ hexWord param ++ ",Y"
  | .indirect => " ($" ++ hexWord param ++ ")"
  | .indexedIndirectX => " ($" ++ hexByte (lo param) ++ ",X)"
  | .indexedIndirectY => " ($" ++ hexByte (lo param) ++ "),Y"
  | .relative => " $" ++ hexWord target

/-- An instruction at an address, as the assembler writes it (R138). -/
def assemblyText (i : Instr) (address : Word) : String :=
  Mnemonic.text i.mnemonic ++
    operandText i.mode i.param (address + BitVec.ofNat 16 i.length + sext (lo i.param))

/-- The offset byte of a branch at an address to a target: `target − (address + 2)`, which must lie in
−128..127 (R138). R138 names no width; the difference is taken modulo 65536, as the branch itself wraps
(R172), so a branch at 0xFFF0 to 0x0071 has the offset 0x7F. DESIGN CHOICE, log entry 21. -/
def branchOffset (address target : Word) : Option Byte :=
  let d := target - (address + 2)
  if sext (lo d) = d then some (lo d) else none

/-- The opcode row of a mnemonic in a mode, if the table has one. -/
def rowFor (m : Mnemonic) (mode : Mode) : Option Row :=
  operationTable.find? fun r => r.mnemonic = m && r.mode = mode

/-- The mode an assembler takes for an unindexed memory operand (R138): ZERO_PAGE when the address is
below 0x0100 and the mnemonic has both forms, else ABSOLUTE. -/
def directMode (m : Mnemonic) (address : Word) : Mode :=
  if hi address = 0 ∧ (rowFor m .zeroPage).isSome ∧ (rowFor m .absolute).isSome then .zeroPage
  else .absolute

end Sys2Proof.Machine
end

