-- ==== Sys2Proof/Safety.lean ====
section
/-! DEFINITION. The terms in which claims are made: a running core, the invariant every step keeps, the
addresses of a state that are mapped, the bytes a store reaches, and safe runs. -/

namespace Sys2Proof.Machine

/-- The step is enabled (R190, R350): a reset has been made and the fault record is empty. -/
def State.Running (s : State) : Prop := s.resetMade = true ∧ s.fault = none

/-- The chunk list, if there is one, is valid (R81). -/
def State.chunksValid (s : State) : Bool :=
  match s.bus.chunks with
  | none => true
  | some cs => chunksWf cs

/-- The invariant: the backing store in its canonical form, and a valid chunk list. -/
def State.Inv (s : State) : Prop := s.bus.mem.wf = true ∧ s.chunksValid = true

/-- Some chunk covers the address (R83). -/
def State.mapped (s : State) (a : Word) : Prop :=
  ∃ cs, s.bus.chunks = some cs ∧ ∃ c ∈ cs, Chunk.covers c a = true

/-- A store at `ea` reaches the byte that stands at `a`: a RAM chunk answers the store, and a read of
`a` answers from the same cell. With chunks that are no mirrors of one another this says that `a` is
`ea`. -/
def State.storeReaches (s : State) (ea a : Word) : Prop :=
  ∃ k, s.ramCell ea = some k ∧ s.cellOf a = some k

/-- `P_DECIMAL` refuses decimal arithmetic in this state (R251). -/
def State.refusesDecimal (s : State) : Prop := s.params.decimal = .refuse ∧ s.flags.D = true

/-- The rows of the operation table with a mnemonic, in opcode order (R133). -/
def rowsOf (m : Mnemonic) : List Row := operationTable.filter fun r => r.mnemonic == m

/-- The 105 bytes R135 lists as unassigned. -/
def unassignedOpcodes : List Byte :=
  [0x02, 0x03, 0x04, 0x07, 0x0B, 0x0C, 0x0F, 0x12, 0x13, 0x14, 0x17, 0x1A, 0x1B, 0x1C, 0x1F,
   0x22, 0x23, 0x27, 0x2B, 0x2F, 0x32, 0x33, 0x34, 0x37, 0x3A, 0x3B, 0x3C, 0x3F, 0x42, 0x43,
   0x44, 0x47, 0x4B, 0x4F, 0x52, 0x53, 0x54, 0x57, 0x5A, 0x5B, 0x5C, 0x5F, 0x62, 0x63, 0x64,
   0x67, 0x6B, 0x6F, 0x72, 0x73, 0x74, 0x77, 0x7A, 0x7B, 0x7C, 0x7F, 0x80, 0x82, 0x83, 0x87,
   0x89, 0x8B, 0x8F, 0x92, 0x93, 0x97, 0x9B, 0x9C, 0x9E, 0x9F, 0xA3, 0xA7, 0xAB, 0xAF, 0xB2,
   0xB3, 0xB7, 0xBB, 0xBF, 0xC2, 0xC3, 0xC7, 0xCB, 0xCF, 0xD2, 0xD3, 0xD4, 0xD7, 0xDA, 0xDB,
   0xDC, 0xDF, 0xE2, 0xE3, 0xE7, 0xEB, 0xEF, 0xF2, 0xF3, 0xF4, 0xF7, 0xFA, 0xFB, 0xFC, 0xFF]

/-- The state with other values in B1 and B2. -/
def State.withBreaks (b1 b2 : Bool) (s : State) : State :=
  { s with flags := { s.flags with B1 := b1, B2 := b2 } }

/-- `s'` is reached from `s` by some steps. -/
inductive Reaches : State → State → Prop where
  | refl (s : State) : Reaches s s
  | tail {s t u : State} : Reaches s t → step t = .next u → Reaches s u

/-- The core makes n steps from a state without an error. -/
def SafeFor (n : Nat) (s : State) : Prop := ∃ t, Sys2Proof.core.run n s = .next t

end Sys2Proof.Machine
end

