-- ==== Sys2Proof/Certificates/Slice0/Obligations.lean ====
section
/-! DEFINITION. The statements for the provers. A clause about a flag written by SetZN uses
`Flags.setZN`, which `Obligations.ZeroNegativeUpdate` states; an operand of the READ class is what
`readOperand` answers, which `Obligations.OperandOfReadClass` and the two statements about `resolve`
state; the address of the stack byte is `stackAddress`, which `Obligations.PushAndPull` states. -/

open Sys2Proof Sys2Proof.Machine

/-- For every instruction i (every row of the opcode table, every operand value) and every following
byte list: i is well-formed, decode of encode i followed by the rest is i with the rest left over, and
encode i is as long as the table says. -/
def Obligations.DecodeOfEncode : Prop :=
  ∀ (i : Instr) (rest : List Byte),
    i.wf = true ∧ decode (encode i ++ rest) = .ok (i, rest) ∧ (encode i).length = i.length

/-- If decode reads the instruction i from a byte list and leaves the rest, the list is encode i
followed by the rest: no byte has two meanings and no bit of an encoding is dropped. -/
def Obligations.DecodeIsExact : Prop :=
  ∀ (bs rest : List Byte) (i : Instr), decode bs = .ok (i, rest) → bs = encode i ++ rest

/-- For each of the 105 bytes of R135: the decoder rejects it whatever follows, and a running core that
fetches it faults with UnknownOpcode(opcode, PCfetch), the bus left as the opcode read alone leaves it,
so no parameter byte is read. Every other byte has a row of the operation table. -/
def Obligations.UnassignedOpcodes : Prop :=
  ∀ op : Byte,
    (op ∈ unassignedOpcodes →
      (∀ rest, decode (op :: rest) = .error (.unassigned op)) ∧
      ∀ s t : State, s.Running → memRead s.PC s = .ok op t →
        step s = .fault (.raised (.unknownOpcode op s.PC) t.bus)) ∧
    (op ∉ unassignedOpcodes → ∃ f, formOf op = some f ∧ f.row.opcode = op)

/-- The operation table holds 151 rows, each well-formed (its class takes its mode, its page-cross
penalty stands where R197 puts it), no opcode occurs twice, every row is the row of some instruction and
every instruction has its row in the table. -/
def Obligations.OperationTable : Prop :=
  operationTable.length = 151 ∧ tableWf operationTable = true ∧
  (∀ r ∈ operationTable, ∃ i : Instr, i.row = r) ∧
  ∀ i : Instr, i.row ∈ operationTable

/-- Byte sequences written out from the encoding tables of the spec, from every family, decode to the
instruction they stand for, two parameter bytes low byte first; an unassigned byte is rejected. -/
def Obligations.EncodingsOfTheSpec : Prop :=
  decode [0xA9, 0x7F] = .ok (.ldaImm 0x7F, []) ∧ decode [0xAD, 0x34, 0x12] = .ok (.ldaAbs 0x1234, []) ∧
  decode [0x8D, 0x00, 0x02] = .ok (.staAbs 0x0200, []) ∧ decode [0x96, 0x02] = .ok (.stxZpY 0x02, []) ∧
  decode [0x4C, 0x00, 0xC0] = .ok (.jmpAbs 0xC000, []) ∧ decode [0x20, 0x00, 0x90] = .ok (.jsrAbs 0x9000, []) ∧
  decode [0x0A] = .ok (.aslA, []) ∧ decode [0x00] = .ok (.brk, []) ∧ decode [0x40] = .ok (.rti, []) ∧
  decode [0xC9, 0x10] = .ok (.cmpImm 0x10, []) ∧ decode [0x24, 0x10] = .ok (.bitZp 0x10, []) ∧
  decode [0x71, 0x86] = .ok (.adcIndY 0x86, []) ∧ decode [0xE1, 0x20] = .ok (.sbcIndX 0x20, []) ∧
  decode [0xFE, 0x00, 0x02] = .ok (.incAbsX 0x0200, []) ∧ decode [0x48] = .ok (.pha, []) ∧
  decode [0xD0, 0xFE] = .ok (.bne 0xFE, []) ∧ decode [0x78] = .ok (.sei, []) ∧
  decode [0x6C, 0xFF, 0x02] = .ok (.jmpInd 0x02FF, []) ∧ decode [0x02] = .error (.unassigned 0x02)

/-- For a running core: if the bytes of encode i stand at PC and the addresses after it (modulo 65536),
step is exec of i in the same state with PC moved by the length of i (NextPC). In general (device chunks
included), where fetch answers i, step is exec of i in a state that differs from the old one in PC =
NextPC and in what devices have seen only. -/
def Obligations.StepRunsDecodedInstruction : Prop :=
  ∀ s : State, s.Running →
    (∀ i : Instr, (∀ k b, (encode i)[k]? = some b → s.byteAt (s.PC + BitVec.ofNat 16 k) = some b) →
      step s = exec i { s with PC := s.PC + BitVec.ofNat 16 i.length }) ∧
    (∀ (i : Instr) (s1 : State), fetch s = .ok i s1 →
      step s = exec i s1 ∧
      s1 = { s with PC := s.PC + BitVec.ofNat 16 i.length, bus := s1.bus } ∧
      ∀ a, s1.byteAt a = s.byteAt a)

/-- A running core whose opcode read fails faults with that error; one whose first (then second)
parameter read fails faults with it, the bus as the reads before it left it; with an undefined bus
configuration the error is ConfigurationError(read), with an empty chunk list UnmappedAddress(PC, read).
-/
def Obligations.FetchErrorsComeInOrder : Prop :=
  ∀ s : State, s.Running →
    (∀ e t, memRead s.PC s = .err e t → step s = .fault (.raised e s.bus)) ∧
    (∀ op t e u, memRead s.PC s = .ok op t → (∃ f, formOf op = some f ∧ f.row.mode.parameterSize ≠ 0) →
      memRead (s.PC + 1) t = .err e u → step s = .fault (.raised e t.bus)) ∧
    (∀ op l t u e w, memRead s.PC s = .ok op t →
      (∃ f, formOf op = some f ∧ f.row.mode.parameterSize = 2) →
      memRead (s.PC + 1) t = .ok l u → memRead (s.PC + 2) u = .err e w →
      step s = .fault (.raised e u.bus)) ∧
    (s.bus.chunks = none → step s = .fault (.raised (.configurationError .read) s.bus)) ∧
    (s.bus.chunks = some [] → step s = .fault (.raised (.unmappedAddress s.PC .read) s.bus))

/-- In a state whose fault record holds e, step answers the same error with the bus unchanged and the
session state does not change; a step of a running core that raises e leaves e recorded and the bus as
the accesses before the failing one left it; no host operation but reset empties the record. -/
def Obligations.CoreStuckAfterError : Prop :=
  (∀ s e, s.resetMade = true → s.fault = some e →
    step s = .fault (.raised e s.bus) ∧ sessionStep s = s) ∧
  (∀ s e left, s.Running → step s = .fault (.raised e left) →
    (sessionStep s).fault = some e ∧ (sessionStep s).bus = left) ∧
  (∀ o s, s.fault ≠ none → (hostOp o s).fault = none → o = .reset)

/-- A core that was never reset refuses step and its session state does not change; a fresh core has no
reset made, an undefined bus configuration and an empty fault record; reset, and no other host
operation, makes the core one that was reset. The refusal is the spec's decision (R350, D27). -/
def Obligations.NoStepBeforeReset : Prop :=
  (∀ s : State, s.resetMade = false → step s = .refused .neverReset ∧ sessionStep s = s) ∧
  (∀ p : Params, (State.fresh p).resetMade = false ∧ (State.fresh p).bus.chunks = none ∧
    (State.fresh p).fault = none) ∧
  (∀ o s, s.resetMade = false → (hostOp o s).resetMade = true → o = .reset) ∧
  ∀ s : State, (hostOp .reset s).resetMade = true

/-- Locate raises ConfigurationError(kind) while chunks are undefined, answers the first chunk of the
list with start <= addr < start + size and the offset addr - start, and raises
UnmappedAddressError(addr, kind) when no chunk covers the address. -/
def Obligations.RoutingIsFirstMatch : Prop :=
  (∀ a k, locate none a k = .error (.configurationError k)) ∧
  (∀ (before after : List Chunk) (c : Chunk) (a : Word) (k : AccessKind),
    (∀ d ∈ before, ¬ (d.start.toNat ≤ a.toNat ∧ a.toNat < d.start.toNat + d.size)) →
    c.start.toNat ≤ a.toNat → a.toNat < c.start.toNat + c.size →
    locate (some (before ++ c :: after)) a k = .ok (c.kind, a.toNat - c.start.toNat)) ∧
  (∀ (cs : List Chunk) (a : Word) (k : AccessKind),
    (∀ d ∈ cs, ¬ (d.start.toNat ≤ a.toNat ∧ a.toNat < d.start.toNat + d.size)) →
    locate (some cs) a k = .error (.unmappedAddress a k))

/-- Where a RAM chunk answers, a write completes, the next read of the address gives the byte written,
every address that does not answer from that cell reads as before, and every address that does (the
address itself, or a mirror of it) reads the new byte. Where a ROM chunk answers, a write changes
nothing and a read gives the image byte. That two chunks may window one backing cell is the model's
choice (log entry 4). -/
def Obligations.RamStoresRomIgnores : Prop :=
  ∀ (s : State) (a : Word) (v : Byte), s.bus.mem.wf = true →
    (∀ base off, locate s.bus.chunks a .write = .ok (.ram base, off) →
      ∃ t, memWrite a v s = .ok () t ∧ memRead a t = .ok v t ∧ t = { s with bus := t.bus } ∧
        (∀ b, s.cellOf b ≠ some (base + off) → t.byteAt b = s.byteAt b) ∧
        (∀ b, s.cellOf b = some (base + off) → t.byteAt b = some v)) ∧
    (∀ base off, locate s.bus.chunks a .write = .ok (.rom base, off) →
      memWrite a v s = .ok () s ∧ memRead a s = .ok (s.bus.mem.get (base + off)) s)

/-- On an address of a device chunk a load makes exactly one read, a store exactly one write and no
read, and a read-modify-write one read then one write of the result: no dummy access. The device's
answer is a free value of its history (log entry 5). -/
def Obligations.DeviceSeesEachAccessOnce : Prop :=
  ∀ (s : State) (p : Word) (id off : Nat), locate s.bus.chunks p .read = .ok (.device id, off) →
    let v := Config.deviceRead id off s.bus.io
    exec (.ldaAbs p) s =
      .next { s with A := v, flags := s.flags.setZN s.params.znPolicy v, CYC := s.CYC + 4,
                     bus := { s.bus with io := .read id off :: s.bus.io } } ∧
    exec (.staAbs p) s =
      .next { s with CYC := s.CYC + 4,
                     bus := { s.bus with io := .write id off s.A :: s.bus.io } } ∧
    exec (.incAbs p) s =
      .next { s with flags := s.flags.setZN s.params.znPolicy (v + 1), CYC := s.CYC + 6,
                     bus := { s.bus with io := .write id off (v + 1) :: .read id off :: s.bus.io } }

/-- With one device over the whole address space: the fetch reads the opcode byte and the parameter
bytes at ascending addresses, and the opcode byte alone if it is unassigned; BRK then writes high byte,
low byte and status downward and reads the vector low byte first; JSR writes high byte then low byte;
STA (zp),Y reads the pointer, low byte first, then makes its one write of A at pointer + Y. No other
access is made. -/
def Obligations.AccessOrderOnTheBus : Prop :=
  ∀ (s : State) (d : Nat), s.bus.chunks = some [{ start := 0, size := 0x10000, kind := .device d }] →
    (match fetch s with
      | .ok i s1 => s1.bus.io =
        ((List.range i.length).map fun k => .read d (s.PC + BitVec.ofNat 16 k).toNat).reverse ++
          s.bus.io
      | .err _ s1 => s1.bus.io = .read d s.PC.toNat :: s.bus.io) ∧
    (∃ t, exec .brk s = .next t ∧
      t.bus.io =
        [.read d 0xFFFF, .read d 0xFFFE,
         .write d (stackAddress (s.SP - 2)).toNat (s.flags.toByte ||| 0x30),
         .write d (stackAddress (s.SP - 1)).toNat (lo (s.PC + 1)),
         .write d (stackAddress s.SP).toNat (hi (s.PC + 1))] ++ s.bus.io) ∧
    (∀ p, ∃ t, exec (.jsrAbs p) s = .next t ∧
      t.bus.io =
        [.write d (stackAddress (s.SP - 1)).toNat (lo (s.PC - 1)),
         .write d (stackAddress s.SP).toNat (hi (s.PC - 1))] ++ s.bus.io) ∧
    (∀ p : Byte,
      let l := Config.deviceRead d p.toNat s.bus.io
      let h := Config.deviceRead d ((p.toNat + 1) % 256) (.read d p.toNat :: s.bus.io)
      ∃ t, exec (.staIndY p) s = .next t ∧
        t.bus.io =
          [.write d ((l.toNat + 256 * h.toNat + s.Y.toNat) % 65536) s.A,
           .read d ((p.toNat + 1) % 256), .read d p.toNat] ++ s.bus.io)

/-- Read16 reads the low byte at a, then the high byte at a+1 mod 65536; Read16ZP takes the high byte
from (p+1) mod 256; Read16PageWrap takes it from the same page under PAGE_WRAP and is Read16 under
LINEAR; an error of the first read ends it before the second. -/
def Obligations.MultiByteReads : Prop :=
  ∀ (s : State),
    (∀ a l h t u, memRead a s = .ok l t → memRead (a + 1) t = .ok h u →
      read16 a s = .ok (BitVec.ofNat 16 (l.toNat + 256 * h.toNat)) u) ∧
    (∀ (p : Byte) l h t u, memRead (BitVec.ofNat 16 p.toNat) s = .ok l t →
      memRead (BitVec.ofNat 16 ((p.toNat + 1) % 256)) t = .ok h u →
      read16ZP p s = .ok (BitVec.ofNat 16 (l.toNat + 256 * h.toNat)) u) ∧
    (∀ (p : Word) l h t u, s.params.jmpIndWrap = .pageWrap → memRead p s = .ok l t →
      memRead (BitVec.ofNat 16 (p.toNat / 256 * 256 + (p.toNat + 1) % 256)) t = .ok h u →
      read16PageWrap p s = .ok (BitVec.ofNat 16 (l.toNat + 256 * h.toNat)) u) ∧
    (∀ p, s.params.jmpIndWrap = .linear → read16PageWrap p s = read16 p s) ∧
    (∀ a e t, memRead a s = .err e t → read16 a s = .err e t) ∧
    (∀ a l t e u, memRead a s = .ok l t → memRead (a + 1) t = .err e u → read16 a s = .err e u)

/-- The stack address of SP is 0x0100 + SP; Push writes there and leaves SP - 1 (mod 256); Pull leaves
SP + 1 (mod 256) and reads at the new stack address; both fault as any access does; a word is pushed
high byte first and pulled low byte first. -/
def Obligations.PushAndPull : Prop :=
  (∀ sp : Byte, (stackAddress sp).toNat = 0x0100 + sp.toNat) ∧
  (∀ v s t, memWrite (stackAddress s.SP) v s = .ok () t →
    push v s = .ok () { s with SP := s.SP - 1, bus := t.bus }) ∧
  (∀ v s t, memRead (stackAddress (s.SP + 1)) s = .ok v t →
    pull s = .ok v { s with SP := s.SP + 1, bus := t.bus }) ∧
  (∀ v s e t, memWrite (stackAddress s.SP) v s = .err e t → push v s = .err e s) ∧
  (∀ s e t, memRead (stackAddress (s.SP + 1)) s = .err e t →
    ∃ u, pull s = .err e u ∧ u.bus = s.bus) ∧
  (∀ w s t u, push (BitVec.ofNat 8 (w.toNat / 256)) s = .ok () t →
    push (BitVec.ofNat 8 (w.toNat % 256)) t = .ok () u → pushWord w s = .ok () u) ∧
  (∀ s l t h u, pull s = .ok l t → pull t = .ok h u →
    pullWord s = .ok (BitVec.ofNat 16 (l.toNat + 256 * h.toNat)) u)

/-- load sets each flag from its bit, toByte packs them back with N in bit 7 and C in bit 0, and each
undoes the other on all 256 values: all eight bits are storage. -/
def Obligations.FlagsPackAndLoad : Prop :=
  (∀ b : Byte, (Flags.load b).toByte = b ∧
    (Flags.load b).N = b.getLsbD 7 ∧ (Flags.load b).V = b.getLsbD 6 ∧
    (Flags.load b).B1 = b.getLsbD 5 ∧ (Flags.load b).B2 = b.getLsbD 4 ∧
    (Flags.load b).D = b.getLsbD 3 ∧ (Flags.load b).I = b.getLsbD 2 ∧
    (Flags.load b).Z = b.getLsbD 1 ∧ (Flags.load b).C = b.getLsbD 0) ∧
  ∀ f : Flags, Flags.load f.toByte = f ∧
    f.toByte.toNat = 128 * f.N.toNat + 64 * f.V.toNat + 32 * f.B1.toNat + 16 * f.B2.toNat +
      8 * f.D.toNat + 4 * f.I.toNat + 2 * f.Z.toNat + f.C.toNat

/-- Under EXACT, SetZN(r) assigns Z the condition r = 0 and N bit 7 of r; under SET_ONLY it is
updateZeroAndNegative, which sets Z or N where the condition holds and clears neither; both leave the
other six flags. The helper is also a host operation. CMP, CPX, CPY and BIT do the same under either
policy. -/
def Obligations.ZeroNegativeUpdate : Prop :=
  (∀ (r : Byte) (f : Flags),
    f.setZN .exact r = { f with Z := decide (r = 0), N := decide (128 ≤ r.toNat) } ∧
    f.setZN .setOnly r = f.updateZeroAndNegative r ∧
    f.updateZeroAndNegative r =
      { f with Z := if r = 0 then true else f.Z, N := if 128 ≤ r.toNat then true else f.N } ∧
    ∀ s : State, s.setZN r = { s with flags := s.flags.setZN s.params.znPolicy r } ∧
      hostWrite (.updateZN r) s = { s with flags := s.flags.updateZeroAndNegative r }) ∧
  ∀ (i : Instr) (s t : State) (policy : ZnPolicy), i.mnemonic ∈ [.cmp, .cpx, .cpy, .bit] →
    exec i s = .next t →
    exec i { s with params := { s.params with znPolicy := policy } } =
      .next { t with params := { t.params with znPolicy := policy } }

/-- Reading a field of a byte gives (raw / 2^start) mod 2^width, below 2^width; the eight fields of the
flags register lie in the byte without overlap, and reading each from toByte() gives that flag. -/
def Obligations.BitFieldReads : Prop :=
  (∀ (raw : Byte) (f : BitField),
    BitField.read raw f = raw.toNat / 2 ^ f.start % 2 ^ f.width ∧ BitField.read raw f < 2 ^ f.width) ∧
  fieldsWf flagFields = true ∧
  ∀ f : Flags, flagFields.map (BitField.read f.toByte) =
    [f.N.toNat, f.V.toNat, f.B1.toNat, f.B2.toNat, f.D.toNat, f.I.toNat, f.Z.toNat, f.C.toNat]

/-- IMPLICIT, ACCUMULATOR and IMMEDIATE give no address; ZERO_PAGE gives the parameter, its indexed
forms wrap mod 256; ABSOLUTE gives the parameter, its indexed forms add X or Y mod 65536 and cross a
page exactly when the high bytes of the parameter and the address differ; RELATIVE adds the signed
offset to NextPC mod 65536 and crosses when the pages of NextPC and the target differ. No access is
made. ACCUMULATOR, INDEXED_ZERO_PAGE_Y and RELATIVE are used by the listed opcodes and by the branches
only. In RELATIVE, PC is NextPC. -/
def Obligations.ModesWithoutPointer : Prop :=
  ∀ s : State,
    (∀ p, resolve .implicit p s = .ok ⟨none, false⟩ s ∧ resolve .accumulator p s = .ok ⟨none, false⟩ s ∧
      resolve .immediate p s = .ok ⟨none, false⟩ s) ∧
    (∀ p : Byte, let z := BitVec.ofNat 16 p.toNat
      resolve .zeroPage z s = .ok ⟨some z, false⟩ s ∧
      resolve .indexedZeroPageX z s =
        .ok ⟨some (BitVec.ofNat 16 ((p.toNat + s.X.toNat) % 256)), false⟩ s ∧
      resolve .indexedZeroPageY z s =
        .ok ⟨some (BitVec.ofNat 16 ((p.toNat + s.Y.toNat) % 256)), false⟩ s ∧
      resolve .relative z s =
        .ok ⟨some (BitVec.ofInt 16 (s.PC.toNat + p.toInt)),
             decide (s.PC.toNat / 256 ≠ (BitVec.ofInt 16 (s.PC.toNat + p.toInt)).toNat / 256)⟩ s) ∧
    (∀ p : Word,
      resolve .absolute p s = .ok ⟨some p, false⟩ s ∧
      resolve .indexedAbsoluteX p s =
        .ok ⟨some (BitVec.ofNat 16 (p.toNat + s.X.toNat)),
             decide (p.toNat / 256 ≠ (p.toNat + s.X.toNat) % 65536 / 256)⟩ s ∧
      resolve .indexedAbsoluteY p s =
        .ok ⟨some (BitVec.ofNat 16 (p.toNat + s.Y.toNat)),
             decide (p.toNat / 256 ≠ (p.toNat + s.Y.toNat) % 65536 / 256)⟩ s) ∧
    (∀ i : Instr, (i.mode = .accumulator ↔ i.opcode ∈ [0x0A, 0x4A, 0x2A, 0x6A]) ∧
      (i.mode = .indexedZeroPageY ↔ i.opcode ∈ [0xB6, 0x96]) ∧
      (i.mode = .relative ↔ i.mnemonic.operandClass = .branch))

/-- INDIRECT takes the word at the parameter, the high byte from the same page under PAGE_WRAP and from
the next address under LINEAR (only JMP uses it); INDEXED_INDIRECT_X takes the word at (param + X) mod
256, INDEXED_INDIRECT_Y the word at param, both wholly in the zero page; the last adds Y mod 65536 and
crosses when the pages of the pointer value and the address differ. The low byte is read first. -/
def Obligations.ModesThroughPointer : Prop :=
  ∀ (s : State) (l h : Byte) (t u : State), let w := l.toNat + 256 * h.toNat
    (∀ p : Word, s.params.jmpIndWrap = .pageWrap → memRead p s = .ok l t →
      memRead (BitVec.ofNat 16 (p.toNat / 256 * 256 + (p.toNat + 1) % 256)) t = .ok h u →
      resolve .indirect p s = .ok ⟨some (BitVec.ofNat 16 w), false⟩ u) ∧
    (∀ p : Word, s.params.jmpIndWrap = .linear → memRead p s = .ok l t →
      memRead (BitVec.ofNat 16 (p.toNat + 1)) t = .ok h u →
      resolve .indirect p s = .ok ⟨some (BitVec.ofNat 16 w), false⟩ u) ∧
    (∀ p : Byte, memRead (BitVec.ofNat 16 ((p.toNat + s.X.toNat) % 256)) s = .ok l t →
      memRead (BitVec.ofNat 16 ((p.toNat + s.X.toNat + 1) % 256)) t = .ok h u →
      resolve .indexedIndirectX (BitVec.ofNat 16 p.toNat) s =
        .ok ⟨some (BitVec.ofNat 16 w), false⟩ u) ∧
    (∀ p : Byte, memRead (BitVec.ofNat 16 p.toNat) s = .ok l t →
      memRead (BitVec.ofNat 16 ((p.toNat + 1) % 256)) t = .ok h u →
      resolve .indexedIndirectY (BitVec.ofNat 16 p.toNat) s =
        .ok ⟨some (BitVec.ofNat 16 (w + s.Y.toNat)),
             decide (w / 256 ≠ (w + s.Y.toNat) % 65536 / 256)⟩ u) ∧
    (∀ i : Instr, i.mode = .indirect ↔ i.opcode = 0x6C)

/-- After getAddress, in any mode and whether it answers or fails, every register, flag and byte of
memory is as before; only a device behind a pointer read can have seen something, and in the ten modes
without a pointer the state is the same state. -/
def Obligations.ResolverWritesNothing : Prop :=
  ∀ (m : Mode) (p : Word) (s s1 : State),
    ((∃ r, resolve m p s = .ok r s1) ∨ (∃ e, resolve m p s = .err e s1)) →
      s1 = { s with bus := s1.bus } ∧ s1.bus.chunks = s.bus.chunks ∧ s1.bus.mem = s.bus.mem ∧
      (∀ a, s1.byteAt a = s.byteAt a) ∧
      (m ≠ .indirect → m ≠ .indexedIndirectX → m ≠ .indexedIndirectY → s1 = s)

/-- In IMMEDIATE mode the operand value is the parameter byte and no access is made; in every other mode
it is what one read of the effective address answers, after the resolver; an error of the resolver or of
the read ends it; no register, flag, chunk list or byte of memory changes. -/
def Obligations.OperandOfReadClass : Prop :=
  (∀ p s, readOperand .immediate p s = .ok (⟨none, false⟩, lo p) s) ∧
  (∀ m p s r s1 ea v t, m ≠ .immediate → resolve m p s = .ok r s1 → r.ea = some ea →
    memRead ea s1 = .ok v t → readOperand m p s = .ok (r, v) t) ∧
  (∀ m p s e s1, resolve m p s = .err e s1 → readOperand m p s = .err e s1) ∧
  (∀ m p s r s1 ea e t, m ≠ .immediate → resolve m p s = .ok r s1 → r.ea = some ea →
    memRead ea s1 = .err e t → readOperand m p s = .err e s1) ∧
  (∀ m p s x s1, readOperand m p s = .ok x s1 →
    s1 = { s with bus := s1.bus } ∧ s1.bus.chunks = s.bus.chunks ∧ s1.bus.mem = s.bus.mem)

/-- In each of their forms (opcodes, modes and cycles as listed), when the operand v is readable LDA,
LDX, LDY complete with A, X or Y := v, Z and N by SetZN(v), CYC advanced by the row cycles and one more
on a penalised page crossing; every other register, flag and byte of memory is unchanged. When the
operand read fails, the instruction faults with its error. -/
def Obligations.LoadInstructions : Prop :=
  rowsOf .lda =
    [⟨0xA1, .lda, .indexedIndirectX, 6, false⟩, ⟨0xA5, .lda, .zeroPage, 3, false⟩,
     ⟨0xA9, .lda, .immediate, 2, false⟩, ⟨0xAD, .lda, .absolute, 4, false⟩,
     ⟨0xB1, .lda, .indexedIndirectY, 5, true⟩, ⟨0xB5, .lda, .indexedZeroPageX, 4, false⟩,
     ⟨0xB9, .lda, .indexedAbsoluteY, 4, true⟩, ⟨0xBD, .lda, .indexedAbsoluteX, 4, true⟩] ∧
  rowsOf .ldx =
    [⟨0xA2, .ldx, .immediate, 2, false⟩, ⟨0xA6, .ldx, .zeroPage, 3, false⟩,
     ⟨0xAE, .ldx, .absolute, 4, false⟩, ⟨0xB6, .ldx, .indexedZeroPageY, 4, false⟩,
     ⟨0xBE, .ldx, .indexedAbsoluteY, 4, true⟩] ∧
  rowsOf .ldy =
    [⟨0xA0, .ldy, .immediate, 2, false⟩, ⟨0xA4, .ldy, .zeroPage, 3, false⟩,
     ⟨0xAC, .ldy, .absolute, 4, false⟩, ⟨0xB4, .ldy, .indexedZeroPageX, 4, false⟩,
     ⟨0xBC, .ldy, .indexedAbsoluteX, 4, true⟩] ∧
  ∀ (i : Instr) (s s1 : State),
    (∀ r v, readOperand i.mode i.param s = .ok (r, v) s1 →
      let cyc := s.CYC + i.row.cycles + if i.row.pageCross ∧ r.crossed then 1 else 0
      (i.mnemonic = .lda → exec i s =
        .next { s with A := v, flags := s.flags.setZN s.params.znPolicy v,
                       CYC := cyc, bus := s1.bus }) ∧
      (i.mnemonic = .ldx → exec i s =
        .next { s with X := v, flags := s.flags.setZN s.params.znPolicy v,
                       CYC := cyc, bus := s1.bus }) ∧
      (i.mnemonic = .ldy → exec i s =
        .next { s with Y := v, flags := s.flags.setZN s.params.znPolicy v,
                       CYC := cyc, bus := s1.bus }) ∧
      ∀ a, s1.byteAt a = s.byteAt a) ∧
    (∀ e, readOperand i.mode i.param s = .err e s1 → i.mnemonic ∈ [.lda, .ldx, .ldy] →
      exec i s = .fault (.raised e s1.bus))

/-- In each of their forms STA, STX, STY make one write of A, X or Y at the effective address the
resolver gives and no read of it; they complete where the write does, CYC advanced by the row cycles
with no page-cross cycle; every register and flag is unchanged, every byte the store does not reach
reads as before and every byte it reaches reads the register. A failing resolver or write faults with
its error. The memory is in canonical form (the invariant StepKeepsInvariant). -/
def Obligations.StoreInstructions : Prop :=
  rowsOf .sta =
    [⟨0x81, .sta, .indexedIndirectX, 6, false⟩, ⟨0x85, .sta, .zeroPage, 3, false⟩,
     ⟨0x8D, .sta, .absolute, 4, false⟩, ⟨0x91, .sta, .indexedIndirectY, 6, false⟩,
     ⟨0x95, .sta, .indexedZeroPageX, 4, false⟩, ⟨0x99, .sta, .indexedAbsoluteY, 5, false⟩,
     ⟨0x9D, .sta, .indexedAbsoluteX, 5, false⟩] ∧
  rowsOf .stx =
    [⟨0x86, .stx, .zeroPage, 3, false⟩, ⟨0x8E, .stx, .absolute, 4, false⟩,
     ⟨0x96, .stx, .indexedZeroPageY, 4, false⟩] ∧
  rowsOf .sty =
    [⟨0x84, .sty, .zeroPage, 3, false⟩, ⟨0x8C, .sty, .absolute, 4, false⟩,
     ⟨0x94, .sty, .indexedZeroPageX, 4, false⟩] ∧
  ∀ (i : Instr) (s s1 : State), s.bus.mem.wf = true →
    (∀ r ea, resolve i.mode i.param s = .ok r s1 → r.ea = some ea →
      (i.mnemonic = .sta →
        (∀ t, memWrite ea s.A s1 = .ok () t →
          exec i s = .next { s with CYC := s.CYC + i.row.cycles, bus := t.bus } ∧
          (∀ a, ¬ s.storeReaches ea a → t.byteAt a = s.byteAt a) ∧
          ∀ a, s.storeReaches ea a → t.byteAt a = some s.A) ∧
        ∀ e t, memWrite ea s.A s1 = .err e t → exec i s = .fault (.raised e s1.bus)) ∧
      (i.mnemonic = .stx →
        (∀ t, memWrite ea s.X s1 = .ok () t →
          exec i s = .next { s with CYC := s.CYC + i.row.cycles, bus := t.bus } ∧
          (∀ a, ¬ s.storeReaches ea a → t.byteAt a = s.byteAt a) ∧
          ∀ a, s.storeReaches ea a → t.byteAt a = some s.X) ∧
        ∀ e t, memWrite ea s.X s1 = .err e t → exec i s = .fault (.raised e s1.bus)) ∧
      (i.mnemonic = .sty →
        (∀ t, memWrite ea s.Y s1 = .ok () t →
          exec i s = .next { s with CYC := s.CYC + i.row.cycles, bus := t.bus } ∧
          (∀ a, ¬ s.storeReaches ea a → t.byteAt a = s.byteAt a) ∧
          ∀ a, s.storeReaches ea a → t.byteAt a = some s.Y) ∧
        ∀ e t, memWrite ea s.Y s1 = .err e t → exec i s = .fault (.raised e s1.bus))) ∧
    (∀ e, resolve i.mode i.param s = .err e s1 → i.mnemonic ∈ [.sta, .stx, .sty] →
      exec i s = .fault (.raised e s1.bus)) ∧
    (i.mnemonic ∈ [.sta, .stx, .sty] → ∀ r, resolve i.mode i.param s = .ok r s1 → ∃ ea, r.ea = some ea)

/-- Each transfer completes in every state: the destination register takes the source, Z and N by SetZN
of it (TXS writes no flag), CYC + 2, everything else unchanged; the six opcodes are as listed. -/
def Obligations.TransferInstructions : Prop :=
  ∀ s : State, let zn := s.flags.setZN s.params.znPolicy
    exec .tax s = .next { s with X := s.A, flags := zn s.A, CYC := s.CYC + 2 } ∧
    exec .tay s = .next { s with Y := s.A, flags := zn s.A, CYC := s.CYC + 2 } ∧
    exec .txa s = .next { s with A := s.X, flags := zn s.X, CYC := s.CYC + 2 } ∧
    exec .tya s = .next { s with A := s.Y, flags := zn s.Y, CYC := s.CYC + 2 } ∧
    exec .tsx s = .next { s with X := s.SP, flags := zn s.SP, CYC := s.CYC + 2 } ∧
    exec .txs s = .next { s with SP := s.X, CYC := s.CYC + 2 } ∧
    encode .tax = [0xAA] ∧ encode .tay = [0xA8] ∧ encode .txa = [0x8A] ∧
    encode .tya = [0x98] ∧ encode .tsx = [0xBA] ∧ encode .txs = [0x9A]

/-- ADC, in each of its forms, when decimal arithmetic is not refused and the operand v is readable,
completes with A := (A + v + C) mod 256, C the unsigned carry out, V set exactly when the signed sum
lies outside -128..127, Z and N by SetZN of the result, CYC by the row (one more on a penalised
crossing); D, I, B1, B2, the other registers and all of memory are unchanged. A failing operand read
faults with its error. -/
def Obligations.AddWithCarryInstruction : Prop :=
  rowsOf .adc =
    [⟨0x61, .adc, .indexedIndirectX, 6, false⟩, ⟨0x65, .adc, .zeroPage, 3, false⟩,
     ⟨0x69, .adc, .immediate, 2, false⟩, ⟨0x6D, .adc, .absolute, 4, false⟩,
     ⟨0x71, .adc, .indexedIndirectY, 5, true⟩, ⟨0x75, .adc, .indexedZeroPageX, 4, false⟩,
     ⟨0x79, .adc, .indexedAbsoluteY, 4, true⟩, ⟨0x7D, .adc, .indexedAbsoluteX, 4, true⟩] ∧
  ∀ (i : Instr) (s s1 : State), i.mnemonic = .adc →
    (∀ r v, ¬ s.refusesDecimal → readOperand i.mode i.param s = .ok (r, v) s1 →
      let t := s.A.toNat + v.toNat + s.flags.C.toNat
      let signed := s.A.toInt + v.toInt + s.flags.C.toNat
      exec i s =
        .next { s with A := BitVec.ofNat 8 t,
                       flags := { s.flags with C := decide (t > 255),
                                               V := decide (signed < -128 ∨ 127 < signed)
                                }.setZN s.params.znPolicy (BitVec.ofNat 8 t),
                       CYC := s.CYC + i.row.cycles + if i.row.pageCross ∧ r.crossed then 1 else 0,
                       bus := s1.bus } ∧
      (∀ a, s1.byteAt a = s.byteAt a)) ∧
    (∀ e, ¬ s.refusesDecimal → readOperand i.mode i.param s = .err e s1 →
      exec i s = .fault (.raised e s1.bus))

/-- SBC, in each of its forms, when decimal arithmetic is not refused and the operand v is readable,
completes with A := (A - v - (1 - C)) mod 256, C = 1 exactly when no borrow is taken (A >= v + (1 - C)),
V set exactly when the signed difference lies outside -128..127, Z and N by SetZN of the result, CYC by
the row; everything else is unchanged. A failing operand read faults with its error. -/
def Obligations.SubtractWithBorrowInstruction : Prop :=
  rowsOf .sbc =
    [⟨0xE1, .sbc, .indexedIndirectX, 6, false⟩, ⟨0xE5, .sbc, .zeroPage, 3, false⟩,
     ⟨0xE9, .sbc, .immediate, 2, false⟩, ⟨0xED, .sbc, .absolute, 4, false⟩,
     ⟨0xF1, .sbc, .indexedIndirectY, 5, true⟩, ⟨0xF5, .sbc, .indexedZeroPageX, 4, false⟩,
     ⟨0xF9, .sbc, .indexedAbsoluteY, 4, true⟩, ⟨0xFD, .sbc, .indexedAbsoluteX, 4, true⟩] ∧
  ∀ (i : Instr) (s s1 : State), i.mnemonic = .sbc →
    (∀ r v, ¬ s.refusesDecimal → readOperand i.mode i.param s = .ok (r, v) s1 →
      let t : Int := s.A.toNat - v.toNat - (1 - s.flags.C.toNat)
      let signed := s.A.toInt - v.toInt - (1 - s.flags.C.toNat)
      exec i s =
        .next { s with A := BitVec.ofInt 8 t,
                       flags := { s.flags with C := decide (0 ≤ t),
                                               V := decide (signed < -128 ∨ 127 < signed)
                                }.setZN s.params.znPolicy (BitVec.ofInt 8 t),
                       CYC := s.CYC + i.row.cycles + if i.row.pageCross ∧ r.crossed then 1 else 0,
                       bus := s1.bus } ∧
      (∀ a, s1.byteAt a = s.byteAt a)) ∧
    (∀ e, ¬ s.refusesDecimal → readOperand i.mode i.param s = .err e s1 →
      exec i s = .fault (.raised e s1.bus))

/-- Where P_DECIMAL is REFUSE and D = 1, ADC and SBC fault with DecimalModeRefused(opcode, PCfetch)
after the resolver and before the operand read (the bus as the resolver left it; PCfetch is NextPC less
the length), unless the resolver itself fails; no other instruction, and no state with IGNORED or D = 0,
raises this error. -/
def Obligations.DecimalModeRefusal : Prop :=
  ∀ (i : Instr) (s : State),
    (i.mnemonic = .adc ∨ i.mnemonic = .sbc → s.refusesDecimal →
      (∀ r s1, resolve i.mode i.param s = .ok r s1 →
        exec i s =
          .fault (.raised (.decimalModeRefused i.opcode (s.PC - BitVec.ofNat 16 i.length)) s1.bus)) ∧
      ∀ e s1, resolve i.mode i.param s = .err e s1 → exec i s = .fault (.raised e s1.bus)) ∧
    (∀ op pc b, exec i s = .fault (.raised (.decimalModeRefused op pc) b) →
      s.params.decimal = .refuse ∧ s.flags.D = true ∧ (i.mnemonic = .adc ∨ i.mnemonic = .sbc))

/-- In each of their forms, when the operand v is readable, AND, ORA, EOR complete with A := A
and/or/xor v, Z and N by SetZN of the result, CYC by the row (one more on a penalised crossing); C, V
and every other flag, register and byte of memory is unchanged. A failing operand read faults with its
error. -/
def Obligations.LogicInstructions : Prop :=
  rowsOf .and =
    [⟨0x21, .and, .indexedIndirectX, 6, false⟩, ⟨0x25, .and, .zeroPage, 3, false⟩,
     ⟨0x29, .and, .immediate, 2, false⟩, ⟨0x2D, .and, .absolute, 4, false⟩,
     ⟨0x31, .and, .indexedIndirectY, 5, true⟩, ⟨0x35, .and, .indexedZeroPageX, 4, false⟩,
     ⟨0x39, .and, .indexedAbsoluteY, 4, true⟩, ⟨0x3D, .and, .indexedAbsoluteX, 4, true⟩] ∧
  rowsOf .ora =
    [⟨0x01, .ora, .indexedIndirectX, 6, false⟩, ⟨0x05, .ora, .zeroPage, 3, false⟩,
     ⟨0x09, .ora, .immediate, 2, false⟩, ⟨0x0D, .ora, .absolute, 4, false⟩,
     ⟨0x11, .ora, .indexedIndirectY, 5, true⟩, ⟨0x15, .ora, .indexedZeroPageX, 4, false⟩,
     ⟨0x19, .ora, .indexedAbsoluteY, 4, true⟩, ⟨0x1D, .ora, .indexedAbsoluteX, 4, true⟩] ∧
  rowsOf .eor =
    [⟨0x41, .eor, .indexedIndirectX, 6, false⟩, ⟨0x45, .eor, .zeroPage, 3, false⟩,
     ⟨0x49, .eor, .immediate, 2, false⟩, ⟨0x4D, .eor, .absolute, 4, false⟩,
     ⟨0x51, .eor, .indexedIndirectY, 5, true⟩, ⟨0x55, .eor, .indexedZeroPageX, 4, false⟩,
     ⟨0x59, .eor, .indexedAbsoluteY, 4, true⟩, ⟨0x5D, .eor, .indexedAbsoluteX, 4, true⟩] ∧
  ∀ (i : Instr) (s s1 : State),
    (∀ r v, readOperand i.mode i.param s = .ok (r, v) s1 →
      let cyc := s.CYC + i.row.cycles + if i.row.pageCross ∧ r.crossed then 1 else 0
      (i.mnemonic = .and → exec i s =
        .next { s with A := s.A &&& v, flags := s.flags.setZN s.params.znPolicy (s.A &&& v),
                       CYC := cyc, bus := s1.bus }) ∧
      (i.mnemonic = .ora → exec i s =
        .next { s with A := s.A ||| v, flags := s.flags.setZN s.params.znPolicy (s.A ||| v),
                       CYC := cyc, bus := s1.bus }) ∧
      (i.mnemonic = .eor → exec i s =
        .next { s with A := s.A ^^^ v, flags := s.flags.setZN s.params.znPolicy (s.A ^^^ v),
                       CYC := cyc, bus := s1.bus }) ∧
      ∀ a, s1.byteAt a = s.byteAt a) ∧
    (∀ e, readOperand i.mode i.param s = .err e s1 → i.mnemonic ∈ [.and, .ora, .eor] →
      exec i s = .fault (.raised e s1.bus))

/-- In each of their forms, when the operand v is readable, CMP, CPX, CPY assign Z := (source = v), N :=
bit 7 of source - v mod 256 and C := (source >= v, unsigned), and BIT assigns Z := (A & v = 0), N := bit
7 of v, V := bit 6 of v, whatever the SetZN policy is; the other flags, every register and all of memory
are unchanged, CYC by the row. A failing operand read faults with its error. -/
def Obligations.CompareAndBitTestInstructions : Prop :=
  rowsOf .cmp =
    [⟨0xC1, .cmp, .indexedIndirectX, 6, false⟩, ⟨0xC5, .cmp, .zeroPage, 3, false⟩,
     ⟨0xC9, .cmp, .immediate, 2, false⟩, ⟨0xCD, .cmp, .absolute, 4, false⟩,
     ⟨0xD1, .cmp, .indexedIndirectY, 5, true⟩, ⟨0xD5, .cmp, .indexedZeroPageX, 4, false⟩,
     ⟨0xD9, .cmp, .indexedAbsoluteY, 4, true⟩, ⟨0xDD, .cmp, .indexedAbsoluteX, 4, true⟩] ∧
  rowsOf .cpx =
    [⟨0xE0, .cpx, .immediate, 2, false⟩, ⟨0xE4, .cpx, .zeroPage, 3, false⟩,
     ⟨0xEC, .cpx, .absolute, 4, false⟩] ∧
  rowsOf .cpy =
    [⟨0xC0, .cpy, .immediate, 2, false⟩, ⟨0xC4, .cpy, .zeroPage, 3, false⟩,
     ⟨0xCC, .cpy, .absolute, 4, false⟩] ∧
  rowsOf .bit =
    [⟨0x24, .bit, .zeroPage, 3, false⟩, ⟨0x2C, .bit, .absolute, 4, false⟩] ∧
  ∀ (i : Instr) (s s1 : State),
    (∀ r v, readOperand i.mode i.param s = .ok (r, v) s1 →
      let cyc := s.CYC + i.row.cycles + if i.row.pageCross ∧ r.crossed then 1 else 0
      (i.mnemonic = .cmp → exec i s =
        .next { s with flags := { s.flags with Z := decide (s.A = v), N := (s.A - v).getLsbD 7,
                                               C := decide (v.toNat ≤ s.A.toNat) },
                       CYC := cyc, bus := s1.bus }) ∧
      (i.mnemonic = .cpx → exec i s =
        .next { s with flags := { s.flags with Z := decide (s.X = v), N := (s.X - v).getLsbD 7,
                                               C := decide (v.toNat ≤ s.X.toNat) },
                       CYC := cyc, bus := s1.bus }) ∧
      (i.mnemonic = .cpy → exec i s =
        .next { s with flags := { s.flags with Z := decide (s.Y = v), N := (s.Y - v).getLsbD 7,
                                               C := decide (v.toNat ≤ s.Y.toNat) },
                       CYC := cyc, bus := s1.bus }) ∧
      (i.mnemonic = .bit → exec i s =
        .next { s with flags := { s.flags with Z := decide (s.A &&& v = 0), N := v.getLsbD 7,
                                               V := v.getLsbD 6 },
                       CYC := cyc, bus := s1.bus }) ∧
      ∀ a, s1.byteAt a = s.byteAt a) ∧
    (∀ e, readOperand i.mode i.param s = .err e s1 → i.mnemonic ∈ [.cmp, .cpx, .cpy, .bit] →
      exec i s = .fault (.raised e s1.bus))

/-- In each of their forms, when the byte v at the effective address is readable, INC and DEC make that
one read and one write of v+1 or v-1 mod 256 (which completes), assign Z and N by SetZN of it and leave
C, V, every other flag and every register unchanged; every byte the store does not reach reads as
before, every byte it reaches reads the result; CYC by the row. A failing resolver or read faults with
its error and makes no write; no INC or DEC mode reads a pointer, so the resolver never fails here. That
the write completes is deduced from the routing of R83, which ignores the access kind, although R257 and
R258 allow an error there: the model's inference, log entry 15. -/
def Obligations.IncrementDecrementMemory : Prop :=
  rowsOf .inc =
    [⟨0xE6, .inc, .zeroPage, 5, false⟩, ⟨0xEE, .inc, .absolute, 6, false⟩,
     ⟨0xF6, .inc, .indexedZeroPageX, 6, false⟩, ⟨0xFE, .inc, .indexedAbsoluteX, 7, false⟩] ∧
  rowsOf .dec =
    [⟨0xC6, .dec, .zeroPage, 5, false⟩, ⟨0xCE, .dec, .absolute, 6, false⟩,
     ⟨0xD6, .dec, .indexedZeroPageX, 6, false⟩, ⟨0xDE, .dec, .indexedAbsoluteX, 7, false⟩] ∧
  ∀ (i : Instr) (s s1 : State), s.bus.mem.wf = true →
    (∀ r ea v s2, resolve i.mode i.param s = .ok r s1 → r.ea = some ea → memRead ea s1 = .ok v s2 →
      ∀ res : Byte, (i.mnemonic = .inc ∧ res.toNat = (v.toNat + 1) % 256) ∨
          (i.mnemonic = .dec ∧ res.toNat = (v.toNat + 255) % 256) →
        ∃ t, memWrite ea res s2 = .ok () t ∧
          exec i s =
            .next { s with flags := s.flags.setZN s.params.znPolicy res,
                           CYC := s.CYC + i.row.cycles, bus := t.bus } ∧
          (∀ a, ¬ s.storeReaches ea a → t.byteAt a = s.byteAt a) ∧
          ∀ a, s.storeReaches ea a → t.byteAt a = some res) ∧
    (i.mnemonic ∈ [.inc, .dec] →
      (∀ e, resolve i.mode i.param s = .err e s1 → exec i s = .fault (.raised e s1.bus)) ∧
      (∀ r ea e t, resolve i.mode i.param s = .ok r s1 → r.ea = some ea → memRead ea s1 = .err e t →
        exec i s = .fault (.raised e s1.bus)))

/-- Each completes in every state: X or Y plus or minus one mod 256, Z and N by SetZN of it, CYC + 2,
everything else (C and V among it) unchanged; the four opcodes are as listed. -/
def Obligations.IncrementDecrementRegister : Prop :=
  ∀ s : State, let zn := s.flags.setZN s.params.znPolicy
    (∀ r : Byte, r.toNat = (s.X.toNat + 1) % 256 →
      exec .inx s = .next { s with X := r, flags := zn r, CYC := s.CYC + 2 }) ∧
    (∀ r : Byte, r.toNat = (s.Y.toNat + 1) % 256 →
      exec .iny s = .next { s with Y := r, flags := zn r, CYC := s.CYC + 2 }) ∧
    (∀ r : Byte, r.toNat = (s.X.toNat + 255) % 256 →
      exec .dex s = .next { s with X := r, flags := zn r, CYC := s.CYC + 2 }) ∧
    (∀ r : Byte, r.toNat = (s.Y.toNat + 255) % 256 →
      exec .dey s = .next { s with Y := r, flags := zn r, CYC := s.CYC + 2 }) ∧
    encode .inx = [0xE8] ∧ encode .iny = [0xC8] ∧ encode .dex = [0xCA] ∧ encode .dey = [0x88]

/-- For the operand v: ASL gives 2v mod 256 with C := bit 7, LSR gives v/2 with C := bit 0, ROL brings
the old C into bit 0, ROR into bit 7; Z and N by SetZN of the result, V, B1, B2, D, I unchanged. In
ACCUMULATOR mode A takes the result with no memory access and 2 cycles; in a memory mode one read and
one write (which completes) of the effective address are made, every byte not reached reads as before,
every byte reached reads the result, every register is unchanged, CYC by the row. A failing resolver or
read faults with its error and makes no write; no mode of these reads a pointer, so the resolver never
fails here. That the write completes is deduced from the routing of R83, which ignores the access kind,
although R270 allows an error there: the model's inference, log entry 15. -/
def Obligations.ShiftsAndRotates : Prop :=
  rowsOf .asl =
    [⟨0x06, .asl, .zeroPage, 5, false⟩, ⟨0x0A, .asl, .accumulator, 2, false⟩,
     ⟨0x0E, .asl, .absolute, 6, false⟩, ⟨0x16, .asl, .indexedZeroPageX, 6, false⟩,
     ⟨0x1E, .asl, .indexedAbsoluteX, 7, false⟩] ∧
  rowsOf .lsr =
    [⟨0x46, .lsr, .zeroPage, 5, false⟩, ⟨0x4A, .lsr, .accumulator, 2, false⟩,
     ⟨0x4E, .lsr, .absolute, 6, false⟩, ⟨0x56, .lsr, .indexedZeroPageX, 6, false⟩,
     ⟨0x5E, .lsr, .indexedAbsoluteX, 7, false⟩] ∧
  rowsOf .rol =
    [⟨0x26, .rol, .zeroPage, 5, false⟩, ⟨0x2A, .rol, .accumulator, 2, false⟩,
     ⟨0x2E, .rol, .absolute, 6, false⟩, ⟨0x36, .rol, .indexedZeroPageX, 6, false⟩,
     ⟨0x3E, .rol, .indexedAbsoluteX, 7, false⟩] ∧
  rowsOf .ror =
    [⟨0x66, .ror, .zeroPage, 5, false⟩, ⟨0x6A, .ror, .accumulator, 2, false⟩,
     ⟨0x6E, .ror, .absolute, 6, false⟩, ⟨0x76, .ror, .indexedZeroPageX, 6, false⟩,
     ⟨0x7E, .ror, .indexedAbsoluteX, 7, false⟩] ∧
  ∀ (i : Instr) (s s1 : State) (v res : Byte) (c : Bool),
    (i.mnemonic = .asl ∧ res.toNat = 2 * v.toNat % 256 ∧ c = decide (128 ≤ v.toNat)) ∨
    (i.mnemonic = .lsr ∧ res.toNat = v.toNat / 2 ∧ c = decide (v.toNat % 2 = 1)) ∨
    (i.mnemonic = .rol ∧ res.toNat = (2 * v.toNat + s.flags.C.toNat) % 256 ∧
      c = decide (128 ≤ v.toNat)) ∨
    (i.mnemonic = .ror ∧ res.toNat = v.toNat / 2 + 128 * s.flags.C.toNat ∧
      c = decide (v.toNat % 2 = 1)) →
    let flags := { s.flags with C := c }.setZN s.params.znPolicy res
    (i.mode = .accumulator → v = s.A →
      exec i s = .next { s with A := res, flags := flags, CYC := s.CYC + 2 }) ∧
    (∀ r ea s2, s.bus.mem.wf = true → resolve i.mode i.param s = .ok r s1 → r.ea = some ea →
      memRead ea s1 = .ok v s2 →
      ∃ t, memWrite ea res s2 = .ok () t ∧
        exec i s =
          .next { s with flags := flags, CYC := s.CYC + i.row.cycles, bus := t.bus } ∧
        (∀ a, ¬ s.storeReaches ea a → t.byteAt a = s.byteAt a) ∧
        ∀ a, s.storeReaches ea a → t.byteAt a = some res) ∧
    (∀ e, resolve i.mode i.param s = .err e s1 → exec i s = .fault (.raised e s1.bus)) ∧
    (∀ r ea e t, resolve i.mode i.param s = .ok r s1 → r.ea = some ea → memRead ea s1 = .err e t →
      exec i s = .fault (.raised e s1.bus))

/-- PHA and PHP write A, or toByte() with bits 5 and 4 set to 1, at 0x0100|SP, leave SP - 1 and CYC + 3,
and change no other register and no flag; every byte the store does not reach reads as before. A failing
write faults with its error. -/
def Obligations.PushInstructions : Prop :=
  ∀ s : State, s.bus.mem.wf = true →
    (∀ t, memWrite (stackAddress s.SP) s.A s = .ok () t →
      exec .pha s = .next { s with SP := s.SP - 1, CYC := s.CYC + 3, bus := t.bus } ∧
      (∀ a, ¬ s.storeReaches (stackAddress s.SP) a → t.byteAt a = s.byteAt a) ∧
      ∀ a, s.storeReaches (stackAddress s.SP) a → t.byteAt a = some s.A) ∧
    (∀ e t, memWrite (stackAddress s.SP) s.A s = .err e t → exec .pha s = .fault (.raised e s.bus)) ∧
    encode .pha = [0x48] ∧
    (∀ t, memWrite (stackAddress s.SP) (s.flags.toByte ||| 0x30) s = .ok () t →
      exec .php s = .next { s with SP := s.SP - 1, CYC := s.CYC + 3, bus := t.bus } ∧
      (∀ a, ¬ s.storeReaches (stackAddress s.SP) a → t.byteAt a = s.byteAt a) ∧
      ∀ a, s.storeReaches (stackAddress s.SP) a → t.byteAt a = some (s.flags.toByte ||| 0x30)) ∧
    (∀ e t, memWrite (stackAddress s.SP) (s.flags.toByte ||| 0x30) s = .err e t → exec .php s = .fault (.raised e s.bus)) ∧
    encode .php = [0x08]

/-- PLA and PLP read the byte at 0x0100 | (SP + 1 mod 256) and leave SP + 1 and CYC + 4: PLA puts it in
A with Z and N by SetZN, PLP loads N V D I Z C from bits 7 6 3 2 1 0 and keeps B1 and B2; every other
register and flag and all of memory are unchanged. A failing read faults with its error. -/
def Obligations.PullInstructions : Prop :=
  ∀ s : State,
    (∀ v t, memRead (stackAddress (s.SP + 1)) s = .ok v t →
      exec .pla s =
        .next { s with A := v, SP := s.SP + 1, flags := s.flags.setZN s.params.znPolicy v,
                       CYC := s.CYC + 4, bus := t.bus } ∧
      exec .plp s =
        .next { s with SP := s.SP + 1, CYC := s.CYC + 4, bus := t.bus,
                       flags := { N := v.getLsbD 7, V := v.getLsbD 6, B1 := s.flags.B1, B2 := s.flags.B2,
                                  D := v.getLsbD 3, I := v.getLsbD 2, Z := v.getLsbD 1, C := v.getLsbD 0 } } ∧
      ∀ a, t.byteAt a = s.byteAt a) ∧
    (∀ e t, memRead (stackAddress (s.SP + 1)) s = .err e t →
      exec .pla s = .fault (.raised e s.bus) ∧ exec .plp s = .fault (.raised e s.bus)) ∧
    encode .pla = [0x68] ∧ encode .plp = [0x28]

/-- JMP absolute sets PC to the parameter in every state, CYC + 3; JMP indirect sets PC to the word
Read16PageWrap gives, CYC + 5; every other register, every flag and all of memory are unchanged. A
failing pointer read faults with its error. -/
def Obligations.JumpInstruction : Prop :=
  ∀ (s : State) (p : Word),
    encode (.jmpAbs p) = [0x4C, lo p, hi p] ∧ encode (.jmpInd p) = [0x6C, lo p, hi p] ∧
    exec (.jmpAbs p) s = .next { s with PC := p, CYC := s.CYC + 3 } ∧
    (∀ ea s1, read16PageWrap p s = .ok ea s1 →
      exec (.jmpInd p) s = .next { s with PC := ea, CYC := s.CYC + 5, bus := s1.bus } ∧
      ∀ a, s1.byteAt a = s.byteAt a) ∧
    ∀ e s1, read16PageWrap p s = .err e s1 → exec (.jmpInd p) s = .fault (.raised e s1.bus)

/-- JSR writes the high then the low byte of NextPC - 1 at 0x0100|SP and 0x0100|(SP-1), leaves SP - 2
and PC at the parameter, CYC + 6, and changes no flag and no other register; every byte the two stores
do not reach reads as before. If the second write fails, the fault leaves the bus with the first byte
written. In the state JSR runs in, PC is NextPC. -/
def Obligations.CallInstruction : Prop :=
  (∀ p, encode (.jsrAbs p) = [0x20, lo p, hi p]) ∧
  ∀ (s : State) (p : Word), s.bus.mem.wf = true →
    let a1 := stackAddress s.SP
    let a2 := stackAddress (s.SP - 1)
    let h : Byte := BitVec.ofNat 8 ((s.PC - 1).toNat / 256)
    let l : Byte := BitVec.ofNat 8 ((s.PC - 1).toNat % 256)
    (∀ e t, memWrite a1 h s = .err e t → exec (.jsrAbs p) s = .fault (.raised e s.bus)) ∧
    (∀ t, memWrite a1 h s = .ok () t →
      (∀ e u, memWrite a2 l t = .err e u → exec (.jsrAbs p) s = .fault (.raised e t.bus)) ∧
      (∀ u, memWrite a2 l t = .ok () u →
        exec (.jsrAbs p) s =
          .next { s with PC := p, SP := s.SP - 2, CYC := s.CYC + 6, bus := u.bus } ∧
        (∀ a, ¬ s.storeReaches a1 a → ¬ s.storeReaches a2 a → u.byteAt a = s.byteAt a) ∧
        (∀ a, s.storeReaches a2 a → u.byteAt a = some l) ∧
        (∀ a, s.storeReaches a1 a → ¬ s.storeReaches a2 a → u.byteAt a = some h)))

/-- RTS reads the low byte at 0x0100|(SP+1) and the high byte at 0x0100|(SP+2), sets PC to the word plus
1 mod 65536, SP + 2, CYC + 6, and changes no flag, no other register and no byte of memory. A failing
read faults with its error, the bus as the reads before it left it. -/
def Obligations.ReturnFromCallInstruction : Prop :=
  encode .rts = [0x60] ∧
  ∀ s : State,
    (∀ l t h u, memRead (stackAddress (s.SP + 1)) s = .ok l t →
      memRead (stackAddress (s.SP + 2)) t = .ok h u →
      exec .rts s =
        .next { s with PC := BitVec.ofNat 16 (l.toNat + 256 * h.toNat + 1), SP := s.SP + 2,
                       CYC := s.CYC + 6, bus := u.bus } ∧
      ∀ a, u.byteAt a = s.byteAt a) ∧
    (∀ e t, memRead (stackAddress (s.SP + 1)) s = .err e t → exec .rts s = .fault (.raised e s.bus)) ∧
    (∀ l t e u, memRead (stackAddress (s.SP + 1)) s = .ok l t →
      memRead (stackAddress (s.SP + 2)) t = .err e u → exec .rts s = .fault (.raised e t.bus))

/-- Whatever I holds, BRK writes the high byte, the low byte of NextPC + 1 (PCfetch + 2) and toByte()
with bits 5 and 4 set at the three stack bytes downward from 0x0100|SP, sets I, loads PC from 0xFFFE and
0xFFFF (low byte first), leaves SP - 3 and CYC + 7; D, B1, B2, every other flag and register and every
byte the three stores do not reach are unchanged. A failing access faults with its error, the accesses
before it standing. In the state BRK runs in, PC is NextPC. -/
def Obligations.BreakInstruction : Prop :=
  encode .brk = [0x00] ∧
  ∀ s : State, s.bus.mem.wf = true →
    let ret := s.PC + 1
    let a1 := stackAddress s.SP
    let a2 := stackAddress (s.SP - 1)
    let a3 := stackAddress (s.SP - 2)
    let st := s.flags.toByte ||| 0x30
    (∀ e t, memWrite a1 (hi ret) s = .err e t → exec .brk s = .fault (.raised e s.bus)) ∧
    ∀ t1, memWrite a1 (hi ret) s = .ok () t1 →
    (∀ e t, memWrite a2 (lo ret) t1 = .err e t → exec .brk s = .fault (.raised e t1.bus)) ∧
    ∀ t2, memWrite a2 (lo ret) t1 = .ok () t2 →
    (∀ e t, memWrite a3 st t2 = .err e t → exec .brk s = .fault (.raised e t2.bus)) ∧
    ∀ t3, memWrite a3 st t2 = .ok () t3 →
    (∀ a, ¬ s.storeReaches a1 a → ¬ s.storeReaches a2 a → ¬ s.storeReaches a3 a →
      t3.byteAt a = s.byteAt a) ∧
    (∀ a, s.storeReaches a3 a → t3.byteAt a = some st) ∧
    (∀ e t, memRead 0xFFFE t3 = .err e t → exec .brk s = .fault (.raised e t3.bus)) ∧
    ∀ l t4, memRead 0xFFFE t3 = .ok l t4 →
    (∀ e t, memRead 0xFFFF t4 = .err e t → exec .brk s = .fault (.raised e t4.bus)) ∧
    ∀ h t5, memRead 0xFFFF t4 = .ok h t5 →
      exec .brk s =
        .next { s with PC := BitVec.ofNat 16 (l.toNat + 256 * h.toNat), SP := s.SP - 3,
                       flags := { s.flags with I := true }, CYC := s.CYC + 7, bus := t5.bus } ∧
      ∀ a, t5.byteAt a = t3.byteAt a

/-- RTI reads three stack bytes upward from 0x0100|(SP+1): the status, from which N V D I Z C are loaded
with B1 and B2 kept, then the low and the high byte of PC, which is not incremented; SP + 3, CYC + 6,
every other register and all of memory unchanged. A failing read faults with its error. -/
def Obligations.ReturnFromTrapInstruction : Prop :=
  encode .rti = [0x40] ∧
  ∀ s : State,
    (∀ e t, memRead (stackAddress (s.SP + 1)) s = .err e t → exec .rti s = .fault (.raised e s.bus)) ∧
    ∀ b t, memRead (stackAddress (s.SP + 1)) s = .ok b t →
    (∀ e u, memRead (stackAddress (s.SP + 2)) t = .err e u → exec .rti s = .fault (.raised e t.bus)) ∧
    ∀ l u, memRead (stackAddress (s.SP + 2)) t = .ok l u →
    (∀ e w, memRead (stackAddress (s.SP + 3)) u = .err e w → exec .rti s = .fault (.raised e u.bus)) ∧
    ∀ h w, memRead (stackAddress (s.SP + 3)) u = .ok h w →
      exec .rti s =
        .next { s with PC := BitVec.ofNat 16 (l.toNat + 256 * h.toNat), SP := s.SP + 3,
                       CYC := s.CYC + 6, bus := w.bus,
                       flags := { N := b.getLsbD 7, V := b.getLsbD 6, B1 := s.flags.B1, B2 := s.flags.B2,
                                  D := b.getLsbD 3, I := b.getLsbD 2, Z := b.getLsbD 1, C := b.getLsbD 0 } } ∧
      ∀ a, w.byteAt a = s.byteAt a

/-- Where the stack bytes are distinct RAM cells: RTS run in the state JSR leaves returns to NextPC of
the JSR with every register and flag as before it, and RTI run in the state BRK leaves returns to
PCfetch + 2 of the BRK with every register and flag, I among them, as before it; CYC has advanced by
both costs. -/
def Obligations.CallAndTrapReturn : Prop :=
  (∀ (s t : State) (p : Word), s.bus.mem.wf = true →
    s.ramCell (stackAddress s.SP) ≠ none → s.ramCell (stackAddress (s.SP - 1)) ≠ none →
    s.ramCell (stackAddress s.SP) ≠ s.ramCell (stackAddress (s.SP - 1)) →
    exec (.jsrAbs p) s = .next t →
    exec .rts t = .next { s with CYC := s.CYC + 12, bus := t.bus }) ∧
  (∀ (s t : State), s.bus.mem.wf = true →
    s.ramCell (stackAddress s.SP) ≠ none → s.ramCell (stackAddress (s.SP - 1)) ≠ none →
    s.ramCell (stackAddress (s.SP - 2)) ≠ none →
    s.ramCell (stackAddress s.SP) ≠ s.ramCell (stackAddress (s.SP - 1)) →
    s.ramCell (stackAddress s.SP) ≠ s.ramCell (stackAddress (s.SP - 2)) →
    s.ramCell (stackAddress (s.SP - 1)) ≠ s.ramCell (stackAddress (s.SP - 2)) →
    exec .brk s = .next t →
    exec .rti t = .next { s with PC := s.PC + 1, CYC := s.CYC + 13, bus := t.bus })

/-- Each branch completes in every state. If its condition holds, PC becomes NextPC plus the signed
offset mod 65536 at a cost of 3 cycles, 4 if the target lies in another page than NextPC; if not, PC
stays NextPC at a cost of 2. No flag, no other register and no byte of memory changes. In the state a
branch runs in, PC is NextPC. -/
def Obligations.BranchInstructions : Prop :=
  ∀ (s : State) (p : Byte),
    let target : Word := BitVec.ofInt 16 (s.PC.toNat + p.toInt)
    let branch (cond : Bool) : Answer :=
      if cond then
        .next { s with PC := target,
                       CYC := s.CYC + if s.PC.toNat / 256 = target.toNat / 256 then 3 else 4 }
      else .next { s with CYC := s.CYC + 2 }
    exec (.bcc p) s = branch (!s.flags.C) ∧ encode (.bcc p) = [0x90, p] ∧
    exec (.bcs p) s = branch (s.flags.C) ∧ encode (.bcs p) = [0xB0, p] ∧
    exec (.beq p) s = branch (s.flags.Z) ∧ encode (.beq p) = [0xF0, p] ∧
    exec (.bmi p) s = branch (s.flags.N) ∧ encode (.bmi p) = [0x30, p] ∧
    exec (.bne p) s = branch (!s.flags.Z) ∧ encode (.bne p) = [0xD0, p] ∧
    exec (.bpl p) s = branch (!s.flags.N) ∧ encode (.bpl p) = [0x10, p] ∧
    exec (.bvc p) s = branch (!s.flags.V) ∧ encode (.bvc p) = [0x50, p] ∧
    exec (.bvs p) s = branch (s.flags.V) ∧ encode (.bvs p) = [0x70, p]

/-- CLC, CLD, CLI, CLV, SEC, SED, SEI complete in every state, write their one flag and leave everything
else but CYC + 2; NOP leaves everything but CYC + 2. -/
def Obligations.FlagInstructions : Prop :=
  ∀ s : State,
    exec .clc s = .next { s with flags := { s.flags with C := false }, CYC := s.CYC + 2 } ∧
    encode .clc = [0x18] ∧
    exec .cld s = .next { s with flags := { s.flags with D := false }, CYC := s.CYC + 2 } ∧
    encode .cld = [0xD8] ∧
    exec .cli s = .next { s with flags := { s.flags with I := false }, CYC := s.CYC + 2 } ∧
    encode .cli = [0x58] ∧
    exec .clv s = .next { s with flags := { s.flags with V := false }, CYC := s.CYC + 2 } ∧
    encode .clv = [0xB8] ∧
    exec .sec s = .next { s with flags := { s.flags with C := true }, CYC := s.CYC + 2 } ∧
    encode .sec = [0x38] ∧
    exec .sed s = .next { s with flags := { s.flags with D := true }, CYC := s.CYC + 2 } ∧
    encode .sed = [0xF8] ∧
    exec .sei s = .next { s with flags := { s.flags with I := true }, CYC := s.CYC + 2 } ∧
    encode .sei = [0x78] ∧
    exec .nop s = .next { s with CYC := s.CYC + 2 } ∧ encode .nop = [0xEA]

/-- When an instruction completes, CYC has advanced by the cycles of its row plus 1 if the row has the
page-cross penalty and the page was crossed; a branch by 2, or by 3 or 4 when taken. The penalty stands
exactly on the nine READ mnemonics in the three indexed modes of R197. Every step that completes
advances CYC by 2 to 7. -/
def Obligations.CycleAccounting : Prop :=
  (∀ (i : Instr) (s t : State), exec i s = .next t →
    ∃ r s1, resolve i.mode i.param s = .ok r s1 ∧
      (i.mnemonic.operandClass ≠ .branch →
        t.CYC = s.CYC + i.row.cycles + if i.row.pageCross ∧ r.crossed then 1 else 0) ∧
      (i.mnemonic.operandClass = .branch → i.row.cycles = 2 ∧
        (t = { s with CYC := s.CYC + 2 } ∨
         ∃ ea, r.ea = some ea ∧
           t = { s with PC := ea, CYC := s.CYC + 2 + if r.crossed then 2 else 1 }))) ∧
  (∀ i : Instr, i.row.pageCross = true ↔
    i.mnemonic ∈ [.adc, .and, .cmp, .eor, .lda, .ldx, .ldy, .ora, .sbc] ∧
    i.mode ∈ [.indexedAbsoluteX, .indexedAbsoluteY, .indexedIndirectY]) ∧
  ∀ s t : State, step s = .next t → s.CYC + 2 ≤ t.CYC ∧ t.CYC ≤ s.CYC + 7

/-- After a step that completes PC is PCfetch + 1 + parameterSize(mode) mod 65536, the byte after the
instruction, unless the instruction is JMP, JSR, RTS, BRK, RTI or a branch. -/
def Obligations.NextProgramCounter : Prop :=
  ∀ s t : State, step s = .next t →
    ∃ i s1, fetch s = .ok i s1 ∧ s1.PC = BitVec.ofNat 16 (s.PC.toNat + 1 + i.mode.parameterSize) ∧
      (t.PC = s1.PC ∨ i.mnemonic ∈ [.jmp, .jsr, .rts, .brk, .rti] ∨ i.mnemonic.operandClass = .branch)

/-- When an instruction completes, a flag that changed is one the instruction is listed for in R44: N
and Z by the result-writing instructions, V by ADC SBC BIT CLV PLP RTI, D by SED CLD PLP RTI, I by SEI
CLI PLP RTI BRK, C by the carry-writing ones; B1 and B2 by none. -/
def Obligations.FlagWriters : Prop :=
  ∀ (i : Instr) (s t : State), exec i s = .next t →
    (t.flags.N ≠ s.flags.N ∨ t.flags.Z ≠ s.flags.Z → i.mnemonic ∈
      [.adc, .sbc, .and, .ora, .eor, .lda, .ldx, .ldy, .tax, .tay, .txa, .tya, .tsx, .pla, .inc, .dec,
        .inx, .iny, .dex, .dey, .asl, .lsr, .rol, .ror, .cmp, .cpx, .cpy, .bit, .plp, .rti]) ∧
    (t.flags.V ≠ s.flags.V → i.mnemonic ∈ [.adc, .sbc, .bit, .clv, .plp, .rti]) ∧
    (t.flags.B1 = s.flags.B1 ∧ t.flags.B2 = s.flags.B2) ∧
    (t.flags.D ≠ s.flags.D → i.mnemonic ∈ [.sed, .cld, .plp, .rti]) ∧
    (t.flags.I ≠ s.flags.I → i.mnemonic ∈ [.sei, .cli, .plp, .rti, .brk]) ∧
    (t.flags.C ≠ s.flags.C → i.mnemonic ∈
      [.adc, .sbc, .asl, .lsr, .rol, .ror, .cmp, .cpx, .cpy, .clc, .sec, .plp, .rti])

/-- When an instruction completes, A, X, Y and SP have changed only if the instruction is one the
register's rule lists as writing it. -/
def Obligations.RegisterWriters : Prop :=
  ∀ (i : Instr) (s t : State), exec i s = .next t →
    (t.A ≠ s.A → i.mnemonic ∈ [.lda, .pla, .txa, .tya, .adc, .sbc, .and, .ora, .eor] ∨
      (i.mnemonic ∈ [.asl, .lsr, .rol, .ror] ∧ i.mode = .accumulator)) ∧
    (t.X ≠ s.X → i.mnemonic ∈ [.ldx, .tax, .tsx, .inx, .dex]) ∧
    (t.Y ≠ s.Y → i.mnemonic ∈ [.ldy, .tay, .iny, .dey]) ∧
    (t.SP ≠ s.SP → i.mnemonic ∈ [.txs, .pha, .php, .pla, .plp, .jsr, .rts, .brk, .rti])

/-- When an instruction completes, memory has changed only if it is a store, a read-modify-write in a
memory mode, PHA, PHP, JSR or BRK; PHA and PHP change only bytes that a store to 0x0100|SP reaches, JSR
only those of 0x0100|SP and 0x0100|(SP-1), BRK those and 0x0100|(SP-2), the others only bytes that a
store to the effective address reaches. -/
def Obligations.MemoryWriters : Prop :=
  ∀ (i : Instr) (s t : State), exec i s = .next t →
    (t.bus.mem ≠ s.bus.mem → i.mode ≠ .accumulator ∧ i.mnemonic ∈
      [.sta, .stx, .sty, .inc, .dec, .asl, .lsr, .rol, .ror, .pha, .php, .jsr, .brk]) ∧
    (s.bus.mem.wf = true → ∀ a, ¬ s.storeReaches (stackAddress s.SP) a →
      (i.mnemonic = .pha ∨ i.mnemonic = .php → t.byteAt a = s.byteAt a) ∧
      (¬ s.storeReaches (stackAddress (s.SP - 1)) a →
        (i.mnemonic = .jsr → t.byteAt a = s.byteAt a) ∧
        (¬ s.storeReaches (stackAddress (s.SP - 2)) a → i.mnemonic = .brk →
          t.byteAt a = s.byteAt a))) ∧
    (s.bus.mem.wf = true → ∀ r s1 ea, resolve i.mode i.param s = .ok r s1 → r.ea = some ea →
      i.mnemonic ∈ [.sta, .stx, .sty, .inc, .dec, .asl, .lsr, .rol, .ror] →
      ∀ a, ¬ s.storeReaches ea a → t.byteAt a = s.byteAt a)

/-- From every state whose backing store is in canonical form (cells strictly rising, none equal to what
an unlisted cell reads as) and whose chunk list is valid, a step that completes leads to such a state.
-/
def Obligations.StepKeepsInvariant : Prop :=
  ∀ s t : State, s.Inv → step s = .next t → t.Inv

/-- A fresh core meets the invariant and every host operation (chunk definition, reset, register writes,
interrupt entry, direct bus access, device events, steps with or without an error) keeps it.
defineChunks replaces the list wholesale if every chunk lies inside the address space and else fails,
leaving the configuration. -/
def Obligations.SessionKeepsInvariant : Prop :=
  (∀ (o : HostOp) (s : State), s.Inv → (hostOp o s).Inv) ∧
  (∀ (cs : List Chunk) (s : State),
    (chunksWf cs = true → defineChunks cs s = some { s with bus := { s.bus with chunks := some cs } }) ∧
    (chunksWf cs = false → defineChunks cs s = none ∧ hostOp (.defineChunks cs) s = s)) ∧
  ∀ p : Params, (State.fresh p).Inv

/-- After reset A, X, Y are 0, SP is 0xFD, toByte() is 0x24, CYC is 7, the fault record is empty, the
core runs and the invariant holds; it is the state the reset procedure leaves of a fresh core with the
model's chunk list and empty backing store (the chunk list and the unlisted byte 0x00, from which PC =
0x0000 follows, are the model's choices, log entries 1 and 2; the free count is the model's own, entry
6). -/
def Obligations.ResetState : Prop :=
  State.reset.Inv ∧ State.reset.Running ∧
  (State.reset.A = 0 ∧ State.reset.X = 0 ∧ State.reset.Y = 0 ∧ State.reset.SP = 0xFD ∧
    State.reset.flags.toByte = 0x24 ∧ State.reset.CYC = 7 ∧ State.reset.fault = none) ∧
  Res.settle (powerOnReset { State.fresh Config.params with
    bus := { chunks := some Config.chunks, mem := [], io := [] } }) =
      { State.reset with free := (State.fresh Config.params).free }

/-- Whatever the state, reset sets A, X, Y to the P_AXY_RESET values, SP to 0xFD, the flags to 0x24, CYC
to 7, empties the fault record, and takes PC from the host, or from 0xFFFC and 0xFFFD (low byte first),
with no other bus access and no memory written; a failing vector read is recorded as the error of the
core. Chunk list and memory are kept. -/
def Obligations.ResetProcedure : Prop :=
  ∀ s : State,
    let s1 : State :=
      { s with fault := none, A := s.params.aReset, X := s.params.xReset, Y := s.params.yReset,
               SP := 0xFD, CYC := 7, resetMade := true,
               flags := { N := false, V := false, B1 := true, B2 := false, D := false, I := true,
                          Z := false, C := false } }
    (∀ pc, s.params.entry = .host pc → hostOp .reset s = { s1 with PC := pc }) ∧
    (s.params.entry = .vector →
      (∀ l t h u, memRead 0xFFFC s = .ok l t → memRead 0xFFFD t = .ok h u →
        hostOp .reset s =
          { s1 with PC := BitVec.ofNat 16 (l.toNat + 256 * h.toNat), bus := u.bus } ∧
        u.bus.chunks = s.bus.chunks ∧ u.bus.mem = s.bus.mem ∧ ∀ a, u.byteAt a = s.byteAt a) ∧
      (∀ e t, memRead 0xFFFC s = .err e t →
        (hostOp .reset s).fault = some e ∧ (hostOp .reset s).bus = s.bus) ∧
      (∀ l t e u, memRead 0xFFFC s = .ok l t → memRead 0xFFFD t = .err e u →
        (hostOp .reset s).fault = some e ∧ (hostOp .reset s).bus = t.bus))

/-- An IRQ with I = 1 changes nothing. Otherwise the entry pushes PC, high byte first, and toByte() with
bit 4 = 0 and bit 5 = 1, sets I, loads PC from 0xFFFA (NMI) or 0xFFFE (IRQ), leaves SP - 3 and CYC + 7;
every other register and flag and every byte the three stores do not reach is unchanged. At a boundary
reset comes before NMI before IRQ; an NMI edge is used up, an IRQ level is kept. An error of an access
is recorded as the error of a step is, the accesses before it standing. The statement is about a stuck
core too: that the entry runs there and that its error replaces the one recorded is the model's choice,
log entry 11. -/
def Obligations.InterruptEntry : Prop :=
  ∀ (k : Interrupt) (s : State), s.bus.mem.wf = true →
    let vec : Word := if k = .nmi then 0xFFFA else 0xFFFE
    let a1 := stackAddress s.SP
    let a2 := stackAddress (s.SP - 1)
    let a3 := stackAddress (s.SP - 2)
    (s.flags.I = true → enterInterrupt .irq s = .ok () s) ∧
    (k = .nmi ∨ s.flags.I = false →
      ∀ t1 t2 t3 l t4 h t5, memWrite a1 (hi s.PC) s = .ok () t1 → memWrite a2 (lo s.PC) t1 = .ok () t2 →
        memWrite a3 ((s.flags.toByte &&& 0xEF) ||| 0x20) t2 = .ok () t3 →
        memRead vec t3 = .ok l t4 → memRead (vec + 1) t4 = .ok h t5 →
        enterInterrupt k s =
          .ok () { s with PC := BitVec.ofNat 16 (l.toNat + 256 * h.toNat), SP := s.SP - 3,
                          flags := { s.flags with I := true }, CYC := s.CYC + 7, bus := t5.bus } ∧
        ∀ a, ¬ s.storeReaches a1 a → ¬ s.storeReaches a2 a → ¬ s.storeReaches a3 a →
          t5.byteAt a = s.byteAt a) ∧
    (k = .nmi ∨ s.flags.I = false →
      ∀ e t, memWrite a1 (hi s.PC) s = .err e t → enterInterrupt k s = .err e s) ∧
    (∀ e t, enterInterrupt k s = .err e t →
      (hostOp (.interrupt k) s).fault = some e ∧ (hostOp (.interrupt k) s).bus = t.bus) ∧
    (∀ n q, atBoundary ⟨true, n, q⟩ s = (powerOnReset s, ⟨false, n, q⟩) ∧
      atBoundary ⟨false, true, q⟩ s = (enterInterrupt .nmi s, ⟨false, false, q⟩) ∧
      atBoundary ⟨false, false, true⟩ s = (enterInterrupt .irq s, ⟨false, false, true⟩) ∧
      atBoundary ⟨false, false, false⟩ s = (.ok () s, ⟨false, false, false⟩))

/-- The record of a step that completes holds the address of the opcode byte, the mnemonic and mode, the
raw parameter (none where the mode has no parameter byte), and the resolved parameter: none for IMPLICIT
and ACCUMULATOR, the parameter for IMMEDIATE, the effective address for every other mode (the target of
a branch, taken or not). A step that fails has no record. The trace changes no state. -/
def Obligations.TraceRecordOfAStep : Prop :=
  ∀ (s : State) (i : Instr) (s1 t : State), fetch s = .ok i s1 → step s = .next t →
    (∃ res, stepWithTrace s =
      .next (t, some { pcFetch := s.PC, mnemonic := i.mnemonic, mode := i.mode,
                       raw := if i.length = 1 then none else some i.param, resolved := res }) ∧
      (i.mode = .implicit ∨ i.mode = .accumulator → res = none) ∧
      (i.mode = .immediate → res = some i.param) ∧
      (i.length ≠ 1 → i.mode ≠ .immediate →
        ∃ r s2 ea, resolve i.mode i.param s1 = .ok r s2 ∧ r.ea = some ea ∧ res = some ea)) ∧
    ∀ u : State, (∀ v, step u ≠ .next v) → stepTrace u = none

/-- A step that completes leaves the core running, the chunk list, the parameters, B1 and B2 as they
were, and what devices have seen before stands, with the new accesses in front. -/
def Obligations.StepKeepsConfiguration : Prop :=
  ∀ s t : State, step s = .next t →
    t.Running ∧ t.bus.chunks = s.bus.chunks ∧ t.params = s.params ∧ t.free = s.free ∧
    t.flags.B1 = s.flags.B1 ∧ t.flags.B2 = s.flags.B2 ∧ (∃ new, t.bus.io = new ++ s.bus.io)

/-- However many steps the core makes, a byte that no RAM chunk makes writable (a ROM image byte without
a RAM window on it) keeps its value. -/
def Obligations.RomNeverChanges : Prop :=
  ∀ s t : State, s.bus.mem.wf = true → Reaches s t →
    ∀ k, (∀ a, s.ramCell a ≠ some k) → t.bus.mem.get k = s.bus.mem.get k

/-- A running core's step that stops raises ConfigurationError(read) with chunks undefined,
UnmappedAddress of an address no chunk covers, UnknownOpcode of an unassigned byte with PCfetch, or
DecimalModeRefused of ADC or SBC with PCfetch where P_DECIMAL refuses and D = 1. NoEffectiveAddress is
never reached, and no other error exists. -/
def Obligations.OnlyTheErrorsOfTheSpec : Prop :=
  ∀ (s : State) (e : CoreError) (left : Bus), s.fault = none → step s = .fault (.raised e left) →
    (e = .configurationError .read ∧ s.bus.chunks = none) ∨
    (∃ a k, e = .unmappedAddress a k ∧ ¬ s.mapped a ∧ s.bus.chunks ≠ none) ∨
    (∃ op, e = .unknownOpcode op s.PC ∧ formOf op = none) ∨
    (∃ i : Instr, e = .decimalModeRefused i.opcode s.PC ∧ (i.mnemonic = .adc ∨ i.mnemonic = .sbc) ∧
      s.refusesDecimal)

/-- For each of the 151 instruction forms with any operand, in every state whose chunks cover every
address (and for ADC and SBC where decimal arithmetic is not refused), exec answers a next state, with
no error recorded, the chunk list kept and CYC advanced. -/
def Obligations.EveryInstructionCompletes : Prop :=
  ∀ (i : Instr) (s : State), (∀ a, s.mapped a) →
    (s.refusesDecimal → i.mnemonic ≠ .adc ∧ i.mnemonic ≠ .sbc) →
    ∃ t, exec i s = .next t ∧ t.fault = s.fault ∧ t.bus.chunks = s.bus.chunks ∧ s.CYC < t.CYC

/-- Two states that differ in B1 and B2 only take the same step: the same error with the same bus, or
next states that differ in B1 and B2 only, with the same accesses and the same bytes pushed. -/
def Obligations.BreakFlagsAreInvisible : Prop :=
  ∀ (s : State) (b1 b2 : Bool),
    (∀ t, step s = .next t → step (s.withBreaks b1 b2) = .next (t.withBreaks b1 b2)) ∧
    (∀ f, step s = .fault f → step (s.withBreaks b1 b2) = .fault f)

/-- Two states that differ in CYC only take the same step: the same error with the same bus, or next
states that differ in CYC only, each advanced by the same cost. -/
def Obligations.CycleCounterIsInvisible : Prop :=
  ∀ (s : State) (n : Nat),
    (∀ t, step s = .next t → step { s with CYC := n } = .next { t with CYC := n + (t.CYC - s.CYC) }) ∧
    (∀ f, step s = .fault f → step { s with CYC := n } = .fault f)
end

