-- ==== Sys2Proof/Laws/State.lean ====
section
/-! SUPPORT. One lemma per field for the named updates of State, and the small lemmas of `Res`. -/

namespace Sys2Proof.Machine

/-! ## Res -/

@[simp] theorem Res.andThen_ok {α β : Type} (a : α) (s : State) (f : α → State → Res β) :
    (Res.ok a s).andThen f = f a s := rfl

@[simp] theorem Res.andThen_err {α β : Type} (e : CoreError) (s : State) (f : α → State → Res β) :
    (Res.err e s : Res α).andThen f = .err e s := rfl

@[simp] theorem Res.outcome_ok (a : Unit) (s : State) : (Res.ok a s).outcome = .next s := rfl

@[simp] theorem Res.outcome_err (e : CoreError) (s : State) :
    (Res.err e s : Res Unit).outcome = .fault (.raised e s.bus) := rfl

/-- A sequence that ends well is two parts that end well. -/
theorem Res.andThen_eq_ok {α β : Type} {r : Res α} {f : α → State → Res β} {b : β} {t : State} :
    r.andThen f = .ok b t ↔ ∃ a s, r = .ok a s ∧ f a s = .ok b t := by
  cases r with
  | ok a s => exact ⟨fun h => ⟨a, s, rfl, h⟩, by rintro ⟨_, _, h, h'⟩; cases h; exact h'⟩
  | err e s => exact ⟨(by intro h; cases h), by rintro ⟨_, _, h, _⟩; cases h⟩

/-- A sequence that ends in an error ends in the first part's or in the second's. -/
theorem Res.andThen_eq_err {α β : Type} {r : Res α} {f : α → State → Res β} {e : CoreError}
    {t : State} :
    r.andThen f = .err e t ↔ r = .err e t ∨ ∃ a s, r = .ok a s ∧ f a s = .err e t := by
  cases r with
  | ok a s =>
    refine ⟨fun h => .inr ⟨a, s, rfl, h⟩, ?_⟩
    rintro (h | ⟨_, _, h, h'⟩)
    · cases h
    · cases h; exact h'
  | err e' s =>
    refine ⟨fun h => .inl (by cases h; rfl), ?_⟩
    rintro (h | ⟨_, _, h, _⟩)
    · cases h; rfl
    · cases h

theorem Res.outcome_eq_next {r : Res Unit} {t : State} :
    r.outcome = .next t ↔ r = .ok () t := by
  cases r with
  | ok a s => exact ⟨(by intro h; cases h; rfl), by intro h; cases h; rfl⟩
  | err e s => exact ⟨(by intro h; cases h), by intro h; cases h⟩

theorem Res.outcome_eq_fault {r : Res Unit} {e : CoreError} {b : Bus} :
    r.outcome = .fault (.raised e b) ↔ ∃ s, r = .err e s ∧ s.bus = b := by
  cases r with
  | ok a s => exact ⟨(by intro h; cases h), by rintro ⟨_, h, _⟩; cases h⟩
  | err e' s => exact ⟨(by intro h; cases h; exact ⟨s, rfl, rfl⟩), by rintro ⟨_, h, rfl⟩; cases h; rfl⟩

theorem Res.outcome_ne_refused (r : Res Unit) (x : Refusal) : r.outcome ≠ .refused x := by
  cases r <;> intro h <;> cases h

/-! ## setZN and account -/

@[simp] theorem State.setZN_A (r : Byte) (s : State) : (s.setZN r).A = s.A := rfl
@[simp] theorem State.setZN_X (r : Byte) (s : State) : (s.setZN r).X = s.X := rfl
@[simp] theorem State.setZN_Y (r : Byte) (s : State) : (s.setZN r).Y = s.Y := rfl
@[simp] theorem State.setZN_SP (r : Byte) (s : State) : (s.setZN r).SP = s.SP := rfl
@[simp] theorem State.setZN_PC (r : Byte) (s : State) : (s.setZN r).PC = s.PC := rfl
@[simp] theorem State.setZN_CYC (r : Byte) (s : State) : (s.setZN r).CYC = s.CYC := rfl
@[simp] theorem State.setZN_bus (r : Byte) (s : State) : (s.setZN r).bus = s.bus := rfl
@[simp] theorem State.setZN_fault (r : Byte) (s : State) : (s.setZN r).fault = s.fault := rfl
@[simp] theorem State.setZN_resetMade (r : Byte) (s : State) : (s.setZN r).resetMade = s.resetMade := rfl
@[simp] theorem State.setZN_params (r : Byte) (s : State) : (s.setZN r).params = s.params := rfl
@[simp] theorem State.setZN_free (r : Byte) (s : State) : (s.setZN r).free = s.free := rfl
@[simp] theorem State.setZN_flags (r : Byte) (s : State) :
    (s.setZN r).flags = s.flags.setZN s.params.znPolicy r := rfl

@[simp] theorem State.account_A (n : Nat) (s : State) : (s.account n).A = s.A := rfl
@[simp] theorem State.account_X (n : Nat) (s : State) : (s.account n).X = s.X := rfl
@[simp] theorem State.account_Y (n : Nat) (s : State) : (s.account n).Y = s.Y := rfl
@[simp] theorem State.account_SP (n : Nat) (s : State) : (s.account n).SP = s.SP := rfl
@[simp] theorem State.account_PC (n : Nat) (s : State) : (s.account n).PC = s.PC := rfl
@[simp] theorem State.account_CYC (n : Nat) (s : State) : (s.account n).CYC = s.CYC + n := rfl
@[simp] theorem State.account_bus (n : Nat) (s : State) : (s.account n).bus = s.bus := rfl
@[simp] theorem State.account_fault (n : Nat) (s : State) : (s.account n).fault = s.fault := rfl
@[simp] theorem State.account_resetMade (n : Nat) (s : State) : (s.account n).resetMade = s.resetMade := rfl
@[simp] theorem State.account_params (n : Nat) (s : State) : (s.account n).params = s.params := rfl
@[simp] theorem State.account_free (n : Nat) (s : State) : (s.account n).free = s.free := rfl
@[simp] theorem State.account_flags (n : Nat) (s : State) : (s.account n).flags = s.flags := rfl

/-! ## recordError (R200, R327) -/

@[simp] theorem State.recordError_bus (e : CoreError) (b : Bus) (s : State) :
    (s.recordError e b).bus = b := rfl
@[simp] theorem State.recordError_fault (e : CoreError) (b : Bus) (s : State) :
    (s.recordError e b).fault = some e := rfl
@[simp] theorem State.recordError_resetMade (e : CoreError) (b : Bus) (s : State) :
    (s.recordError e b).resetMade = s.resetMade := rfl
@[simp] theorem State.recordError_params (e : CoreError) (b : Bus) (s : State) :
    (s.recordError e b).params = s.params := rfl

end Sys2Proof.Machine
end

