-- ==== Sys2Proof/Laws/Flags.lean ====
section
/-! SUPPORT. The laws of the flags register: what each flag operation changes and leaves. -/

namespace Sys2Proof.Machine

/-- `load(toByte())` leaves all eight flags unchanged (R40). -/
theorem Flags.load_toByte (f : Flags) : Flags.load f.toByte = f := by
  obtain ⟨N, V, B1, B2, D, I, Z, C⟩ := f
  cases N <;> cases V <;> cases B1 <;> cases B2 <;> cases D <;> cases I <;> cases Z <;> cases C <;> rfl

/-- SetZN writes Z and N only (R41, R42). -/
theorem Flags.setZN_frame (p : ZnPolicy) (r : Byte) (f : Flags) :
    f.setZN p r = { f with Z := (f.setZN p r).Z, N := (f.setZN p r).N } := by
  cases p <;> rfl

@[simp] theorem Flags.setZN_V (p : ZnPolicy) (r : Byte) (f : Flags) : (f.setZN p r).V = f.V := by
  cases p <;> rfl
@[simp] theorem Flags.setZN_B1 (p : ZnPolicy) (r : Byte) (f : Flags) : (f.setZN p r).B1 = f.B1 := by
  cases p <;> rfl
@[simp] theorem Flags.setZN_B2 (p : ZnPolicy) (r : Byte) (f : Flags) : (f.setZN p r).B2 = f.B2 := by
  cases p <;> rfl
@[simp] theorem Flags.setZN_D (p : ZnPolicy) (r : Byte) (f : Flags) : (f.setZN p r).D = f.D := by
  cases p <;> rfl
@[simp] theorem Flags.setZN_I (p : ZnPolicy) (r : Byte) (f : Flags) : (f.setZN p r).I = f.I := by
  cases p <;> rfl
@[simp] theorem Flags.setZN_C (p : ZnPolicy) (r : Byte) (f : Flags) : (f.setZN p r).C = f.C := by
  cases p <;> rfl

@[simp] theorem Flags.pulled_B1 (b : Byte) (f : Flags) : (f.pulled b).B1 = f.B1 := rfl
@[simp] theorem Flags.pulled_B2 (b : Byte) (f : Flags) : (f.pulled b).B2 = f.B2 := rfl

end Sys2Proof.Machine
end

