-- ==== Sys2Proof/Laws/Memory.lean ====
section
/-! SUPPORT. The laws of the backing store: a read after a write, and the canonical form. -/

namespace Sys2Proof.Machine

@[simp] theorem Memory.get_nil (i : Nat) : Memory.get [] i = unlistedByte := rfl

/-- Every cell listed after the first of a canonical store has a greater number. -/
theorem Memory.wf_cons {k : Nat} {v : Byte} {m : Memory} :
    Memory.wf ((k, v) :: m) = true ↔
      v ≠ unlistedByte ∧ (∀ c ∈ m, k < c.1) ∧ Memory.wf m = true := by
  simp [Memory.wf, and_assoc]

/-- A cell below every listed one reads as an unlisted cell does. -/
theorem Memory.get_of_below : ∀ {m : Memory} {i : Nat}, (∀ c ∈ m, i < c.1) →
    m.get i = unlistedByte
  | [], _, _ => rfl
  | (k, v) :: m, i, h => by
    have hk : i ≠ k := Nat.ne_of_lt (h (k, v) (by simp))
    simp only [Memory.get, if_neg hk]
    exact Memory.get_of_below fun c hc => h c (by simp [hc])

/-- The cells of a store after a write are the old ones and the written one. -/
theorem Memory.mem_set : ∀ {m : Memory} {i : Nat} {b : Byte} {c : Host.Cell},
    c ∈ m.set i b → c ∈ m ∨ c = (i, b)
  | [], i, b, c, h => by
    unfold Memory.set at h
    split at h
    · simp at h
    · simp at h; exact .inr h
  | (k, v) :: m, i, b, c, h => by
    unfold Memory.set at h
    split at h
    · split at h
      · exact .inl h
      · rcases List.mem_cons.1 h with h | h
        · exact .inr h
        · exact .inl h
    · split at h
      · split at h
        · exact .inl (List.mem_cons_of_mem _ h)
        · rcases List.mem_cons.1 h with h | h
          · exact .inr h
          · exact .inl (List.mem_cons_of_mem _ h)
      · rcases List.mem_cons.1 h with h | h
        · exact .inl (by simp [h])
        · rcases Memory.mem_set h with h | h
          · exact .inl (List.mem_cons_of_mem _ h)
          · exact .inr h

/-- A write keeps the canonical form. -/
theorem Memory.set_wf : ∀ {m : Memory} {i : Nat} {b : Byte}, m.wf = true → (m.set i b).wf = true
  | [], i, b, _ => by
    unfold Memory.set
    split
    · rfl
    · rename_i hb
      exact Memory.wf_cons.2 ⟨hb, by simp, rfl⟩
  | (k, v) :: m, i, b, h => by
    obtain ⟨hv, hk, hm⟩ := Memory.wf_cons.1 h
    unfold Memory.set
    split
    · rename_i hik
      split
      · exact h
      · rename_i hb
        refine Memory.wf_cons.2 ⟨hb, ?_, h⟩
        intro c hc
        rcases List.mem_cons.1 hc with rfl | hc
        · exact hik
        · exact Nat.lt_trans hik (hk c hc)
    · split
      · rename_i hik
        subst hik
        split
        · exact hm
        · rename_i hb
          exact Memory.wf_cons.2 ⟨hb, hk, hm⟩
      · rename_i h1 h2
        refine Memory.wf_cons.2 ⟨hv, ?_, Memory.set_wf hm⟩
        intro c hc
        rcases Memory.mem_set hc with hc | rfl
        · exact hk c hc
        · omega

/-- Read after write in a canonical store. -/
theorem Memory.get_set : ∀ {m : Memory} (i j : Nat) (b : Byte), m.wf = true →
    (m.set i b).get j = if j = i then b else m.get j
  | [], i, j, b, _ => by
    unfold Memory.set
    split
    · rename_i hb; simp [hb]
    · simp [Memory.get]
  | (k, v) :: m, i, j, b, h => by
    obtain ⟨hv, hk, hm⟩ := Memory.wf_cons.1 h
    unfold Memory.set
    split
    · rename_i hik
      split
      · rename_i hb
        split
        · rename_i hji
          subst hji hb
          apply Memory.get_of_below
          intro c hc
          rcases List.mem_cons.1 hc with rfl | hc
          · exact hik
          · exact Nat.lt_trans hik (hk c hc)
        · rfl
      · simp only [Memory.get]
    · split
      · rename_i hik
        subst hik
        split
        · rename_i hb
          split
          · rename_i hji
            subst hji hb
            exact Memory.get_of_below hk
          · rename_i hji
            simp [Memory.get, hji]
        · simp only [Memory.get]
          split <;> rfl
      · rename_i h1 h2
        simp only [Memory.get, Memory.get_set i j b hm]
        split
        · rename_i hjk
          rw [if_neg (by omega)]
        · rfl

end Sys2Proof.Machine
end

