-- ==== Sys2Proof/Laws/Bus.lean ====
section
/-! SUPPORT. What a bus access can do, said once: where it is routed, what it answers, what it leaves. -/

namespace Sys2Proof.Machine

/-! ## Routing -/

/-- The scan answers the first chunk that covers the address. -/
theorem firstCovering_append {pre post : List Chunk} {c : Chunk} {a : Word}
    (hpre : ∀ d ∈ pre, Chunk.covers d a = false) (hc : Chunk.covers c a = true) :
    firstCovering (pre ++ c :: post) a = some (c.kind, a.toNat - c.start.toNat) := by
  induction pre with
  | nil => simp [firstCovering, hc]
  | cons d pre ih =>
    simp only [List.cons_append, firstCovering, hpre d (by simp)]
    exact ih fun d' hd => hpre d' (by simp [hd])

/-- The scan answers nothing when no chunk covers the address. -/
theorem firstCovering_none {cs : List Chunk} {a : Word}
    (h : ∀ d ∈ cs, Chunk.covers d a = false) : firstCovering cs a = none := by
  induction cs with
  | nil => rfl
  | cons d cs ih =>
    simp only [firstCovering, h d (by simp)]
    exact ih fun d' hd => h d' (by simp [hd])

/-- The scan answers something when some chunk covers the address. -/
theorem firstCovering_isSome {cs : List Chunk} {a : Word}
    (h : ∃ d ∈ cs, Chunk.covers d a = true) : ∃ hit, firstCovering cs a = some hit := by
  induction cs with
  | nil => simp at h
  | cons d cs ih =>
    simp only [firstCovering]
    split
    · exact ⟨_, rfl⟩
    · rename_i hd
      apply ih
      obtain ⟨d', hd', hc⟩ := h
      rcases List.mem_cons.1 hd' with rfl | hd'
      · exact absurd hc hd
      · exact ⟨d', hd', hc⟩

/-- A mapped address is located, whatever the kind of the access. -/
theorem locate_of_mapped {s : State} {a : Word} (h : s.mapped a) (k : AccessKind) :
    ∃ hit, locate s.bus.chunks a k = .ok hit := by
  obtain ⟨cs, hcs, hc⟩ := h
  obtain ⟨hit, hh⟩ := firstCovering_isSome hc
  exact ⟨hit, by simp [locate, hcs, hh]⟩

/-- A read and a write of one address are routed alike (R83). -/
theorem locate_ok_kind {chunks : Option (List Chunk)} {a : Word} {k k' : AccessKind}
    {hit : ChunkKind × Nat} (h : locate chunks a k = .ok hit) : locate chunks a k' = .ok hit := by
  unfold locate at *
  cases chunks with
  | none => cases h
  | some cs =>
    simp only at *
    cases hf : firstCovering cs a with
    | none => rw [hf] at h; cases h
    | some x => rw [hf] at h; exact h

/-- Why routing fails (R83). -/
theorem locate_error {chunks : Option (List Chunk)} {a : Word} {k : AccessKind} {e : CoreError}
    (h : locate chunks a k = .error e) :
    (chunks = none ∧ e = .configurationError k) ∨ (chunks ≠ none ∧ e = .unmappedAddress a k) := by
  unfold locate at h
  cases chunks with
  | none => cases h; exact .inl ⟨rfl, rfl⟩
  | some cs =>
    simp only at h
    split at h
    · cases h
    · cases h; exact .inr ⟨by simp, rfl⟩

/-! ## Reads -/

/-- A read answered from the backing store changes nothing. -/
theorem memRead_of_cellOf {s : State} {a : Word} {k : Nat} (h : s.cellOf a = some k) :
    memRead a s = .ok (s.bus.mem.get k) s := by
  unfold State.cellOf at h
  unfold memRead Bus.read
  split at h <;> simp_all

theorem memRead_of_byteAt {s : State} {a : Word} {v : Byte} (h : s.byteAt a = some v) :
    memRead a s = .ok v s := by
  unfold State.byteAt at h
  obtain ⟨k, hk, rfl⟩ := Option.map_eq_some_iff.1 h
  exact memRead_of_cellOf hk

/-- What a read can do: answer the byte that stands at the address and change nothing, or read a device
once. -/
theorem memRead_ok_cases {s t : State} {a : Word} {v : Byte} (h : memRead a s = .ok v t) :
    (s.byteAt a = some v ∧ t = s) ∨
    (s.byteAt a = none ∧ ∃ id off, locate s.bus.chunks a .read = .ok (.device id, off) ∧
      v = Config.deviceRead id off s.bus.io ∧
      t = { s with bus := { s.bus with io := .read id off :: s.bus.io } }) := by
  unfold memRead Bus.read at h
  unfold State.byteAt State.cellOf
  split at h
  · rename_i v' b hb
    cases h
    split at hb
    · cases hb
    · rename_i base off hl
      cases hb
      exact .inl ⟨by simp [hl], rfl⟩
    · rename_i base off hl
      cases hb
      exact .inl ⟨by simp [hl], rfl⟩
    · rename_i id off hl
      cases hb
      exact .inr ⟨by simp [hl], id, off, hl, rfl, rfl⟩
  · cases h

/-- A failing read changes nothing. -/
theorem memRead_err {s t : State} {a : Word} {e : CoreError} (h : memRead a s = .err e t) :
    t = s ∧ ((s.bus.chunks = none ∧ e = .configurationError .read) ∨
      (s.bus.chunks ≠ none ∧ e = .unmappedAddress a .read)) := by
  unfold memRead Bus.read at h
  split at h
  · cases h
  · rename_i e' hb
    cases h
    refine ⟨rfl, ?_⟩
    split at hb <;> cases hb
    rename_i hl
    exact locate_error hl

/-- A read of a mapped address answers. -/
theorem memRead_of_mapped {s : State} {a : Word} (h : s.mapped a) :
    ∃ v t, memRead a s = .ok v t := by
  obtain ⟨⟨k, off⟩, hl⟩ := locate_of_mapped h .read
  unfold memRead Bus.read
  cases k <;> simp [hl]

/-! ## Writes -/

/-- What a write can do: store in RAM, nothing in ROM, or reach a device once. -/
theorem memWrite_ok_cases {s t : State} {a : Word} {v : Byte} (h : memWrite a v s = .ok () t) :
    (∃ k, s.ramCell a = some k ∧
      t = { s with bus := { s.bus with mem := s.bus.mem.set k v } }) ∨
    (s.ramCell a = none ∧ t = s) ∨
    (s.ramCell a = none ∧ ∃ id off, locate s.bus.chunks a .write = .ok (.device id, off) ∧
      t = { s with bus := { s.bus with io := .write id off v :: s.bus.io } }) := by
  unfold memWrite Bus.write at h
  unfold State.ramCell
  split at h
  · rename_i b hb
    cases h
    split at hb
    · cases hb
    · rename_i base off hl
      cases hb
      exact .inl ⟨base + off, by simp [hl], rfl⟩
    · rename_i base off hl
      cases hb
      exact .inr (.inl ⟨by simp [hl], rfl⟩)
    · rename_i id off hl
      cases hb
      exact .inr (.inr ⟨by simp [hl], id, off, hl, rfl⟩)
  · cases h

/-- A store to RAM. -/
theorem memWrite_of_ramCell {s : State} {a : Word} {k : Nat} (v : Byte) (h : s.ramCell a = some k) :
    memWrite a v s = .ok () { s with bus := { s.bus with mem := s.bus.mem.set k v } } := by
  unfold State.ramCell at h
  unfold memWrite Bus.write
  split at h <;> simp_all

/-- A failing write changes nothing. -/
theorem memWrite_err {s t : State} {a : Word} {v : Byte} {e : CoreError}
    (h : memWrite a v s = .err e t) :
    t = s ∧ ((s.bus.chunks = none ∧ e = .configurationError .write) ∨
      (s.bus.chunks ≠ none ∧ e = .unmappedAddress a .write)) := by
  unfold memWrite Bus.write at h
  split at h
  · cases h
  · rename_i e' hb
    cases h
    refine ⟨rfl, ?_⟩
    split at hb <;> cases hb
    rename_i hl
    exact locate_error hl

/-- A write of a mapped address completes. -/
theorem memWrite_of_mapped {s : State} {a : Word} (v : Byte) (h : s.mapped a) :
    ∃ t, memWrite a v s = .ok () t := by
  obtain ⟨⟨k, off⟩, hl⟩ := locate_of_mapped h .write
  unfold memWrite Bus.write
  cases k <;> simp [hl]

/-! ## Bytes that stand in memory -/

/-- The routing of a state depends on its chunk list only. -/
theorem State.cellOf_congr {s t : State} (h : t.bus.chunks = s.bus.chunks) (a : Word) :
    t.cellOf a = s.cellOf a := by simp [State.cellOf, h]

theorem State.ramCell_congr {s t : State} (h : t.bus.chunks = s.bus.chunks) (a : Word) :
    t.ramCell a = s.ramCell a := by simp [State.ramCell, h]

theorem State.byteAt_congr {s t : State} (hc : t.bus.chunks = s.bus.chunks)
    (hm : t.bus.mem = s.bus.mem) (a : Word) : t.byteAt a = s.byteAt a := by
  simp [State.byteAt, State.cellOf_congr hc, hm]

/-- A RAM cell that stores is the cell that answers a read. -/
theorem State.cellOf_of_ramCell {s : State} {a : Word} {k : Nat} (h : s.ramCell a = some k) :
    s.cellOf a = some k := by
  unfold State.ramCell at h
  split at h
  · rename_i base off hl
    cases h
    simp [State.cellOf, locate_ok_kind (k' := .read) hl]
  · cases h

/-- A write leaves every byte the store does not reach. -/
theorem memWrite_byteAt_of_not_reached {s t : State} {a ea : Word} {v : Byte}
    (hw : s.bus.mem.wf = true) (h : memWrite ea v s = .ok () t) (hn : ¬ s.storeReaches ea a) :
    t.byteAt a = s.byteAt a := by
  rcases memWrite_ok_cases h with ⟨k, hk, rfl⟩ | ⟨_, rfl⟩ | ⟨_, id, off, _, rfl⟩
  · have hc : ∀ x, State.cellOf { s with bus := { s.bus with mem := s.bus.mem.set k v } } x =
        s.cellOf x := State.cellOf_congr rfl
    simp only [State.byteAt, hc]
    cases hca : s.cellOf a with
    | none => rfl
    | some j =>
      have : j ≠ k := fun hjk => hn ⟨k, hk, by rw [hca, hjk]⟩
      simp [Memory.get_set _ _ _ hw, this]
  · rfl
  · exact State.byteAt_congr rfl rfl a

/-- A write puts its byte at every address the store reaches. -/
theorem memWrite_byteAt_of_reached {s t : State} {a ea : Word} {v : Byte}
    (hw : s.bus.mem.wf = true) (h : memWrite ea v s = .ok () t) (hr : s.storeReaches ea a) :
    t.byteAt a = some v := by
  obtain ⟨k, hk, hca⟩ := hr
  rw [memWrite_of_ramCell v hk] at h
  cases h
  have hc : State.cellOf { s with bus := { s.bus with mem := s.bus.mem.set k v } } a = some k :=
    (State.cellOf_congr (s := s) rfl a).trans hca
  simp [State.byteAt, hc, Memory.get_set _ _ _ hw]

end Sys2Proof.Machine
end

