-- ==== Sys2Proof/Laws/Keeps.lean ====
section
/-! SUPPORT. What no part of a step ever changes, said once (`Keeps`), for every operation of Ops.lean and
every class shape of Operands.lean. -/

namespace Sys2Proof.Machine

/-- What any part of a step leaves: the bus configuration, the fault record, the reset flag, the
parameters, the free count, B1 and B2, the canonical form, every cell no RAM chunk reaches, and what
devices have seen before. -/
structure Keeps (s t : State) : Prop where
  chunks : t.bus.chunks = s.bus.chunks
  fault : t.fault = s.fault
  resetMade : t.resetMade = s.resetMade
  params : t.params = s.params
  free : t.free = s.free
  b1 : t.flags.B1 = s.flags.B1
  b2 : t.flags.B2 = s.flags.B2
  io : ∃ new, t.bus.io = new ++ s.bus.io
  wf : s.bus.mem.wf = true → t.bus.mem.wf = true
  rom : s.bus.mem.wf = true → ∀ k, (∀ a, s.ramCell a ≠ some k) → t.bus.mem.get k = s.bus.mem.get k

theorem Keeps.refl (s : State) : Keeps s s :=
  ⟨rfl, rfl, rfl, rfl, rfl, rfl, rfl, ⟨[], rfl⟩, id, fun _ _ _ => rfl⟩

theorem Keeps.trans {s t u : State} (h : Keeps s t) (g : Keeps t u) : Keeps s u where
  chunks := g.chunks.trans h.chunks
  fault := g.fault.trans h.fault
  resetMade := g.resetMade.trans h.resetMade
  params := g.params.trans h.params
  free := g.free.trans h.free
  b1 := g.b1.trans h.b1
  b2 := g.b2.trans h.b2
  io := by
    obtain ⟨n, hn⟩ := h.io
    obtain ⟨m, hm⟩ := g.io
    exact ⟨m ++ n, by rw [hm, hn, List.append_assoc]⟩
  wf := fun w => g.wf (h.wf w)
  rom := fun w k hk =>
    (g.rom (h.wf w) k fun a => by rw [State.ramCell_congr h.chunks]; exact hk a).trans (h.rom w k hk)

/-- A change of registers, CYC and of flags other than B1 and B2. -/
theorem Keeps.of_same_bus {s t : State} (hb : t.bus = s.bus) (hf : t.fault = s.fault)
    (hr : t.resetMade = s.resetMade) (hp : t.params = s.params) (hfr : t.free = s.free)
    (h1 : t.flags.B1 = s.flags.B1) (h2 : t.flags.B2 = s.flags.B2) : Keeps s t := by
  refine ⟨by rw [hb], hf, hr, hp, hfr, h1, h2, ⟨[], by rw [hb]; rfl⟩, by rw [hb]; exact id, ?_⟩
  intro _ _ _
  rw [hb]

/-- A part of a step keeps what `Keeps` says, whether it ends well or in an error. -/
def Res.KeepsFrom {α : Type} (s : State) : Res α → Prop
  | .ok _ t => Keeps s t
  | .err _ t => Keeps s t

theorem Res.KeepsFrom.andThen {α β : Type} {s : State} {r : Res α} {f : α → State → Res β}
    (h : r.KeepsFrom s) (hf : ∀ a t, (f a t).KeepsFrom t) : (r.andThen f).KeepsFrom s := by
  cases r with
  | ok a t =>
    have hft := hf a t
    simp only [Res.andThen_ok]
    cases hr : f a t with
    | ok b u => rw [hr] at hft; exact Keeps.trans h hft
    | err e u => rw [hr] at hft; exact Keeps.trans h hft
  | err e t => exact h

theorem memRead_keeps (a : Word) (s : State) : (memRead a s).KeepsFrom s := by
  cases h : memRead a s with
  | ok v t =>
    rcases memRead_ok_cases h with ⟨_, rfl⟩ | ⟨_, id, off, _, _, rfl⟩
    · exact Keeps.refl _
    · exact ⟨rfl, rfl, rfl, rfl, rfl, rfl, rfl, ⟨[_], rfl⟩, fun w => w, fun _ _ _ => rfl⟩
  | err e t => obtain ⟨rfl, _⟩ := memRead_err h; exact Keeps.refl _

theorem memWrite_keeps (a : Word) (v : Byte) (s : State) : (memWrite a v s).KeepsFrom s := by
  cases h : memWrite a v s with
  | ok u t =>
    rcases memWrite_ok_cases h with ⟨k, hk, rfl⟩ | ⟨_, rfl⟩ | ⟨_, id, off, _, rfl⟩
    · refine ⟨rfl, rfl, rfl, rfl, rfl, rfl, rfl, ⟨[], rfl⟩, fun w => Memory.set_wf w, ?_⟩
      intro w j hj
      have : j ≠ k := fun hjk => hj a (hjk ▸ hk)
      simp [Memory.get_set _ _ _ w, this]
    · exact Keeps.refl _
    · exact ⟨rfl, rfl, rfl, rfl, rfl, rfl, rfl, ⟨[_], rfl⟩, fun w => w, fun _ _ _ => rfl⟩
  | err e t => obtain ⟨rfl, _⟩ := memWrite_err h; exact Keeps.refl _

/-- A register or flag update as the last part. -/
theorem Res.keeps_update {α : Type} {s t : State} {a : α} (hb : t.bus = s.bus)
    (hf : t.fault = s.fault) (hr : t.resetMade = s.resetMade) (hp : t.params = s.params)
    (hfr : t.free = s.free) (h1 : t.flags.B1 = s.flags.B1) (h2 : t.flags.B2 = s.flags.B2) :
    (Res.ok a t).KeepsFrom s := Keeps.of_same_bus hb hf hr hp hfr h1 h2

theorem readPair_keeps (al ah : Word) (s : State) : (readPair al ah s).KeepsFrom s :=
  (memRead_keeps al s).andThen fun _ t =>
    (memRead_keeps ah t).andThen fun _ u => Keeps.refl u

theorem read16PageWrap_keeps (p : Word) (s : State) : (read16PageWrap p s).KeepsFrom s := by
  unfold read16PageWrap
  split
  · exact readPair_keeps _ _ s
  · exact readPair_keeps _ _ s

theorem push_keeps (v : Byte) (s : State) : (push v s).KeepsFrom s :=
  (memWrite_keeps _ v s).andThen fun _ _ => Res.keeps_update rfl rfl rfl rfl rfl rfl rfl

/-- After an update of registers and flags other than B1 and B2. -/
theorem Res.KeepsFrom.after {α : Type} {s t : State} {r : Res α} (g : Keeps s t)
    (h : r.KeepsFrom t) : r.KeepsFrom s := by
  cases r with
  | ok a u => exact g.trans h
  | err e u => exact g.trans h

theorem pull_keeps (s : State) : (pull s).KeepsFrom s :=
  Res.KeepsFrom.after (Keeps.of_same_bus (t := { s with SP := s.SP + 1 }) rfl rfl rfl rfl rfl rfl rfl)
    (memRead_keeps _ _)

theorem pushWord_keeps (w : Word) (s : State) : (pushWord w s).KeepsFrom s :=
  (push_keeps _ s).andThen fun _ t => push_keeps _ t

theorem pullWord_keeps (s : State) : (pullWord s).KeepsFrom s :=
  (pull_keeps s).andThen fun _ t => (pull_keeps t).andThen fun _ u => Keeps.refl u

theorem enterTrap_keeps (ret : Word) (st : Byte) (v : Word) (s : State) :
    (enterTrap ret st v s).KeepsFrom s :=
  (pushWord_keeps _ s).andThen fun _ t => (push_keeps _ t).andThen fun _ u =>
    Res.KeepsFrom.after (Keeps.of_same_bus (t := { u with flags := { u.flags with I := true } })
      rfl rfl rfl rfl rfl rfl rfl)
      ((readPair_keeps _ _ _).andThen fun _ _ => Res.keeps_update rfl rfl rfl rfl rfl rfl rfl)

theorem returnFromTrap_keeps (s : State) : (returnFromTrap s).KeepsFrom s :=
  (pull_keeps s).andThen fun b t =>
    Res.KeepsFrom.after (Keeps.of_same_bus (t := { t with flags := t.flags.pulled b })
      rfl rfl rfl rfl rfl rfl rfl)
      ((pullWord_keeps _).andThen fun _ _ => Res.keeps_update rfl rfl rfl rfl rfl rfl rfl)

theorem fetchByte_keeps (s : State) : (fetchByte s).KeepsFrom s :=
  (memRead_keeps _ s).andThen fun _ _ => Res.keeps_update rfl rfl rfl rfl rfl rfl rfl

theorem fetch_keeps (s : State) : (fetch s).KeepsFrom s := by
  refine (fetchByte_keeps s).andThen fun op t => ?_
  cases hf : formOf op with
  | none => exact Keeps.refl t
  | some f =>
    cases f with
    | f1 i => exact Keeps.refl t
    | f2 mk => exact (fetchByte_keeps t).andThen fun _ u => Keeps.refl u
    | f3 mk =>
      exact (fetchByte_keeps t).andThen fun _ u =>
        (fetchByte_keeps u).andThen fun _ w => Keeps.refl w

/-! ## The resolver and the operand -/

theorem resolve_keeps (m : Mode) (p : Word) (s : State) : (resolve m p s).KeepsFrom s := by
  cases m <;> first
    | exact Keeps.refl s
    | exact (read16PageWrap_keeps p s).andThen fun _ t => Keeps.refl t
    | exact (readPair_keeps _ _ s).andThen fun _ t => Keeps.refl t

theorem needEA_keeps (m : Mode) (r : Resolved) (s : State) : (needEA m r s).KeepsFrom s := by
  unfold needEA
  split
  · exact Keeps.refl s
  · exact Keeps.refl s

theorem operandValue_keeps (m : Mode) (p : Word) (r : Resolved) (s : State) :
    (operandValue m p r s).KeepsFrom s := by
  unfold operandValue
  split
  · exact Keeps.refl s
  · exact (needEA_keeps _ r s).andThen fun _ t => memRead_keeps _ t

theorem decimalCheck_keeps (op : Byte) (n : Word) (s : State) :
    (decimalCheck op n s).KeepsFrom s := by
  unfold decimalCheck
  split
  · exact Keeps.refl s
  · exact Keeps.refl s

theorem account_keeps (n : Nat) (s : State) : Keeps s (s.account n) :=
  Keeps.of_same_bus rfl rfl rfl rfl rfl rfl rfl

theorem setZN_keeps (r : Byte) (s : State) : Keeps s (s.setZN r) :=
  Keeps.of_same_bus rfl rfl rfl rfl rfl (by simp) (by simp)

/-! ## The class shapes -/

theorem readClass_keeps {m : Mode} {p : Word} {c : Nat} {pen : Bool} {chk : State → Res Unit}
    {f : Byte → State → State} {s : State} (hc : ∀ t, (chk t).KeepsFrom t)
    (hf : ∀ v t, Keeps t (f v t)) : (readClass m p c pen chk f s).KeepsFrom s :=
  (resolve_keeps m p s).andThen fun _ t => (hc t).andThen fun _ u =>
    (operandValue_keeps _ _ _ u).andThen fun v w => (hf v w).trans (account_keeps _ _)

theorem writeClass_keeps {m : Mode} {p : Word} {c : Nat} {reg : State → Byte} {s : State} :
    (writeClass m p c reg s).KeepsFrom s :=
  (resolve_keeps m p s).andThen fun _ t => (needEA_keeps _ _ t).andThen fun _ u =>
    (memWrite_keeps _ _ u).andThen fun _ w => account_keeps _ w

theorem rmwClass_keeps {m : Mode} {p : Word} {c : Nat} {f : Byte → State → Byte × State}
    {s : State} (hf : ∀ v t, Keeps t (f v t).2) : (rmwClass m p c f s).KeepsFrom s := by
  refine (resolve_keeps m p s).andThen fun r t => ?_
  split
  · exact (hf t.A t).trans (Keeps.of_same_bus (t := State.account c { (f t.A t).2 with A := (f t.A t).1 })
      rfl rfl rfl rfl rfl rfl rfl)
  · exact (needEA_keeps _ _ t).andThen fun _ u => (memRead_keeps _ u).andThen fun v w =>
      Res.KeepsFrom.after (hf v w)
        ((memWrite_keeps _ _ _).andThen fun _ x => account_keeps _ x)

theorem jumpClass_keeps {m : Mode} {p : Word} {c : Nat} {f : Word → State → Res Unit} {s : State}
    (hf : ∀ ea t, (f ea t).KeepsFrom t) : (jumpClass m p c f s).KeepsFrom s :=
  (resolve_keeps m p s).andThen fun _ t => (needEA_keeps _ _ t).andThen fun ea u =>
    (hf ea u).andThen fun _ w => account_keeps _ w

theorem branchClass_keeps {p : Word} {cond : State → Bool} {s : State} :
    (branchClass p cond s).KeepsFrom s := by
  refine (resolve_keeps _ p s).andThen fun r t => (needEA_keeps _ _ t).andThen fun ea u => ?_
  refine Keeps.of_same_bus ?_ ?_ ?_ ?_ ?_ ?_ ?_ <;> (simp only [State.account]; split <;> rfl)

theorem implClass_keeps {c : Nat} {f : State → State} {s : State} (hf : ∀ t, Keeps t (f t)) :
    (implClass c f s).KeepsFrom s := (hf s).trans (account_keeps _ _)

theorem stackClass_keeps {c : Nat} {f : State → Res Unit} {s : State}
    (hf : ∀ t, (f t).KeepsFrom t) : (stackClass c f s).KeepsFrom s :=
  (hf s).andThen fun _ t => account_keeps _ t

end Sys2Proof.Machine
end

