-- ==== Sys2Proof/Laws/Operands.lean ====
section
/-! SUPPORT. What the parts of a step that only read can do (`ReadOnly`), and the class shapes as
equations: each answers what its parts answer. -/

namespace Sys2Proof.Machine

/-- What a part of a step that makes reads only leaves: everything but what devices have seen. -/
structure ReadOnly (s t : State) : Prop where
  state : t = { s with bus := t.bus }
  chunks : t.bus.chunks = s.bus.chunks
  mem : t.bus.mem = s.bus.mem

theorem ReadOnly.refl (s : State) : ReadOnly s s := ⟨rfl, rfl, rfl⟩

theorem ReadOnly.trans {s t u : State} (h : ReadOnly s t) (g : ReadOnly t u) : ReadOnly s u where
  state := by rw [g.state, h.state]
  chunks := g.chunks.trans h.chunks
  mem := g.mem.trans h.mem

theorem ReadOnly.byteAt {s t : State} (h : ReadOnly s t) (a : Word) : t.byteAt a = s.byteAt a :=
  State.byteAt_congr h.chunks h.mem a

/-- A part of a step that makes reads only, whether it ends well or in an error. -/
def Res.ReadsOnly {α : Type} (s : State) : Res α → Prop
  | .ok _ t => ReadOnly s t
  | .err _ t => ReadOnly s t

theorem Res.ReadsOnly.andThen {α β : Type} {s : State} {r : Res α} {f : α → State → Res β}
    (h : r.ReadsOnly s) (hf : ∀ a t, (f a t).ReadsOnly t) : (r.andThen f).ReadsOnly s := by
  cases r with
  | ok a t =>
    have hft := hf a t
    simp only [Res.andThen_ok]
    cases hr : f a t with
    | ok b u => rw [hr] at hft; exact ReadOnly.trans h hft
    | err e u => rw [hr] at hft; exact ReadOnly.trans h hft
  | err e t => exact h

theorem memRead_readsOnly (a : Word) (s : State) : (memRead a s).ReadsOnly s := by
  cases h : memRead a s with
  | ok v t =>
    rcases memRead_ok_cases h with ⟨_, rfl⟩ | ⟨_, id, off, _, _, rfl⟩
    · exact ReadOnly.refl _
    · exact ⟨rfl, rfl, rfl⟩
  | err e t => obtain ⟨rfl, _⟩ := memRead_err h; exact ReadOnly.refl _

theorem readPair_readsOnly (al ah : Word) (s : State) : (readPair al ah s).ReadsOnly s :=
  (memRead_readsOnly al s).andThen fun _ t =>
    (memRead_readsOnly ah t).andThen fun _ u => ReadOnly.refl u

theorem read16PageWrap_readsOnly (p : Word) (s : State) : (read16PageWrap p s).ReadsOnly s := by
  unfold read16PageWrap
  split
  · exact readPair_readsOnly _ _ s
  · exact readPair_readsOnly _ _ s

theorem resolve_readsOnly (m : Mode) (p : Word) (s : State) : (resolve m p s).ReadsOnly s := by
  cases m <;> first
    | exact ReadOnly.refl s
    | exact (read16PageWrap_readsOnly p s).andThen fun _ t => ReadOnly.refl t
    | exact (readPair_readsOnly _ _ s).andThen fun _ t => ReadOnly.refl t

theorem needEA_readsOnly (m : Mode) (r : Resolved) (s : State) : (needEA m r s).ReadsOnly s := by
  unfold needEA
  split
  · exact ReadOnly.refl s
  · exact ReadOnly.refl s

theorem operandValue_readsOnly (m : Mode) (p : Word) (r : Resolved) (s : State) :
    (operandValue m p r s).ReadsOnly s := by
  unfold operandValue
  split
  · exact ReadOnly.refl s
  · exact (needEA_readsOnly _ r s).andThen fun _ t => memRead_readsOnly _ t

theorem readOperand_readsOnly (m : Mode) (p : Word) (s : State) : (readOperand m p s).ReadsOnly s :=
  (resolve_readsOnly m p s).andThen fun r t => (operandValue_readsOnly m p r t).andThen fun _ u =>
    ReadOnly.refl u

/-- Every mode but IMPLICIT, ACCUMULATOR and IMMEDIATE gives an effective address (R160). -/
theorem resolve_ea {m : Mode} {p : Word} {s t : State} {r : Resolved} (h : resolve m p s = .ok r t)
    (h1 : m ≠ .implicit) (h2 : m ≠ .accumulator) (h3 : m ≠ .immediate) : ∃ ea, r.ea = some ea := by
  cases m <;> simp only [resolve, ne_eq, not_true_eq_false, reduceCtorEq] at * <;> first
    | (cases h; exact ⟨_, rfl⟩)
    | (obtain ⟨ea, t', _, h⟩ := Res.andThen_eq_ok.1 h
       cases h
       exact ⟨_, rfl⟩)

/-- Every instruction is of a class that takes its mode (R161, R173). -/
theorem Instr.mode_taken (i : Instr) : i.mnemonic.operandClass.takes i.mode = true := by
  cases i <;> rfl

/-! ## A read does not look at the registers -/

/-- Two states with one bus read alike. -/
theorem memRead_of_bus_eq {s t u : State} {a : Word} {v : Byte} (hb : s.bus = t.bus)
    (h : memRead a t = .ok v u) : memRead a s = .ok v { s with bus := u.bus } := by
  unfold memRead at *
  rw [hb]
  split at h
  · cases h; rfl
  · cases h

theorem memRead_err_of_bus_eq {s t u : State} {a : Word} {e : CoreError} (hb : s.bus = t.bus)
    (h : memRead a t = .err e u) : memRead a s = .err e s := by
  unfold memRead at *
  rw [hb]
  split at h
  · cases h
  · cases h; rfl

/-- Two states with one bus write alike. -/
theorem memWrite_of_bus_eq {s t u : State} {a : Word} {v : Byte} (hb : s.bus = t.bus)
    (h : memWrite a v t = .ok () u) : memWrite a v s = .ok () { s with bus := u.bus } := by
  unfold memWrite at *
  rw [hb]
  split at h
  · cases h; rfl
  · cases h

theorem memWrite_err_of_bus_eq {s t u : State} {a : Word} {v : Byte} {e : CoreError}
    (hb : s.bus = t.bus) (h : memWrite a v t = .err e u) : memWrite a v s = .err e s := by
  unfold memWrite at *
  rw [hb]
  split at h
  · cases h
  · cases h; rfl

/-- A write changes the bus only. -/
theorem memWrite_state {s t : State} {a : Word} {v : Byte} (h : memWrite a v s = .ok () t) :
    t = { s with bus := t.bus } := by
  unfold memWrite at h
  split at h
  · cases h; rfl
  · cases h

/-- A write of an address that has just been read completes. -/
theorem memWrite_of_memRead {s t : State} {a : Word} {v : Byte} (w : Byte)
    (h : memRead a s = .ok v t) : ∃ u, memWrite a w t = .ok () u := by
  have hl : ∃ hit, locate s.bus.chunks a .read = .ok hit := by
    unfold memRead Bus.read at h
    cases hl : locate s.bus.chunks a .read with
    | ok hit => exact ⟨hit, rfl⟩
    | error e => rw [hl] at h; cases h
  obtain ⟨⟨k, off⟩, hl⟩ := hl
  have hr := memRead_readsOnly a s
  rw [h] at hr
  have hw : locate t.bus.chunks a .write = .ok (k, off) := by
    rw [hr.chunks]; exact locate_ok_kind hl
  unfold memWrite Bus.write
  cases k <;> simp [hw]

/-! ## The class shapes as equations -/

theorem readClass_unchecked_ok {m : Mode} {p : Word} {c : Nat} {pen : Bool} {f : Byte → State → State}
    {s t : State} {r : Resolved} {v : Byte} (h : readOperand m p s = .ok (r, v) t) :
    readClass m p c pen unchecked f s = .ok () ((f v t).account (c + crossExtra pen r)) := by
  unfold readOperand at h
  obtain ⟨r', s1, hr, h⟩ := Res.andThen_eq_ok.1 h
  obtain ⟨v', s2, hv, h⟩ := Res.andThen_eq_ok.1 h
  cases h
  simp [readClass, hr, hv, unchecked]

theorem readClass_unchecked_err {m : Mode} {p : Word} {c : Nat} {pen : Bool}
    {f : Byte → State → State} {s t : State} {e : CoreError} (h : readOperand m p s = .err e t) :
    readClass m p c pen unchecked f s = .err e t := by
  unfold readOperand at h
  rcases Res.andThen_eq_err.1 h with h | ⟨r', s1, hr, h⟩
  · simp [readClass, h]
  · rcases Res.andThen_eq_err.1 h with h | ⟨v', s2, hv, h⟩
    · simp [readClass, hr, h, unchecked]
    · cases h

/-- A WRITE-class instruction writes its register at the effective address. -/
theorem writeClass_of_ea {m : Mode} {p : Word} {c : Nat} {reg : State → Byte} {s t : State}
    {r : Resolved} {ea : Word} (h : resolve m p s = .ok r t) (hea : r.ea = some ea) :
    writeClass m p c reg s =
      (memWrite ea (reg t) t).andThen fun _ u => .ok () (u.account c) := by
  simp [writeClass, h, needEA, hea]

/-- An RMW-class instruction in a memory mode reads, then writes the effective address. -/
theorem rmwClass_of_ea {m : Mode} {p : Word} {c : Nat} {f : Byte → State → Byte × State}
    {s t : State} {r : Resolved} {ea : Word} (h : resolve m p s = .ok r t) (hea : r.ea = some ea) :
    rmwClass m p c f s = (memRead ea t).andThen fun v u =>
      (memWrite ea (f v u).1 (f v u).2).andThen fun _ w => .ok () (w.account c) := by
  have hm : m ≠ .accumulator := by
    rintro rfl
    cases h
    cases hea
  unfold rmwClass
  rw [h]
  cases m <;> first
    | exact absurd rfl hm
    | simp [needEA, hea]

end Sys2Proof.Machine
end

