-- ==== Sys2Proof/Laws/Shape.lean ====
section
/-! SUPPORT. Every instruction is one of the seven class shapes, by its mnemonic, with the mode, the
parameter, the cycles and the penalty of its row (`exec_eq_run`): facts about `exec` follow from facts
about the shapes. -/

namespace Sys2Proof.Machine

/-- A class shape with what it is applied to. -/
inductive Shape where
  | read (check : State → Res Unit) (f : Byte → State → State)
  | write (reg : State → Byte)
  | rmw (f : Byte → State → Byte × State)
  | jump (f : Word → State → Res Unit)
  | branch (cond : State → Bool)
  | impl (f : State → State)
  | stack (f : State → Res Unit)

/-- The shape of an instruction, by its mnemonic. -/
def shapeOf (i : Instr) : Shape :=
  match i.mnemonic with
  | .cmp => .read unchecked cmpEffect
  | .cpx => .read unchecked cpxEffect
  | .cpy => .read unchecked cpyEffect
  | .bit => .read unchecked bitEffect
  | .lda => .read unchecked ldaEffect
  | .ldx => .read unchecked ldxEffect
  | .ldy => .read unchecked ldyEffect
  | .sta => .write State.A
  | .stx => .write State.X
  | .sty => .write State.Y
  | .tax => .impl taxEffect
  | .tay => .impl tayEffect
  | .txa => .impl txaEffect
  | .tya => .impl tyaEffect
  | .tsx => .impl tsxEffect
  | .txs => .impl txsEffect
  | .adc => .read (decimalCheck i.opcode (BitVec.ofNat 16 i.length)) adcEffect
  | .sbc => .read (decimalCheck i.opcode (BitVec.ofNat 16 i.length)) sbcEffect
  | .and => .read unchecked andEffect
  | .ora => .read unchecked oraEffect
  | .eor => .read unchecked eorEffect
  | .inc => .rmw incEffect
  | .dec => .rmw decEffect
  | .inx => .impl inxEffect
  | .iny => .impl inyEffect
  | .dex => .impl dexEffect
  | .dey => .impl deyEffect
  | .asl => .rmw aslEffect
  | .lsr => .rmw lsrEffect
  | .rol => .rmw rolEffect
  | .ror => .rmw rorEffect
  | .pha => .stack phaEffect
  | .php => .stack phpEffect
  | .pla => .stack plaEffect
  | .plp => .stack plpEffect
  | .jmp => .jump jmpEffect
  | .jsr => .jump jsrEffect
  | .rts => .stack rtsEffect
  | .brk => .stack brkEffect
  | .rti => .stack rtiEffect
  | .bcc => .branch fun s => !s.flags.C
  | .bcs => .branch fun s => s.flags.C
  | .beq => .branch fun s => s.flags.Z
  | .bmi => .branch fun s => s.flags.N
  | .bne => .branch fun s => !s.flags.Z
  | .bpl => .branch fun s => !s.flags.N
  | .bvc => .branch fun s => !s.flags.V
  | .bvs => .branch fun s => s.flags.V
  | .clc => .impl clcEffect
  | .cld => .impl cldEffect
  | .cli => .impl cliEffect
  | .clv => .impl clvEffect
  | .sec => .impl secEffect
  | .sed => .impl sedEffect
  | .sei => .impl seiEffect
  | .nop => .impl nopEffect

/-- Run a shape in the mode, with the parameter, cycles and penalty of an instruction. -/
def Shape.run (i : Instr) : Shape → State → Res Unit
  | .read chk f => readClass i.mode i.param i.row.cycles i.row.pageCross chk f
  | .write reg => writeClass i.mode i.param i.row.cycles reg
  | .rmw f => rmwClass i.mode i.param i.row.cycles f
  | .jump f => jumpClass i.mode i.param i.row.cycles f
  | .branch cond => branchClass i.param cond
  | .impl f => implClass i.row.cycles f
  | .stack f => stackClass i.row.cycles f

/-- Every meaning is its shape, run with what the operation table says. -/
theorem exec_eq_run (i : Instr) (s : State) : exec i s = ((shapeOf i).run i s).outcome := by
  cases i <;> rfl

end Sys2Proof.Machine
end

