-- ==== Sys2Proof/Laws/Exec.lean ====
section
/-! SUPPORT. What `exec` and `step` keep, and that `exec` is never refused: the facts every claim about a
step starts from. -/

namespace Sys2Proof.Machine

theorem unchecked_keeps (s : State) : (unchecked s).KeepsFrom s := Keeps.refl s

/-- Every part of an instruction keeps what `Keeps` says. -/
theorem shape_run_keeps (i : Instr) (s : State) : ((shapeOf i).run i s).KeepsFrom s := by
  unfold shapeOf
  split <;> unfold Shape.run <;> first
    | exact writeClass_keeps
    | exact branchClass_keeps
    | (refine readClass_keeps unchecked_keeps fun v t => ?_
       refine Keeps.of_same_bus rfl rfl rfl rfl rfl ?_ ?_ <;>
         simp [cmpEffect, cpxEffect, cpyEffect, bitEffect, ldaEffect, ldxEffect, ldyEffect, andEffect,
           oraEffect, eorEffect, Flags.compare, Flags.bitTest])
    | (refine readClass_keeps (decimalCheck_keeps _ _) fun v t => ?_
       refine Keeps.of_same_bus rfl rfl rfl rfl rfl ?_ ?_ <;> simp [adcEffect, sbcEffect])
    | (refine rmwClass_keeps fun v t => ?_
       refine Keeps.of_same_bus rfl rfl rfl rfl rfl ?_ ?_ <;>
         simp [incEffect, decEffect, aslEffect, lsrEffect, rolEffect, rorEffect, shiftFlags])
    | (refine implClass_keeps fun t => ?_
       refine Keeps.of_same_bus rfl rfl rfl rfl rfl ?_ ?_ <;>
         simp [taxEffect, tayEffect, txaEffect, tyaEffect, tsxEffect, txsEffect, inxEffect, inyEffect,
           dexEffect, deyEffect, clcEffect, cldEffect, cliEffect, clvEffect, secEffect, sedEffect,
           seiEffect, nopEffect])
    | exact stackClass_keeps fun t => push_keeps _ t
    | exact stackClass_keeps fun t => enterTrap_keeps _ _ _ t
    | exact stackClass_keeps fun t => returnFromTrap_keeps t
    | (refine stackClass_keeps fun t => (pull_keeps t).andThen fun v u => ?_
       refine Keeps.of_same_bus rfl rfl rfl rfl rfl ?_ ?_ <;> simp)
    | exact stackClass_keeps fun t => (pullWord_keeps t).andThen fun _ u =>
        Res.keeps_update rfl rfl rfl rfl rfl rfl rfl
    | exact jumpClass_keeps fun ea t => Res.keeps_update rfl rfl rfl rfl rfl rfl rfl
    | exact jumpClass_keeps fun ea t => (pushWord_keeps _ t).andThen fun _ u =>
        Res.keeps_update rfl rfl rfl rfl rfl rfl rfl

/-- What an instruction that completes keeps. -/
theorem exec_keeps {i : Instr} {s t : State} (h : exec i s = .next t) : Keeps s t := by
  rw [exec_eq_run, Res.outcome_eq_next] at h
  have hk := shape_run_keeps i s
  rw [h] at hk
  exact hk

/-- What the bus left by an instruction that stops keeps. -/
theorem exec_fault_keeps {i : Instr} {s : State} {e : CoreError} {b : Bus}
    (h : exec i s = .fault (.raised e b)) : ∃ t, Keeps s t ∧ t.bus = b := by
  rw [exec_eq_run, Res.outcome_eq_fault] at h
  obtain ⟨t, ht, hb⟩ := h
  have hk := shape_run_keeps i s
  rw [ht] at hk
  exact ⟨t, hk, hb⟩

/-- No meaning is ever refused. -/
theorem exec_ne_refused (i : Instr) (s : State) (x : Refusal) : exec i s ≠ .refused x := by
  rw [exec_eq_run]
  exact Res.outcome_ne_refused _ _

/-- A step that completes is a fetch and an `exec` that completes, of a running core. -/
theorem step_eq_next {s t : State} (h : step s = .next t) :
    s.Running ∧ ∃ i s1, fetch s = .ok i s1 ∧ exec i s1 = .next t := by
  unfold step at h
  split at h
  · rename_i hr
    split at h
    · cases h
    · rename_i hf
      split at h
      · rename_i i s1 hfe
        exact ⟨⟨hr, hf⟩, i, s1, hfe, h⟩
      · cases h
  · cases h

/-- A running core steps by a fetch and an `exec`. -/
theorem step_of_fetch {s s1 : State} {i : Instr} (hr : s.Running) (hf : fetch s = .ok i s1) :
    step s = exec i s1 := by
  simp [step, hr.1, hr.2, hf]

/-- What a step that completes keeps. -/
theorem step_keeps {s t : State} (h : step s = .next t) : Keeps s t := by
  obtain ⟨_, i, s1, hf, he⟩ := step_eq_next h
  have hk := fetch_keeps s
  rw [hf] at hk
  exact Keeps.trans hk (exec_keeps he)

end Sys2Proof.Machine
end

