-- ==== Sys2Proof/Laws/Decode.lean ====
section
/-! SUPPORT. The laws of words as two bytes, and of the opcode map: what a byte selects, and that every
instruction is selected by its opcode byte. -/

namespace Sys2Proof

theorem wordOf_lo_hi (w : Word) : wordOf (lo w) (hi w) = w := by
  refine BitVec.eq_of_getLsbD_eq fun i hi => ?_
  simp only [wordOf, lo, Sys2Proof.hi, BitVec.getLsbD_or, BitVec.getLsbD_setWidth, BitVec.getLsbD_shiftLeft,
    BitVec.getLsbD_ushiftRight]
  by_cases h : i < 8
  · simp [h, hi]
  · simp [h, hi, show 8 + (i - 8) = i by omega, show i - 8 < 8 by omega, show i - 8 < 16 by omega]

theorem lo_wordOf (l h : Byte) : lo (wordOf l h) = l := by
  refine BitVec.eq_of_getLsbD_eq fun i hi => ?_
  simp [wordOf, lo, hi]

theorem hi_wordOf (l h : Byte) : hi (wordOf l h) = h := by
  refine BitVec.eq_of_getLsbD_eq fun i hi => ?_
  simp [wordOf, Sys2Proof.hi, hi, show 8 + i < 16 by omega, show i < 16 by omega]

/-- The word of two bytes as a number (R88). -/
theorem wordOf_eq (l h : Byte) : wordOf l h = BitVec.ofNat 16 (l.toNat + 256 * h.toNat) := by
  have hl := l.isLt
  have hh := h.isLt
  have e : wordOf (lo (BitVec.ofNat 16 (l.toNat + 256 * h.toNat)))
      (Sys2Proof.hi (BitVec.ofNat 16 (l.toNat + 256 * h.toNat))) = wordOf l h := by
    congr 1
    · apply BitVec.eq_of_toNat_eq
      simp [lo]
      omega
    · apply BitVec.eq_of_toNat_eq
      simp [Sys2Proof.hi, Nat.shiftRight_eq_div_pow]
      omega
  rw [← e, wordOf_lo_hi]

/-- The two bytes of a word as numbers (R9). -/
theorem lo_eq (w : Word) : lo w = BitVec.ofNat 8 (w.toNat % 256) := by
  apply BitVec.eq_of_toNat_eq
  simp [lo]

theorem hi_eq (w : Word) : hi w = BitVec.ofNat 8 (w.toNat / 256) := by
  apply BitVec.eq_of_toNat_eq
  simp [hi, Nat.shiftRight_eq_div_pow]

theorem zext_eq (b : Byte) : zext b = BitVec.ofNat 16 b.toNat := by
  apply BitVec.eq_of_toNat_eq
  simp [zext]

theorem zext_toNat (b : Byte) : (zext b).toNat = b.toNat := by
  have := b.isLt
  simp [zext]
  omega

theorem sext_eq (b : Byte) : sext b = BitVec.ofInt 16 b.toInt := by
  apply BitVec.eq_of_toInt_eq
  rw [sext, BitVec.toInt_signExtend_of_le (by omega), BitVec.toInt_ofInt]
  have h1 := BitVec.toInt_lt (x := b)
  have h2 := BitVec.le_toInt (x := b)
  simp only [Int.bmod]
  split <;> omega

/-- Only the low byte of a two-byte value made from a byte remains. -/
theorem lo_zext (b : Byte) : lo (zext b) = b := by
  apply BitVec.eq_of_toNat_eq
  have := b.isLt
  simp [lo, zext]

/-- The high byte of a word, in place. -/
theorem and_FF00 (w : Word) : w &&& 0xFF00 = wordOf 0 (hi w) := by
  have h : ∀ i < 16, (0xFF00#16).getLsbD i = decide (8 ≤ i) := by decide
  refine BitVec.eq_of_getLsbD_eq fun i hi => ?_
  simp only [BitVec.ofNat_eq_ofNat, BitVec.getLsbD_and, h i hi, wordOf, Sys2Proof.hi, BitVec.getLsbD_or,
    BitVec.getLsbD_shiftLeft, BitVec.getLsbD_setWidth, BitVec.getLsbD_ushiftRight]
  by_cases h8 : i < 8
  · simp [h8]
  · simp [h8, hi, show 8 + (i - 8) = i by omega, show i - 8 < 8 by omega, show i - 8 < 16 by omega,
      show 8 ≤ i by omega]

/-- The low byte of a word, in place. -/
theorem and_00FF (w : Word) : w &&& 0x00FF = wordOf (lo w) 0 := by
  have h : ∀ i < 16, (0x00FF#16).getLsbD i = decide (i < 8) := by decide
  refine BitVec.eq_of_getLsbD_eq fun i hi => ?_
  simp only [BitVec.ofNat_eq_ofNat, BitVec.getLsbD_and, h i hi, wordOf, lo, BitVec.getLsbD_or,
    BitVec.getLsbD_shiftLeft, BitVec.getLsbD_setWidth]
  by_cases h8 : i < 8
  · simp [h8, hi]
  · simp [h8]

/-- The second pointer address of R90 under PAGE_WRAP, as a number. -/
theorem pageWrap_eq (p : Word) : (p &&& 0xFF00) ||| ((p + 1) &&& 0x00FF) =
    BitVec.ofNat 16 (p.toNat / 256 * 256 + (p.toNat + 1) % 256) := by
  have h : (p &&& 0xFF00) ||| ((p + 1) &&& 0x00FF) = wordOf (lo (p + 1)) (hi p) := by
    rw [and_FF00, and_00FF]
    refine BitVec.eq_of_getLsbD_eq fun i _ => ?_
    simp [wordOf, Bool.or_comm]
  have hp := p.isLt
  rw [h, wordOf_eq, lo_eq, hi_eq]
  apply BitVec.eq_of_toNat_eq
  simp
  omega

/-- PageCrossed compares page numbers (R175). -/
theorem Machine.pageCrossed_eq (b ea : Word) :
    Machine.pageCrossed b ea = decide (b.toNat / 256 ≠ ea.toNat / 256) := by
  have hb := b.isLt
  have he := ea.isLt
  have key : (b &&& 0xFF00) = (ea &&& 0xFF00) ↔ b.toNat / 256 = ea.toNat / 256 := by
    rw [and_FF00, and_FF00]
    constructor
    · intro h
      have h2 := congrArg (fun w => (hi w).toNat) h
      simp only [hi_wordOf] at h2
      rw [hi_eq, hi_eq] at h2
      simp at h2
      omega
    · intro h
      rw [hi_eq, hi_eq, h]
  rw [Machine.pageCrossed, bne, Bool.eq_iff_iff]
  simp only [Bool.not_eq_true', beq_eq_false_iff_ne, ne_eq, decide_eq_true_eq]
  exact not_congr key

/-- What an assigned opcode byte selects has that opcode byte, and the parameter it is given. -/
theorem formOf_some {op : Byte} {f : Form} (h : formOf op = some f) :
    (∃ i, f = .f1 i ∧ i.opcode = op ∧ i.operand = .none) ∨
    (∃ mk, f = .f2 mk ∧ ∀ p, (mk p).opcode = op ∧ (mk p).operand = .byte p) ∨
    (∃ mk, f = .f3 mk ∧ ∀ p, (mk p).opcode = op ∧ (mk p).operand = .word p) := by
  have hop : op = BitVec.ofNat 8 op.toNat := by simp
  unfold formOf at h
  split at h <;> first
    | cases h; done
    | (rename_i hn
       cases h
       rw [hop, hn]
       first
         | exact .inl ⟨_, rfl, rfl, rfl⟩
         | exact .inr (.inl ⟨_, rfl, fun _ => ⟨rfl, rfl⟩⟩)
         | exact .inr (.inr ⟨_, rfl, fun _ => ⟨rfl, rfl⟩⟩))

/-- The length of an instruction is its opcode byte and its parameter bytes (R137). -/
theorem Instr.length_eq (i : Instr) : i.length = 1 + i.operand.bytes.length := by
  cases i <;> rfl

/-- An instruction without a parameter is selected by its opcode byte. -/
theorem formOf_opcode_none {i : Instr} (h : i.operand = .none) : formOf i.opcode = some (.f1 i) := by
  cases i <;> first
    | (cases h; done)
    | exact rfl

/-- An instruction with a one-byte parameter is selected by its opcode byte, with that parameter. -/
theorem formOf_opcode_byte {i : Instr} {p : Byte} (h : i.operand = .byte p) :
    ∃ mk, formOf i.opcode = some (.f2 mk) ∧ i = mk p := by
  cases i <;> first
    | (cases h; done)
    | (cases h; exact ⟨_, rfl, rfl⟩)

/-- An instruction with a two-byte parameter is selected by its opcode byte, with that parameter. -/
theorem formOf_opcode_word {i : Instr} {p : Word} (h : i.operand = .word p) :
    ∃ mk, formOf i.opcode = some (.f3 mk) ∧ i = mk p := by
  cases i <;> first
    | (cases h; done)
    | (cases h; exact ⟨_, rfl, rfl⟩)

/-- The opcode byte of an instruction without a parameter selects its row. -/
theorem formOf_row_none {i : Instr} (h : i.operand = .none) :
    (formOf (BitVec.ofNat 8 i.opcode.toNat)).map Form.row = some i.row := by
  cases i <;> first
    | (cases h; done)
    | exact rfl

/-- The opcode byte of an instruction with a one-byte parameter selects its row. -/
theorem formOf_row_byte {i : Instr} {p : Byte} (h : i.operand = .byte p) :
    (formOf (BitVec.ofNat 8 i.opcode.toNat)).map Form.row = some i.row := by
  cases i <;> first
    | (cases h; done)
    | exact rfl

/-- The opcode byte of an instruction with a two-byte parameter selects its row. -/
theorem formOf_row_word {i : Instr} {p : Word} (h : i.operand = .word p) :
    (formOf (BitVec.ofNat 8 i.opcode.toNat)).map Form.row = some i.row := by
  cases i <;> first
    | (cases h; done)
    | exact rfl

end Sys2Proof
end

