-- ==== Sys2Proof/Laws/Stack.lean ====
section
/-! SUPPORT. The word reads and the stack operations as equations: each answers what the accesses it makes
answer in any state with the same bus. -/

namespace Sys2Proof.Machine

/-- The stack address as a number (R94). -/
theorem stackAddress_eq (sp : Byte) : stackAddress sp = wordOf sp 1 := by
  rw [stackAddress, wordOf, zext, BitVec.or_comm]
  rfl

/-- The bytes a store reaches depend on the chunk list only. -/
theorem State.storeReaches_congr {s t : State} (h : t.bus.chunks = s.bus.chunks) (ea a : Word) :
    t.storeReaches ea a ↔ s.storeReaches ea a := by
  simp [State.storeReaches, State.ramCell_congr h, State.cellOf_congr h]

theorem push_at {s t u : State} {v a : Byte} (hb : s.bus = t.bus) (ha : s.SP = a)
    (h : memWrite (stackAddress a) v t = .ok () u) :
    push v s = .ok () { s with SP := a - 1, bus := u.bus } := by
  subst ha
  rw [push, memWrite_of_bus_eq hb h, Res.andThen_ok]

theorem push_err_at {s t u : State} {v a : Byte} {e : CoreError} (hb : s.bus = t.bus) (ha : s.SP = a)
    (h : memWrite (stackAddress a) v t = .err e u) : push v s = .err e s := by
  subst ha
  rw [push, memWrite_err_of_bus_eq hb h, Res.andThen_err]

theorem pull_at {s t u : State} {v a : Byte} (hb : s.bus = t.bus) (ha : s.SP + 1 = a)
    (h : memRead (stackAddress a) t = .ok v u) :
    pull s = .ok v { s with SP := a, bus := u.bus } := by
  subst ha
  exact memRead_of_bus_eq (s := { s with SP := s.SP + 1 }) hb h

theorem pull_err_at {s t u : State} {a : Byte} {e : CoreError} (hb : s.bus = t.bus)
    (ha : s.SP + 1 = a) (h : memRead (stackAddress a) t = .err e u) :
    pull s = .err e { s with SP := a } := by
  subst ha
  exact memRead_err_of_bus_eq (s := { s with SP := s.SP + 1 }) hb h

theorem push_ok {s t : State} {v : Byte} (h : memWrite (stackAddress s.SP) v s = .ok () t) :
    push v s = .ok () { s with SP := s.SP - 1, bus := t.bus } := push_at rfl rfl h

theorem push_err {s t : State} {v : Byte} {e : CoreError}
    (h : memWrite (stackAddress s.SP) v s = .err e t) : push v s = .err e s := push_err_at rfl rfl h

theorem pull_ok {s t : State} {v : Byte} (h : memRead (stackAddress (s.SP + 1)) s = .ok v t) :
    pull s = .ok v { s with SP := s.SP + 1, bus := t.bus } := pull_at rfl rfl h

theorem pull_err {s t : State} {e : CoreError} (h : memRead (stackAddress (s.SP + 1)) s = .err e t) :
    pull s = .err e { s with SP := s.SP + 1 } := pull_err_at rfl rfl h

theorem read16_at {s t u w : State} {a : Word} {l h : Byte} (hb : s.bus = t.bus)
    (h1 : memRead a t = .ok l u) (h2 : memRead (a + 1) u = .ok h w) :
    read16 a s = .ok (BitVec.ofNat 16 (l.toNat + 256 * h.toNat)) { s with bus := w.bus } := by
  rw [read16, readPair, memRead_of_bus_eq hb h1, Res.andThen_ok,
    memRead_of_bus_eq (s := { s with bus := u.bus }) (t := u) rfl h2, Res.andThen_ok, wordOf_eq]

theorem read16_first_err_at {s t u : State} {a : Word} {e : CoreError} (hb : s.bus = t.bus)
    (h : memRead a t = .err e u) : read16 a s = .err e s := by
  rw [read16, readPair, memRead_err_of_bus_eq hb h, Res.andThen_err]

theorem read16_second_err_at {s t u w : State} {a : Word} {l : Byte} {e : CoreError}
    (hb : s.bus = t.bus) (h1 : memRead a t = .ok l u) (h2 : memRead (a + 1) u = .err e w) :
    read16 a s = .err e { s with bus := u.bus } := by
  rw [read16, readPair, memRead_of_bus_eq hb h1, Res.andThen_ok,
    memRead_err_of_bus_eq (s := { s with bus := u.bus }) (t := u) rfl h2, Res.andThen_err]

theorem memRead_readOnly {s t : State} {a : Word} {v : Byte} (h : memRead a s = .ok v t) :
    ReadOnly s t := by
  have := memRead_readsOnly a s
  rw [h] at this
  exact this

theorem memWrite_ok_keeps {s t : State} {a : Word} {v : Byte} (h : memWrite a v s = .ok () t) :
    Keeps s t := by
  have := memWrite_keeps a v s
  rw [h] at this
  exact this

end Sys2Proof.Machine
end

