-- ==== Sys2Proof/Laws/Inversion.lean ====
section
/-! SUPPORT. What a part of a step that completes has done, said once for each stack operation and each
class shape: a claim about a next state takes these apart and never unfolds a meaning. -/

namespace Sys2Proof.Machine

/-! ## The stack operations -/

/-- A stack operation has changed SP and the bus only. -/
def StackFrame (s t : State) : Prop := t = { s with SP := t.SP, bus := t.bus }

theorem StackFrame.trans {s t u : State} (h : StackFrame s t) (g : StackFrame t u) : StackFrame s u := by
  rw [StackFrame] at *
  rw [g, h]

theorem ReadOnly.stackFrame {s t : State} (h : ReadOnly s t) : StackFrame s t := by
  rw [StackFrame, h.state]

theorem push_frame {v : Byte} {s t : State} (h : push v s = .ok () t) : StackFrame s t := by
  obtain ⟨_, u, hu, h⟩ := Res.andThen_eq_ok.1 h
  cases h
  rw [StackFrame, memWrite_state hu]

theorem pull_frame {v : Byte} {s t : State} (h : pull s = .ok v t) : StackFrame s t := by
  have hr := memRead_readOnly (s := { s with SP := s.SP + 1 }) h
  rw [StackFrame, hr.state]

theorem pushWord_frame {w : Word} {s t : State} (h : pushWord w s = .ok () t) : StackFrame s t := by
  obtain ⟨_, u, hu, h⟩ := Res.andThen_eq_ok.1 h
  exact (push_frame hu).trans (push_frame h)

theorem pullWord_frame {w : Word} {s t : State} (h : pullWord s = .ok w t) : StackFrame s t := by
  obtain ⟨_, u, hu, h⟩ := Res.andThen_eq_ok.1 h
  obtain ⟨_, x, hx, h⟩ := Res.andThen_eq_ok.1 h
  cases h
  exact (pull_frame hu).trans (pull_frame hx)

/-- A push changes no byte that a store to its stack slot does not reach (R94). -/
theorem push_unreached {v : Byte} {s t : State} {a : Word} (hw : s.bus.mem.wf = true)
    (h : push v s = .ok () t) (ha : ¬ s.storeReaches (stackAddress s.SP) a) :
    t.byteAt a = s.byteAt a := by
  obtain ⟨_, u, hu, h⟩ := Res.andThen_eq_ok.1 h
  cases h
  rw [← memWrite_byteAt_of_not_reached hw hu ha]
  exact State.byteAt_congr rfl rfl a

theorem push_ok_keeps {v : Byte} {s t : State} (h : push v s = .ok () t) :
    Keeps s t ∧ t.SP = s.SP - 1 := by
  have k := push_keeps v s
  rw [h] at k
  obtain ⟨_, u, hu, h⟩ := Res.andThen_eq_ok.1 h
  cases h
  exact ⟨k, by rw [memWrite_state hu]⟩

/-- Pushing a word changes no byte that a store to its two stack slots does not reach (R94). -/
theorem pushWord_unreached {w : Word} {s t : State} {a : Word} (hw : s.bus.mem.wf = true)
    (h : pushWord w s = .ok () t) (h1 : ¬ s.storeReaches (stackAddress s.SP) a)
    (h2 : ¬ s.storeReaches (stackAddress (s.SP - 1)) a) : t.byteAt a = s.byteAt a := by
  obtain ⟨_, u, hu, h⟩ := Res.andThen_eq_ok.1 h
  obtain ⟨k, hs⟩ := push_ok_keeps hu
  rw [push_unreached (k.wf hw) h (by rw [State.storeReaches_congr k.chunks, hs]; exact h2),
    push_unreached hw hu h1]

theorem pushWord_ok_keeps {w : Word} {s t : State} (h : pushWord w s = .ok () t) :
    Keeps s t ∧ t.SP = s.SP - 2 := by
  obtain ⟨_, u, hu, h⟩ := Res.andThen_eq_ok.1 h
  obtain ⟨k, hs⟩ := push_ok_keeps hu
  obtain ⟨l, ht⟩ := push_ok_keeps h
  exact ⟨k.trans l, by rw [ht, hs, BitVec.sub_sub]; rfl⟩

/-- Taking a trap changes no byte that a store to its three stack slots does not reach (R293, R330). -/
theorem enterTrap_unreached {ret : Word} {st : Byte} {vec : Word} {s t : State} {a : Word}
    (hw : s.bus.mem.wf = true) (h : enterTrap ret st vec s = .ok () t)
    (h1 : ¬ s.storeReaches (stackAddress s.SP) a) (h2 : ¬ s.storeReaches (stackAddress (s.SP - 1)) a)
    (h3 : ¬ s.storeReaches (stackAddress (s.SP - 2)) a) : t.byteAt a = s.byteAt a := by
  obtain ⟨_, u, hu, h⟩ := Res.andThen_eq_ok.1 h
  obtain ⟨_, x, hx, h⟩ := Res.andThen_eq_ok.1 h
  obtain ⟨pc, y, hy, h⟩ := Res.andThen_eq_ok.1 h
  cases h
  obtain ⟨k, hs⟩ := pushWord_ok_keeps hu
  have hr := readPair_readsOnly vec (vec + 1) { x with flags := { x.flags with I := true } }
  rw [read16] at hy
  rw [hy] at hr
  have hb : y.byteAt a = x.byteAt a := ReadOnly.byteAt hr a
  exact hb.trans ((push_unreached (k.wf hw) hx
    (by rw [State.storeReaches_congr k.chunks, hs]; exact h3)).trans (pushWord_unreached hw hu h1 h2))

theorem enterTrap_frame {ret : Word} {st : Byte} {vec : Word} {s t : State}
    (h : enterTrap ret st vec s = .ok () t) :
    t = { s with PC := t.PC, SP := t.SP, flags := { s.flags with I := true }, bus := t.bus } := by
  obtain ⟨_, u, hu, h⟩ := Res.andThen_eq_ok.1 h
  obtain ⟨_, x, hx, h⟩ := Res.andThen_eq_ok.1 h
  obtain ⟨pc, y, hy, h⟩ := Res.andThen_eq_ok.1 h
  cases h
  have hr := readPair_readsOnly vec (vec + 1) { x with flags := { x.flags with I := true } }
  rw [read16] at hy
  rw [hy] at hr
  have hf := (pushWord_frame hu).trans (push_frame hx)
  rw [StackFrame] at hf
  rw [hr.state, hf]

theorem returnFromTrap_frame {s t : State} (h : returnFromTrap s = .ok () t) :
    ∃ b, t = { s with PC := t.PC, SP := t.SP, flags := s.flags.pulled b, bus := t.bus } := by
  obtain ⟨b, u, hu, h⟩ := Res.andThen_eq_ok.1 h
  obtain ⟨pc, x, hx, h⟩ := Res.andThen_eq_ok.1 h
  cases h
  have h1 := pull_frame hu
  have h2 := pullWord_frame hx
  rw [StackFrame] at h1 h2
  exact ⟨b, by rw [h2, h1]⟩

/-! ## The class shapes -/

theorem resolve_readOnly {m : Mode} {p : Word} {r : Resolved} {s t : State}
    (h : resolve m p s = .ok r t) : ReadOnly s t := by
  have hr := resolve_readsOnly m p s
  rw [h] at hr
  exact hr

theorem needEA_ok {m : Mode} {r : Resolved} {s t : State} {ea : Word} (h : needEA m r s = .ok ea t) :
    r.ea = some ea ∧ t = s := by
  unfold needEA at h
  split at h
  · cases h
    exact ⟨‹_›, rfl⟩
  · cases h

theorem readClass_ok {m : Mode} {p : Word} {c : Nat} {pen : Bool} {chk : State → Res Unit}
    {f : Byte → State → State} {s t : State} (hc : ∀ u w, chk u = .ok () w → w = u)
    (h : readClass m p c pen chk f s = .ok () t) :
    ∃ r s1 v s2, resolve m p s = .ok r s1 ∧ ReadOnly s s2 ∧
      t = (f v s2).account (c + crossExtra pen r) := by
  obtain ⟨r, s1, h1, h⟩ := Res.andThen_eq_ok.1 h
  obtain ⟨_, u, h2, h⟩ := Res.andThen_eq_ok.1 h
  obtain ⟨v, s2, h3, h⟩ := Res.andThen_eq_ok.1 h
  cases h
  obtain rfl := hc _ _ h2
  have h4 := operandValue_readsOnly m p r u
  rw [h3] at h4
  exact ⟨r, u, v, s2, h1, (resolve_readOnly h1).trans h4, rfl⟩

theorem unchecked_ok (u w : State) (h : unchecked u = .ok () w) : w = u := by
  cases h
  rfl

theorem decimalCheck_ok (op : Byte) (n : Word) (u w : State) (h : decimalCheck op n u = .ok () w) :
    w = u := by
  unfold decimalCheck at h
  split at h
  · cases h
  · cases h
    rfl

theorem writeClass_ok {m : Mode} {p : Word} {c : Nat} {reg : State → Byte} {s t : State}
    (h : writeClass m p c reg s = .ok () t) :
    ∃ r s1 ea u, resolve m p s = .ok r s1 ∧ r.ea = some ea ∧ memWrite ea (reg s1) s1 = .ok () u ∧
      t = u.account c := by
  obtain ⟨r, s1, h1, h⟩ := Res.andThen_eq_ok.1 h
  obtain ⟨ea, u, h2, h⟩ := Res.andThen_eq_ok.1 h
  obtain ⟨_, w, h3, h⟩ := Res.andThen_eq_ok.1 h
  cases h
  obtain ⟨he, rfl⟩ := needEA_ok h2
  exact ⟨r, u, ea, w, h1, he, h3, rfl⟩

theorem rmwClass_ok {m : Mode} {p : Word} {c : Nat} {f : Byte → State → Byte × State} {s t : State}
    (h : rmwClass m p c f s = .ok () t) :
    (m = .accumulator ∧ t = State.account c { (f s.A s).2 with A := (f s.A s).1 }) ∨
    (m ≠ .accumulator ∧ ∃ r s1 ea v s2 u, resolve m p s = .ok r s1 ∧ r.ea = some ea ∧
      memRead ea s1 = .ok v s2 ∧ memWrite ea (f v s2).1 (f v s2).2 = .ok () u ∧ t = u.account c) := by
  by_cases hm : m = .accumulator
  · subst hm
    cases h
    exact .inl ⟨rfl, rfl⟩
  · refine .inr ⟨hm, ?_⟩
    have h0 := h
    unfold rmwClass at h
    obtain ⟨r, s1, h1, h⟩ := Res.andThen_eq_ok.1 h
    have he : ∃ ea, r.ea = some ea := by
      cases hr : r.ea with
      | some ea => exact ⟨ea, rfl⟩
      | none =>
        cases m <;> first
          | exact absurd rfl hm
          | simp [needEA, hr] at h
    obtain ⟨ea, he⟩ := he
    rw [rmwClass_of_ea h1 he] at h0
    obtain ⟨v, s2, h2, h0⟩ := Res.andThen_eq_ok.1 h0
    obtain ⟨_, u, h3, h0⟩ := Res.andThen_eq_ok.1 h0
    cases h0
    exact ⟨r, s1, ea, v, s2, u, h1, he, h2, h3, rfl⟩

theorem jumpClass_ok {m : Mode} {p : Word} {c : Nat} {f : Word → State → Res Unit} {s t : State}
    (h : jumpClass m p c f s = .ok () t) :
    ∃ r s1 ea u, resolve m p s = .ok r s1 ∧ r.ea = some ea ∧ f ea s1 = .ok () u ∧ t = u.account c := by
  obtain ⟨r, s1, h1, h⟩ := Res.andThen_eq_ok.1 h
  obtain ⟨ea, u, h2, h⟩ := Res.andThen_eq_ok.1 h
  obtain ⟨_, w, h3, h⟩ := Res.andThen_eq_ok.1 h
  cases h
  obtain ⟨he, rfl⟩ := needEA_ok h2
  exact ⟨r, u, ea, w, h1, he, h3, rfl⟩

theorem branchClass_ok {p : Word} {cond : State → Bool} {s t : State}
    (h : branchClass p cond s = .ok () t) :
    ∃ r ea, resolve .relative p s = .ok r s ∧ r.ea = some ea ∧
      t = (if cond s then { s with PC := ea } else s : State).account (2 + branchExtra (cond s) r) := by
  cases h
  exact ⟨_, _, rfl, rfl, rfl⟩

theorem stackClass_ok {c : Nat} {f : State → Res Unit} {s t : State}
    (h : stackClass c f s = .ok () t) : ∃ u, f s = .ok () u ∧ t = u.account c := by
  obtain ⟨_, u, h1, h⟩ := Res.andThen_eq_ok.1 h
  cases h
  exact ⟨u, h1, rfl⟩

/-- An instruction that completes has run its shape. -/
theorem exec_eq_next {i : Instr} {s t : State} (h : exec i s = .next t) :
    (shapeOf i).run i s = .ok () t := by
  rw [exec_eq_run] at h
  exact Res.outcome_eq_next.1 h

end Sys2Proof.Machine
end

