-- ==== Sys2Proof/Laws/Arith.lean ====
section
/-! SUPPORT. The laws of the ALU: signed overflow, the bits a shift moves, and the operand-class shapes
where the operand read answers. -/

set_option maxRecDepth 8000

namespace Sys2Proof.Machine

/-! ## Bits and values -/

theorem getLsbD_seven (x : Byte) : x.getLsbD 7 = decide (128 ≤ x.toNat) := by
  have h : ∀ n < 256, (BitVec.ofNat 8 n).getLsbD 7 = decide (128 ≤ n) := by decide
  simpa using h x.toNat x.isLt

theorem getLsbD_zero (x : Byte) : x.getLsbD 0 = decide (x.toNat % 2 = 1) := by
  have h : ∀ n < 256, (BitVec.ofNat 8 n).getLsbD 0 = decide (n % 2 = 1) := by decide
  simpa using h x.toNat x.isLt

/-- The value of ROL (R273). -/
theorem rol_toNat (v : Byte) (c : Bool) :
    ((v <<< 1) ||| (BitVec.ofBool c).setWidth 8).toNat = (2 * v.toNat + c.toNat) % 256 := by
  have h : ∀ n < 256, ∀ c, ((BitVec.ofNat 8 n <<< 1) ||| (BitVec.ofBool c).setWidth 8).toNat =
      (2 * n + c.toNat) % 256 := by decide
  simpa using h v.toNat v.isLt c

/-- The value of ROR (R274). -/
theorem ror_toNat (v : Byte) (c : Bool) :
    ((v >>> 1) ||| ((BitVec.ofBool c).setWidth 8 <<< 7)).toNat = v.toNat / 2 + 128 * c.toNat := by
  have h : ∀ n < 256, ∀ c, ((BitVec.ofNat 8 n >>> 1) |||
      ((BitVec.ofBool c).setWidth 8 <<< 7)).toNat = n / 2 + 128 * c.toNat := by decide
  simpa using h v.toNat v.isLt c

/-- A byte as a signed number. -/
theorem byte_toInt (x : Byte) :
    x.toInt = if 128 ≤ x.toNat then (x.toNat : Int) - 256 else x.toNat := by
  rw [BitVec.toInt_eq_toNat_cond]
  split <;> split <;> omega

/-- The overflow bit of R250 says that the signed sum lies outside −128..127. -/
theorem addWithCarry_overflow (a b : Byte) (c : Bool) :
    (addWithCarry a b c).2.2 =
      decide (a.toInt + b.toInt + c.toNat < -128 ∨ 127 < a.toInt + b.toInt + c.toNat) := by
  simp only [addWithCarry]
  generalize hr : (BitVec.ofNat 8 (a.toNat + b.toNat + c.toNat)) = r
  have h80 : ∀ x : Byte, (x &&& 0x80 != 0) = x.getLsbD 7 := by
    intro x
    have h : ∀ n < 256, ((BitVec.ofNat 8 n) &&& 0x80 != 0) = (BitVec.ofNat 8 n).getLsbD 7 := by decide
    simpa using h x.toNat x.isLt
  rw [h80]
  simp only [BitVec.getLsbD_and, BitVec.getLsbD_not, BitVec.getLsbD_xor]
  simp only [getLsbD_seven]
  have ha := a.isLt
  have hb := b.isLt
  have hrv : r.toNat = (a.toNat + b.toNat + c.toNat) % 256 := by rw [← hr]; simp
  have hc : c.toNat ≤ 1 := by cases c <;> simp
  rw [byte_toInt a, byte_toInt b, hrv]
  generalize a.toNat = x at *
  generalize b.toNat = y at *
  generalize c.toNat = z at *
  rw [Bool.eq_iff_iff]
  by_cases h1 : 128 ≤ x <;> by_cases h2 : 128 ≤ y <;> by_cases h3 : 128 ≤ (x + y + z) % 256 <;>
    simp [h1, h2, h3] <;> omega

/-! ## The operand read -/

theorem crossExtra_eq (b : Bool) (r : Resolved) :
    crossExtra b r = if b = true ∧ r.crossed = true then 1 else 0 := by
  simp [crossExtra]

theorem readOperand_readOnly {m : Mode} {p : Word} {s t : State} {x : Resolved × Byte}
    (h : readOperand m p s = .ok x t) : ReadOnly s t := by
  have hr := readOperand_readsOnly m p s
  rw [h] at hr
  exact hr

theorem readClass_decimal_ok {m : Mode} {p : Word} {c : Nat} {pen : Bool} {op : Byte} {n : Word}
    {f : Byte → State → State} {s t : State} {r : Resolved} {v : Byte} (hd : ¬ s.refusesDecimal)
    (h : readOperand m p s = .ok (r, v) t) :
    readClass m p c pen (decimalCheck op n) f s = .ok () ((f v t).account (c + crossExtra pen r)) := by
  unfold readOperand at h
  obtain ⟨r', s1, hr, h⟩ := Res.andThen_eq_ok.1 h
  obtain ⟨v', s2, hv, h⟩ := Res.andThen_eq_ok.1 h
  cases h
  have hn : ¬ (s1.params.decimal = .refuse ∧ s1.flags.D = true) := by
    rw [(resolve_readOnly hr).state]
    exact hd
  simp only [readClass, hr, hv, decimalCheck, hn, Res.andThen_ok, if_false]

theorem readClass_decimal_err {m : Mode} {p : Word} {c : Nat} {pen : Bool} {op : Byte} {n : Word}
    {f : Byte → State → State} {s t : State} {e : CoreError} (hd : ¬ s.refusesDecimal)
    (h : readOperand m p s = .err e t) : readClass m p c pen (decimalCheck op n) f s = .err e t := by
  unfold readOperand at h
  rcases Res.andThen_eq_err.1 h with h | ⟨r', s1, hr, h⟩
  · simp [readClass, h]
  · have hn : ¬ (s1.params.decimal = .refuse ∧ s1.flags.D = true) := by
      rw [(resolve_readOnly hr).state]
      exact hd
    rcases Res.andThen_eq_err.1 h with h | ⟨v', s2, hv, h⟩
    · simp only [readClass, hr, h, decimalCheck, hn, Res.andThen_ok, Res.andThen_err, if_false]
    · cases h

/-- An RMW-class instruction in a memory mode, for an effect that writes flags only and does not look at
the bus: one write of the result, and what every byte reads as after it. -/
theorem rmwClass_memory {m : Mode} {p : Word} {c : Nat} {f : Byte → State → Byte × State}
    {s s1 s2 : State} {r : Resolved} {ea : Word} {v : Byte} (hw : s.bus.mem.wf = true)
    (h : resolve m p s = .ok r s1) (hea : r.ea = some ea) (hr : memRead ea s1 = .ok v s2)
    (hf : ∀ (v : Byte) (u : State), (f v u).2 = { u with flags := (f v u).2.flags })
    (hb : ∀ (v : Byte) (u : State) (b : Bus), (f v { u with bus := b }).1 = (f v u).1 ∧
      (f v { u with bus := b }).2.flags = (f v u).2.flags) :
    ∃ t, memWrite ea (f v s).1 s2 = .ok () t ∧
      rmwClass m p c f s =
        .ok () { s with flags := (f v s).2.flags, CYC := s.CYC + c, bus := t.bus } ∧
      (∀ a, ¬ s.storeReaches ea a → t.byteAt a = s.byteAt a) ∧
      ∀ a, s.storeReaches ea a → t.byteAt a = some (f v s).1 := by
  have ro := (resolve_readOnly h).trans (memRead_readOnly hr)
  have hw2 : s2.bus.mem.wf = true := by rw [ro.mem]; exact hw
  have sr := State.storeReaches_congr ro.chunks ea
  obtain ⟨t, ht⟩ := memWrite_of_memRead (f v s).1 hr
  refine ⟨t, ht, ?_, fun a ha => ?_, fun a ha => ?_⟩
  · rw [rmwClass_of_ea h hea, hr, Res.andThen_ok]
    have hs : s2 = { s with bus := s2.bus } := ro.state
    have h1 := (hb v s s2.bus).1
    have h2 := (hb v s s2.bus).2
    rw [← hs] at h1 h2
    rw [h1, memWrite_of_bus_eq (t := s2) (by rw [hf]) ht, Res.andThen_ok, hf, h2, hs]
    rfl
  · rw [memWrite_byteAt_of_not_reached hw2 ht (by rw [sr]; exact ha), ro.byteAt]
  · exact memWrite_byteAt_of_reached hw2 ht ((sr a).2 ha)

end Sys2Proof.Machine
end

