-- ==== Sys2Proof/Laws/Errors.lean ====
section
/-! SUPPORT. Which errors a part of a step can raise (R320 to R324), for every operation of Ops.lean and
every class shape of Operands.lean. -/

namespace Sys2Proof.Machine

/-- An error of routing under the chunk list `c` (R83): nothing defined, or no chunk covers the address. -/
def BusError (c : Option (List Chunk)) (e : CoreError) : Prop :=
  (c = none ∧ ∃ k, e = .configurationError k) ∨
  (c ≠ none ∧ ∃ a k, e = .unmappedAddress a k ∧ ∀ s : State, s.bus.chunks = c → ¬ s.mapped a)

/-- A part of a step keeps the chunk list `c` and raises an error of routing or one of `Q`. -/
def Res.Raises {α : Type} (c : Option (List Chunk)) (Q : CoreError → Prop) : Res α → Prop
  | .ok _ t => t.bus.chunks = c
  | .err e _ => BusError c e ∨ Q e

section

variable {c : Option (List Chunk)} {Q : CoreError → Prop}

theorem Res.Raises.andThen {α β : Type} {r : Res α} {f : α → State → Res β} (h : r.Raises c Q)
    (hf : ∀ a t, t.bus.chunks = c → (f a t).Raises c Q) : (r.andThen f).Raises c Q := by
  cases r with
  | ok a t => exact hf a t h
  | err e t => exact h

/-- An unmapped address is not located, whatever the kind of the access. -/
theorem not_mapped_of_locate {s : State} {a : Word} {k : AccessKind} {e : CoreError}
    (h : locate s.bus.chunks a k = .error e) : ¬ s.mapped a := by
  intro hm
  obtain ⟨hit, hl⟩ := locate_of_mapped hm k
  rw [hl] at h
  cases h

theorem busError_of_locate {s : State} {a : Word} {k : AccessKind} {e : CoreError}
    (h : locate s.bus.chunks a k = .error e) : BusError s.bus.chunks e := by
  rcases locate_error h with ⟨hc, he⟩ | ⟨hc, he⟩
  · exact .inl ⟨hc, k, he⟩
  · refine .inr ⟨hc, a, k, he, fun s' hs => ?_⟩
    rw [← hs] at h
    exact not_mapped_of_locate h

theorem memRead_raises (a : Word) {s : State} (hs : s.bus.chunks = c) : (memRead a s).Raises c Q := by
  subst hs
  unfold memRead Bus.read
  cases hl : locate s.bus.chunks a .read with
  | error e => exact .inl (busError_of_locate hl)
  | ok hit =>
    obtain ⟨k, off⟩ := hit
    cases k <;> exact rfl

theorem memWrite_raises (a : Word) (v : Byte) {s : State} (hs : s.bus.chunks = c) :
    (memWrite a v s).Raises c Q := by
  subst hs
  unfold memWrite Bus.write
  cases hl : locate s.bus.chunks a .write with
  | error e => exact .inl (busError_of_locate hl)
  | ok hit =>
    obtain ⟨k, off⟩ := hit
    cases k <;> exact rfl

theorem readPair_raises (al ah : Word) {s : State} (hs : s.bus.chunks = c) :
    (readPair al ah s).Raises c Q :=
  (memRead_raises al hs).andThen fun _ _ ht => (memRead_raises ah ht).andThen fun _ _ hu => hu

theorem read16PageWrap_raises (p : Word) {s : State} (hs : s.bus.chunks = c) :
    (read16PageWrap p s).Raises c Q := by
  unfold read16PageWrap
  split
  · exact readPair_raises _ _ hs
  · exact readPair_raises _ _ hs

theorem push_raises (v : Byte) {s : State} (hs : s.bus.chunks = c) : (push v s).Raises c Q :=
  (memWrite_raises _ v hs).andThen fun _ _ ht => ht

theorem pull_raises {s : State} (hs : s.bus.chunks = c) : (pull s).Raises c Q :=
  memRead_raises _ (s := { s with SP := s.SP + 1 }) hs

theorem pushWord_raises (w : Word) {s : State} (hs : s.bus.chunks = c) : (pushWord w s).Raises c Q :=
  (push_raises _ hs).andThen fun _ _ ht => push_raises _ ht

theorem pullWord_raises {s : State} (hs : s.bus.chunks = c) : (pullWord s).Raises c Q :=
  (pull_raises hs).andThen fun _ _ ht => (pull_raises ht).andThen fun _ _ hu => hu

theorem enterTrap_raises (ret : Word) (st : Byte) (v : Word) {s : State} (hs : s.bus.chunks = c) :
    (enterTrap ret st v s).Raises c Q :=
  (pushWord_raises _ hs).andThen fun _ _ ht => (push_raises _ ht).andThen fun _ u hu =>
    (readPair_raises _ _ (s := { u with flags := { u.flags with I := true } }) hu).andThen
      fun _ _ hw => hw

theorem returnFromTrap_raises {s : State} (hs : s.bus.chunks = c) : (returnFromTrap s).Raises c Q :=
  (pull_raises hs).andThen fun b t ht =>
    (pullWord_raises (s := { t with flags := t.flags.pulled b }) ht).andThen fun _ _ hw => hw

theorem fetchByte_raises {s : State} (hs : s.bus.chunks = c) : (fetchByte s).Raises c Q :=
  (memRead_raises _ hs).andThen fun _ _ ht => ht

theorem resolve_raises (m : Mode) (p : Word) {s : State} (hs : s.bus.chunks = c) :
    (resolve m p s).Raises c Q := by
  cases m <;> first
    | exact hs
    | exact (read16PageWrap_raises p hs).andThen fun _ _ ht => ht
    | exact (readPair_raises _ _ hs).andThen fun _ _ ht => ht

/-! ## The class shapes -/

/-- The modes in which the resolver gives an effective address (R160). -/
def Mode.HasEA (m : Mode) : Prop := m ≠ .implicit ∧ m ≠ .accumulator ∧ m ≠ .immediate

theorem needEA_of_resolve {m : Mode} {p : Word} {s t : State} {r : Resolved} (hm : Mode.HasEA m)
    (h : resolve m p s = .ok r t) : ∃ ea, needEA m r t = .ok ea t := by
  obtain ⟨ea, he⟩ := resolve_ea h hm.1 hm.2.1 hm.2.2
  exact ⟨ea, by simp [needEA, he]⟩

/-- A sequence that starts with the resolver. -/
theorem resolve_andThen_raises {β : Type} {m : Mode} {p : Word} {s : State}
    {f : Resolved → State → Res β} (hs : s.bus.chunks = c)
    (hf : ∀ r t, resolve m p s = .ok r t → ReadOnly s t → t.bus.chunks = c → (f r t).Raises c Q) :
    ((resolve m p s).andThen f).Raises c Q := by
  have h := resolve_raises (Q := Q) m p hs
  have hk := resolve_readsOnly m p s
  cases hr : resolve m p s with
  | ok r t => rw [hr] at h hk; exact hf r t hr hk h
  | err e t => rw [hr] at h; exact h

theorem readClass_raises {m : Mode} {p : Word} {n : Nat} {pen : Bool} {chk : State → Res Unit}
    {f : Byte → State → State} {s : State} (hs : s.bus.chunks = c) (hm : Mode.HasEA m ∨ m = .immediate)
    (hc : ∀ t, ReadOnly s t → (chk t = .ok () t) ∨ (∃ e, chk t = .err e t ∧ Q e))
    (hf : ∀ v t, (f v t).bus = t.bus) : (readClass m p n pen chk f s).Raises c Q := by
  refine resolve_andThen_raises hs fun r t hr hro ht => ?_
  rcases hc t hro with h | ⟨e, h, hq⟩
  · rw [h, Res.andThen_ok]
    have fin : ∀ v u, u.bus.chunks = c →
        (Res.ok () ((f v u).account (n + crossExtra pen r))).Raises c Q := by
      intro v u hu
      show (f v u).bus.chunks = c
      rw [hf]
      exact hu
    rcases hm with hm | rfl
    · obtain ⟨ea, he⟩ := needEA_of_resolve hm hr
      have hv : operandValue m p r t = memRead ea t := by
        have h3 := hm.2.2
        cases m <;> first
          | exact absurd rfl h3
          | simp [operandValue, he]
      rw [hv]
      exact (memRead_raises ea ht).andThen fun v u hu => fin v u hu
    · exact fin _ _ ht
  · rw [h]
    exact .inr hq

theorem writeClass_raises {m : Mode} {p : Word} {n : Nat} {reg : State → Byte} {s : State}
    (hs : s.bus.chunks = c) (hm : Mode.HasEA m) : (writeClass m p n reg s).Raises c Q := by
  refine resolve_andThen_raises hs fun r t hr _ ht => ?_
  obtain ⟨ea, he⟩ := needEA_of_resolve hm hr
  rw [he, Res.andThen_ok]
  exact (memWrite_raises _ _ ht).andThen fun _ _ hu => hu

theorem rmwClass_raises {m : Mode} {p : Word} {n : Nat} {f : Byte → State → Byte × State} {s : State}
    (hs : s.bus.chunks = c) (hm : Mode.HasEA m ∨ m = .accumulator)
    (hf : ∀ v t, (f v t).2.bus = t.bus) : (rmwClass m p n f s).Raises c Q := by
  rcases hm with hm | rfl
  · have h := resolve_raises (Q := Q) m p hs
    cases hr : resolve m p s with
    | ok r t =>
      rw [hr] at h
      obtain ⟨ea, he⟩ := resolve_ea hr hm.1 hm.2.1 hm.2.2
      rw [rmwClass_of_ea hr he]
      exact (memRead_raises ea h).andThen fun v u hu =>
        (memWrite_raises _ _ (by rw [hf]; exact hu)).andThen fun _ _ hw => hw
    | err e t =>
      rw [hr] at h
      simp only [rmwClass, hr]
      exact h
  · show ((f s.A s).2).bus.chunks = c
    rw [hf]
    exact hs

theorem jumpClass_raises {m : Mode} {p : Word} {n : Nat} {f : Word → State → Res Unit} {s : State}
    (hs : s.bus.chunks = c) (hm : Mode.HasEA m)
    (hf : ∀ ea t, t.bus.chunks = c → (f ea t).Raises c Q) : (jumpClass m p n f s).Raises c Q := by
  refine resolve_andThen_raises hs fun r t hr _ ht => ?_
  obtain ⟨ea, he⟩ := needEA_of_resolve hm hr
  rw [he, Res.andThen_ok]
  exact (hf ea t ht).andThen fun _ _ hu => hu

theorem branchClass_raises {p : Word} {cond : State → Bool} {s : State} (hs : s.bus.chunks = c) :
    (branchClass p cond s).Raises c Q := by
  show (if cond s then _ else _ : State).bus.chunks = c
  split
  · exact hs
  · exact hs

theorem stackClass_raises {n : Nat} {f : State → Res Unit} {s : State} (h : (f s).Raises c Q) :
    (stackClass n f s).Raises c Q := h.andThen fun _ _ ht => ht

end

/-- R251: what the decimal check answers in the state the resolver leaves. -/
theorem decimalCheck_cases (op : Byte) (n : Word) {s t : State} (h : ReadOnly s t) :
    (decimalCheck op n t = .ok () t) ∨
    (∃ e, decimalCheck op n t = .err e t ∧
      e = .decimalModeRefused op (s.PC - n) ∧ s.refusesDecimal) := by
  unfold decimalCheck
  split
  · rename_i hd
    have hp : t.PC = s.PC := by rw [h.state]
    have hr : s.refusesDecimal := by rw [h.state] at hd; exact hd
    exact .inr ⟨_, rfl, by rw [hp], hr⟩
  · exact .inl rfl

/-- The errors an instruction can raise: an error of routing, or the refusal of decimal arithmetic. -/
theorem shape_run_raises (i : Instr) (s : State) :
    ((shapeOf i).run i s).Raises s.bus.chunks fun e =>
      e = .decimalModeRefused i.opcode (s.PC - BitVec.ofNat 16 i.length) ∧ s.refusesDecimal ∧
      (i.mnemonic = .adc ∨ i.mnemonic = .sbc) := by
  have hc := Instr.mode_taken i
  unfold shapeOf
  split <;> rename_i hm <;> rw [hm] at hc <;> unfold Shape.run <;> first
    | (refine readClass_raises rfl ?_ (fun t _ => .inl rfl) fun _ _ => rfl
       revert hc
       cases i.mode <;> simp [Mnemonic.operandClass, OperandClass.takes, Mode.HasEA])
    | (refine readClass_raises rfl ?_ (fun t ht => ?_) fun _ _ => rfl
       · revert hc
         cases i.mode <;> simp [Mnemonic.operandClass, OperandClass.takes, Mode.HasEA]
       · rcases decimalCheck_cases i.opcode (BitVec.ofNat 16 i.length) ht with h | ⟨e, h, he, hd⟩
         · exact .inl h
         · exact .inr ⟨e, h, he, hd, by simp [hm]⟩)
    | (refine writeClass_raises rfl ?_
       revert hc
       cases i.mode <;> simp [Mnemonic.operandClass, OperandClass.takes, Mode.HasEA])
    | (refine rmwClass_raises rfl ?_ fun _ _ => rfl
       revert hc
       cases i.mode <;> simp [Mnemonic.operandClass, OperandClass.takes, Mode.HasEA])
    | exact branchClass_raises rfl
    | exact rfl
    | exact stackClass_raises (push_raises _ rfl)
    | exact stackClass_raises (enterTrap_raises _ _ _ rfl)
    | exact stackClass_raises (returnFromTrap_raises rfl)
    | exact stackClass_raises ((pull_raises rfl).andThen fun _ _ ht => ht)
    | exact stackClass_raises ((pullWord_raises rfl).andThen fun _ _ ht => ht)
    | (refine jumpClass_raises rfl ?_ fun _ _ ht => ?_
       · revert hc
         cases i.mode <;> simp [Mnemonic.operandClass, OperandClass.takes, Mode.HasEA]
       · first
           | exact ht
           | exact (pushWord_raises _ ht).andThen fun _ _ hu => hu)

end Sys2Proof.Machine
end

