-- ==== Sys2Proof/Laws/Fetch.lean ====
section
/-! SUPPORT. What the fetch of an instruction leaves (R191 to R193, R199), and how long an instruction is
by its operand. -/

namespace Sys2Proof.Machine

theorem length_of_operand_none {i : Instr} (h : i.operand = .none) : i.length = 1 := by
  cases i <;> first
    | (cases h; done)
    | rfl

theorem length_of_operand_byte {i : Instr} {p : Byte} (h : i.operand = .byte p) : i.length = 2 := by
  cases i <;> first
    | (cases h; done)
    | rfl

theorem length_of_operand_word {i : Instr} {p : Word} (h : i.operand = .word p) : i.length = 3 := by
  cases i <;> first
    | (cases h; done)
    | rfl

/-- One fetched byte moves PC by 1 and reads. -/
theorem fetchByte_ok {s t : State} {v : Byte} (h : fetchByte s = .ok v t) :
    t = { s with PC := s.PC + 1, bus := t.bus } ∧ t.bus.chunks = s.bus.chunks ∧
      t.bus.mem = s.bus.mem := by
  obtain ⟨v', s', hm, h⟩ := Res.andThen_eq_ok.1 h
  cases h
  have hr := memRead_readsOnly s.PC s
  rw [hm] at hr
  exact ⟨by rw [hr.state], hr.chunks, hr.mem⟩

/-- A fetch moves PC by the length of the instruction and reads. -/
theorem fetch_ok {s s1 : State} {i : Instr} (h : fetch s = .ok i s1) :
    s1 = { s with PC := s.PC + BitVec.ofNat 16 i.length, bus := s1.bus } ∧
      s1.bus.chunks = s.bus.chunks ∧ s1.bus.mem = s.bus.mem := by
  unfold fetch at h
  obtain ⟨op, t, h1, h⟩ := Res.andThen_eq_ok.1 h
  obtain ⟨ht, hc, hm⟩ := fetchByte_ok h1
  have pt : t.PC = s.PC + 1 := by rw [ht]
  split at h
  · cases h
  · rename_i j hf
    cases h
    rcases formOf_some hf with ⟨j, g, _, hp⟩ | ⟨_, g, _⟩ | ⟨_, g, _⟩ <;> cases g
    rw [length_of_operand_none hp]
    exact ⟨ht, hc, hm⟩
  · rename_i mk hf
    obtain ⟨p, u, h2, h⟩ := Res.andThen_eq_ok.1 h
    cases h
    obtain ⟨hu, hc2, hm2⟩ := fetchByte_ok h2
    rcases formOf_some hf with ⟨_, g, _, _⟩ | ⟨_, g, hs⟩ | ⟨_, g, _⟩ <;> cases g
    rw [length_of_operand_byte (hs p).2]
    refine ⟨?_, hc2.trans hc, hm2.trans hm⟩
    rw [hu, pt, ht, BitVec.add_assoc]
    rfl
  · rename_i mk hf
    obtain ⟨l, u, h2, h⟩ := Res.andThen_eq_ok.1 h
    obtain ⟨hb, w, h3, h⟩ := Res.andThen_eq_ok.1 h
    cases h
    obtain ⟨hu, hc2, hm2⟩ := fetchByte_ok h2
    obtain ⟨hw, hc3, hm3⟩ := fetchByte_ok h3
    have pu : u.PC = s.PC + 1 + 1 := by rw [hu, pt]
    rcases formOf_some hf with ⟨_, g, _, _⟩ | ⟨_, g, _⟩ | ⟨_, g, hs⟩ <;> cases g
    rw [length_of_operand_word (hs _).2]
    refine ⟨?_, hc3.trans (hc2.trans hc), hm3.trans (hm2.trans hm)⟩
    rw [hw, pu, hu, ht, BitVec.add_assoc, BitVec.add_assoc]
    rfl

end Sys2Proof.Machine
end

