-- ==== Sys2Proof/Laws/PerInstr.lean ====
section
/-! SUPPORT. Facts about every instruction as syntax, one lemma per constructor of `Instr`. -/

namespace Sys2Proof.Laws.Table

/-- The instruction is well-formed (R130, R161, R173, R197), and its encoding is as long as the table says
(R137). -/
def Statement (i : Instr) : Prop := i.wf = true ∧ (encode i).length = i.length

theorem brk : Statement .brk := ⟨rfl, rfl⟩
theorem oraIndX (p : Byte) : Statement (.oraIndX p) := ⟨rfl, rfl⟩
theorem oraZp (p : Byte) : Statement (.oraZp p) := ⟨rfl, rfl⟩
theorem aslZp (p : Byte) : Statement (.aslZp p) := ⟨rfl, rfl⟩
theorem php : Statement .php := ⟨rfl, rfl⟩
theorem oraImm (p : Byte) : Statement (.oraImm p) := ⟨rfl, rfl⟩
theorem aslA : Statement .aslA := ⟨rfl, rfl⟩
theorem oraAbs (p : Word) : Statement (.oraAbs p) := ⟨rfl, rfl⟩
theorem aslAbs (p : Word) : Statement (.aslAbs p) := ⟨rfl, rfl⟩
theorem bpl (p : Byte) : Statement (.bpl p) := ⟨rfl, rfl⟩
theorem oraIndY (p : Byte) : Statement (.oraIndY p) := ⟨rfl, rfl⟩
theorem oraZpX (p : Byte) : Statement (.oraZpX p) := ⟨rfl, rfl⟩
theorem aslZpX (p : Byte) : Statement (.aslZpX p) := ⟨rfl, rfl⟩
theorem clc : Statement .clc := ⟨rfl, rfl⟩
theorem oraAbsY (p : Word) : Statement (.oraAbsY p) := ⟨rfl, rfl⟩
theorem oraAbsX (p : Word) : Statement (.oraAbsX p) := ⟨rfl, rfl⟩
theorem aslAbsX (p : Word) : Statement (.aslAbsX p) := ⟨rfl, rfl⟩
theorem jsrAbs (p : Word) : Statement (.jsrAbs p) := ⟨rfl, rfl⟩
theorem andIndX (p : Byte) : Statement (.andIndX p) := ⟨rfl, rfl⟩
theorem bitZp (p : Byte) : Statement (.bitZp p) := ⟨rfl, rfl⟩
theorem andZp (p : Byte) : Statement (.andZp p) := ⟨rfl, rfl⟩
theorem rolZp (p : Byte) : Statement (.rolZp p) := ⟨rfl, rfl⟩
theorem plp : Statement .plp := ⟨rfl, rfl⟩
theorem andImm (p : Byte) : Statement (.andImm p) := ⟨rfl, rfl⟩
theorem rolA : Statement .rolA := ⟨rfl, rfl⟩
theorem bitAbs (p : Word) : Statement (.bitAbs p) := ⟨rfl, rfl⟩
theorem andAbs (p : Word) : Statement (.andAbs p) := ⟨rfl, rfl⟩
theorem rolAbs (p : Word) : Statement (.rolAbs p) := ⟨rfl, rfl⟩
theorem bmi (p : Byte) : Statement (.bmi p) := ⟨rfl, rfl⟩
theorem andIndY (p : Byte) : Statement (.andIndY p) := ⟨rfl, rfl⟩
theorem andZpX (p : Byte) : Statement (.andZpX p) := ⟨rfl, rfl⟩
theorem rolZpX (p : Byte) : Statement (.rolZpX p) := ⟨rfl, rfl⟩
theorem sec : Statement .sec := ⟨rfl, rfl⟩
theorem andAbsY (p : Word) : Statement (.andAbsY p) := ⟨rfl, rfl⟩
theorem andAbsX (p : Word) : Statement (.andAbsX p) := ⟨rfl, rfl⟩
theorem rolAbsX (p : Word) : Statement (.rolAbsX p) := ⟨rfl, rfl⟩
theorem rti : Statement .rti := ⟨rfl, rfl⟩
theorem eorIndX (p : Byte) : Statement (.eorIndX p) := ⟨rfl, rfl⟩
theorem eorZp (p : Byte) : Statement (.eorZp p) := ⟨rfl, rfl⟩
theorem lsrZp (p : Byte) : Statement (.lsrZp p) := ⟨rfl, rfl⟩
theorem pha : Statement .pha := ⟨rfl, rfl⟩
theorem eorImm (p : Byte) : Statement (.eorImm p) := ⟨rfl, rfl⟩
theorem lsrA : Statement .lsrA := ⟨rfl, rfl⟩
theorem jmpAbs (p : Word) : Statement (.jmpAbs p) := ⟨rfl, rfl⟩
theorem eorAbs (p : Word) : Statement (.eorAbs p) := ⟨rfl, rfl⟩
theorem lsrAbs (p : Word) : Statement (.lsrAbs p) := ⟨rfl, rfl⟩
theorem bvc (p : Byte) : Statement (.bvc p) := ⟨rfl, rfl⟩
theorem eorIndY (p : Byte) : Statement (.eorIndY p) := ⟨rfl, rfl⟩
theorem eorZpX (p : Byte) : Statement (.eorZpX p) := ⟨rfl, rfl⟩
theorem lsrZpX (p : Byte) : Statement (.lsrZpX p) := ⟨rfl, rfl⟩
theorem cli : Statement .cli := ⟨rfl, rfl⟩
theorem eorAbsY (p : Word) : Statement (.eorAbsY p) := ⟨rfl, rfl⟩
theorem eorAbsX (p : Word) : Statement (.eorAbsX p) := ⟨rfl, rfl⟩
theorem lsrAbsX (p : Word) : Statement (.lsrAbsX p) := ⟨rfl, rfl⟩
theorem rts : Statement .rts := ⟨rfl, rfl⟩
theorem adcIndX (p : Byte) : Statement (.adcIndX p) := ⟨rfl, rfl⟩
theorem adcZp (p : Byte) : Statement (.adcZp p) := ⟨rfl, rfl⟩
theorem rorZp (p : Byte) : Statement (.rorZp p) := ⟨rfl, rfl⟩
theorem pla : Statement .pla := ⟨rfl, rfl⟩
theorem adcImm (p : Byte) : Statement (.adcImm p) := ⟨rfl, rfl⟩
theorem rorA : Statement .rorA := ⟨rfl, rfl⟩
theorem jmpInd (p : Word) : Statement (.jmpInd p) := ⟨rfl, rfl⟩
theorem adcAbs (p : Word) : Statement (.adcAbs p) := ⟨rfl, rfl⟩
theorem rorAbs (p : Word) : Statement (.rorAbs p) := ⟨rfl, rfl⟩
theorem bvs (p : Byte) : Statement (.bvs p) := ⟨rfl, rfl⟩
theorem adcIndY (p : Byte) : Statement (.adcIndY p) := ⟨rfl, rfl⟩
theorem adcZpX (p : Byte) : Statement (.adcZpX p) := ⟨rfl, rfl⟩
theorem rorZpX (p : Byte) : Statement (.rorZpX p) := ⟨rfl, rfl⟩
theorem sei : Statement .sei := ⟨rfl, rfl⟩
theorem adcAbsY (p : Word) : Statement (.adcAbsY p) := ⟨rfl, rfl⟩
theorem adcAbsX (p : Word) : Statement (.adcAbsX p) := ⟨rfl, rfl⟩
theorem rorAbsX (p : Word) : Statement (.rorAbsX p) := ⟨rfl, rfl⟩
theorem staIndX (p : Byte) : Statement (.staIndX p) := ⟨rfl, rfl⟩
theorem styZp (p : Byte) : Statement (.styZp p) := ⟨rfl, rfl⟩
theorem staZp (p : Byte) : Statement (.staZp p) := ⟨rfl, rfl⟩
theorem stxZp (p : Byte) : Statement (.stxZp p) := ⟨rfl, rfl⟩
theorem dey : Statement .dey := ⟨rfl, rfl⟩
theorem txa : Statement .txa := ⟨rfl, rfl⟩
theorem styAbs (p : Word) : Statement (.styAbs p) := ⟨rfl, rfl⟩
theorem staAbs (p : Word) : Statement (.staAbs p) := ⟨rfl, rfl⟩
theorem stxAbs (p : Word) : Statement (.stxAbs p) := ⟨rfl, rfl⟩
theorem bcc (p : Byte) : Statement (.bcc p) := ⟨rfl, rfl⟩
theorem staIndY (p : Byte) : Statement (.staIndY p) := ⟨rfl, rfl⟩
theorem styZpX (p : Byte) : Statement (.styZpX p) := ⟨rfl, rfl⟩
theorem staZpX (p : Byte) : Statement (.staZpX p) := ⟨rfl, rfl⟩
theorem stxZpY (p : Byte) : Statement (.stxZpY p) := ⟨rfl, rfl⟩
theorem tya : Statement .tya := ⟨rfl, rfl⟩
theorem staAbsY (p : Word) : Statement (.staAbsY p) := ⟨rfl, rfl⟩
theorem txs : Statement .txs := ⟨rfl, rfl⟩
theorem staAbsX (p : Word) : Statement (.staAbsX p) := ⟨rfl, rfl⟩
theorem ldyImm (p : Byte) : Statement (.ldyImm p) := ⟨rfl, rfl⟩
theorem ldaIndX (p : Byte) : Statement (.ldaIndX p) := ⟨rfl, rfl⟩
theorem ldxImm (p : Byte) : Statement (.ldxImm p) := ⟨rfl, rfl⟩
theorem ldyZp (p : Byte) : Statement (.ldyZp p) := ⟨rfl, rfl⟩
theorem ldaZp (p : Byte) : Statement (.ldaZp p) := ⟨rfl, rfl⟩
theorem ldxZp (p : Byte) : Statement (.ldxZp p) := ⟨rfl, rfl⟩
theorem tay : Statement .tay := ⟨rfl, rfl⟩
theorem ldaImm (p : Byte) : Statement (.ldaImm p) := ⟨rfl, rfl⟩
theorem tax : Statement .tax := ⟨rfl, rfl⟩
theorem ldyAbs (p : Word) : Statement (.ldyAbs p) := ⟨rfl, rfl⟩
theorem ldaAbs (p : Word) : Statement (.ldaAbs p) := ⟨rfl, rfl⟩
theorem ldxAbs (p : Word) : Statement (.ldxAbs p) := ⟨rfl, rfl⟩
theorem bcs (p : Byte) : Statement (.bcs p) := ⟨rfl, rfl⟩
theorem ldaIndY (p : Byte) : Statement (.ldaIndY p) := ⟨rfl, rfl⟩
theorem ldyZpX (p : Byte) : Statement (.ldyZpX p) := ⟨rfl, rfl⟩
theorem ldaZpX (p : Byte) : Statement (.ldaZpX p) := ⟨rfl, rfl⟩
theorem ldxZpY (p : Byte) : Statement (.ldxZpY p) := ⟨rfl, rfl⟩
theorem clv : Statement .clv := ⟨rfl, rfl⟩
theorem ldaAbsY (p : Word) : Statement (.ldaAbsY p) := ⟨rfl, rfl⟩
theorem tsx : Statement .tsx := ⟨rfl, rfl⟩
theorem ldyAbsX (p : Word) : Statement (.ldyAbsX p) := ⟨rfl, rfl⟩
theorem ldaAbsX (p : Word) : Statement (.ldaAbsX p) := ⟨rfl, rfl⟩
theorem ldxAbsY (p : Word) : Statement (.ldxAbsY p) := ⟨rfl, rfl⟩
theorem cpyImm (p : Byte) : Statement (.cpyImm p) := ⟨rfl, rfl⟩
theorem cmpIndX (p : Byte) : Statement (.cmpIndX p) := ⟨rfl, rfl⟩
theorem cpyZp (p : Byte) : Statement (.cpyZp p) := ⟨rfl, rfl⟩
theorem cmpZp (p : Byte) : Statement (.cmpZp p) := ⟨rfl, rfl⟩
theorem decZp (p : Byte) : Statement (.decZp p) := ⟨rfl, rfl⟩
theorem iny : Statement .iny := ⟨rfl, rfl⟩
theorem cmpImm (p : Byte) : Statement (.cmpImm p) := ⟨rfl, rfl⟩
theorem dex : Statement .dex := ⟨rfl, rfl⟩
theorem cpyAbs (p : Word) : Statement (.cpyAbs p) := ⟨rfl, rfl⟩
theorem cmpAbs (p : Word) : Statement (.cmpAbs p) := ⟨rfl, rfl⟩
theorem decAbs (p : Word) : Statement (.decAbs p) := ⟨rfl, rfl⟩
theorem bne (p : Byte) : Statement (.bne p) := ⟨rfl, rfl⟩
theorem cmpIndY (p : Byte) : Statement (.cmpIndY p) := ⟨rfl, rfl⟩
theorem cmpZpX (p : Byte) : Statement (.cmpZpX p) := ⟨rfl, rfl⟩
theorem decZpX (p : Byte) : Statement (.decZpX p) := ⟨rfl, rfl⟩
theorem cld : Statement .cld := ⟨rfl, rfl⟩
theorem cmpAbsY (p : Word) : Statement (.cmpAbsY p) := ⟨rfl, rfl⟩
theorem cmpAbsX (p : Word) : Statement (.cmpAbsX p) := ⟨rfl, rfl⟩
theorem decAbsX (p : Word) : Statement (.decAbsX p) := ⟨rfl, rfl⟩
theorem cpxImm (p : Byte) : Statement (.cpxImm p) := ⟨rfl, rfl⟩
theorem sbcIndX (p : Byte) : Statement (.sbcIndX p) := ⟨rfl, rfl⟩
theorem cpxZp (p : Byte) : Statement (.cpxZp p) := ⟨rfl, rfl⟩
theorem sbcZp (p : Byte) : Statement (.sbcZp p) := ⟨rfl, rfl⟩
theorem incZp (p : Byte) : Statement (.incZp p) := ⟨rfl, rfl⟩
theorem inx : Statement .inx := ⟨rfl, rfl⟩
theorem sbcImm (p : Byte) : Statement (.sbcImm p) := ⟨rfl, rfl⟩
theorem nop : Statement .nop := ⟨rfl, rfl⟩
theorem cpxAbs (p : Word) : Statement (.cpxAbs p) := ⟨rfl, rfl⟩
theorem sbcAbs (p : Word) : Statement (.sbcAbs p) := ⟨rfl, rfl⟩
theorem incAbs (p : Word) : Statement (.incAbs p) := ⟨rfl, rfl⟩
theorem beq (p : Byte) : Statement (.beq p) := ⟨rfl, rfl⟩
theorem sbcIndY (p : Byte) : Statement (.sbcIndY p) := ⟨rfl, rfl⟩
theorem sbcZpX (p : Byte) : Statement (.sbcZpX p) := ⟨rfl, rfl⟩
theorem incZpX (p : Byte) : Statement (.incZpX p) := ⟨rfl, rfl⟩
theorem sed : Statement .sed := ⟨rfl, rfl⟩
theorem sbcAbsY (p : Word) : Statement (.sbcAbsY p) := ⟨rfl, rfl⟩
theorem sbcAbsX (p : Word) : Statement (.sbcAbsX p) := ⟨rfl, rfl⟩
theorem incAbsX (p : Word) : Statement (.incAbsX p) := ⟨rfl, rfl⟩

end Sys2Proof.Laws.Table
end

