-- ==== Sys2Proof/Laws/Session.lean ====
section
/-! SUPPORT. What a host procedure leaves: a recorded error, an interrupt entry, a power-on reset, a write to
a flag. -/

namespace Sys2Proof.Machine

/-- What a host procedure leaves has the bus, the parameters and the reset flag of the state it ended or
failed in; its fault record holds the error if it failed. -/
theorem Res.settle_cases (r : Res Unit) :
    (∃ t, r = .ok () t ∧ r.settle = t) ∨
    (∃ e t, r = .err e t ∧ r.settle.fault = some e ∧ r.settle.bus = t.bus ∧
      r.settle.resetMade = t.resetMade ∧ r.settle.params = t.params) := by
  cases r with
  | ok _ t => exact .inl ⟨t, rfl, rfl⟩
  | err e t => exact .inr ⟨e, t, rfl, rfl, rfl, rfl, rfl⟩

theorem enterInterrupt_keeps (k : Interrupt) (s : State) : (enterInterrupt k s).KeepsFrom s := by
  unfold enterInterrupt
  split
  · exact Keeps.refl s
  · exact (enterTrap_keeps _ _ _ s).andThen fun _ t => account_keeps _ _

/-- The state in which the reset procedure reads the vector (R351). -/
def State.resetRegisters (s : State) : State :=
  { s with fault := none, A := s.params.aReset, X := s.params.xReset, Y := s.params.yReset,
           SP := 0xFD, flags := Flags.load 0x24, CYC := 7, resetMade := true }

theorem powerOnReset_keeps (s : State) : (powerOnReset s).KeepsFrom s.resetRegisters := by
  unfold powerOnReset
  simp only
  split
  · exact (readPair_keeps _ _ _).andThen fun _ t => Res.keeps_update rfl rfl rfl rfl rfl rfl rfl
  · exact Res.keeps_update rfl rfl rfl rfl rfl rfl rfl

@[simp] theorem Flags.put_B1 (n : FlagName) (v : Bool) (f : Flags) : (f.put n v).B1 = f.B1 := by
  cases n <;> rfl

@[simp] theorem Flags.put_B2 (n : FlagName) (v : Bool) (f : Flags) : (f.put n v).B2 = f.B2 := by
  cases n <;> rfl

/-- Of the host's writes `load` alone writes B1 and B2 (R45). -/
theorem hostWrite_breaks {w : HostWrite} (h : ∀ b, w ≠ .loadFlags b) (s : State) :
    (hostWrite w s).flags.B1 = s.flags.B1 ∧ (hostWrite w s).flags.B2 = s.flags.B2 := by
  cases w with
  | loadFlags b => exact absurd rfl (h b)
  | flag n v => exact ⟨Flags.put_B1 n v s.flags, Flags.put_B2 n v s.flags⟩
  | _ => exact ⟨rfl, rfl⟩

end Sys2Proof.Machine
end

