-- ==== Sys2Proof/Laws/Twin.lean ====
section
/-! SUPPORT. No part of a step looks at B1, B2 or CYC: run in two states that differ there only (`Twin`),
every operation of Ops.lean and every instruction answers alike. -/

namespace Sys2Proof.Machine

/-- `s'` is `s` with B1 and B2 at given values and another CYC, at the offset `b − a`. -/
def Twin (a b : Nat) (b1 b2 : Bool) (s s' : State) : Prop :=
  s' = { s with CYC := s'.CYC, flags := { s.flags with B1 := b1, B2 := b2 } } ∧ s'.CYC + a = s.CYC + b

/-- Two parts of a step answer alike, in twin states. -/
def Res.Twins {α : Type} (a b : Nat) (b1 b2 : Bool) : Res α → Res α → Prop
  | .ok x t, .ok x' t' => x = x' ∧ Twin a b b1 b2 t t'
  | .err e t, .err e' t' => e = e' ∧ Twin a b b1 b2 t t'
  | _, _ => False

/-- A change of the state that commutes with a change of B1, B2 and CYC. -/
structure Commutes (f : State → State) : Prop where
  comm : ∀ c f1 f2 s, f { s with CYC := c, flags := { s.flags with B1 := f1, B2 := f2 } } =
    { f s with CYC := c, flags := { (f s).flags with B1 := f1, B2 := f2 } }
  cyc : ∀ s, (f s).CYC = s.CYC

/-- A reading of the state that does not look at B1, B2 or CYC. -/
def Blind {α : Type} (f : State → α) : Prop :=
  ∀ c f1 f2 s, f { s with CYC := c, flags := { s.flags with B1 := f1, B2 := f2 } } = f s

section

variable {a b : Nat} {b1 b2 : Bool} {s s' : State}

theorem Res.Twins.andThen {α β : Type} {r r' : Res α} {f f' : α → State → Res β}
    (h : Res.Twins a b b1 b2 r r')
    (hf : ∀ x t t', Twin a b b1 b2 t t' → Res.Twins a b b1 b2 (f x t) (f' x t')) :
    Res.Twins a b b1 b2 (r.andThen f) (r'.andThen f') := by
  cases r <;> cases r' <;> simp only [Res.Twins] at h
  · obtain ⟨rfl, h⟩ := h
    exact hf _ _ _ h
  · exact h

theorem Twin.bus (h : Twin a b b1 b2 s s') : s'.bus = s.bus := by rw [h.1]

theorem Twin.get {α : Type} {f : State → α} (h : Twin a b b1 b2 s s') (hf : Blind f) : f s' = f s := by
  rw [h.1, hf]

theorem Twin.update {f : State → State} (h : Twin a b b1 b2 s s') (hf : Commutes f) :
    Twin a b b1 b2 (f s) (f s') := by
  obtain ⟨h, g⟩ := h
  refine ⟨?_, by rw [hf.cyc, hf.cyc]; exact g⟩
  rw [hf.cyc]
  rw [h, hf.comm]

theorem Twin.account (h : Twin a b b1 b2 s s') (n : Nat) :
    Twin a b b1 b2 (s.account n) (s'.account n) := by
  obtain ⟨h, g⟩ := h
  constructor
  · rw [h]
    rfl
  · simp only [State.account]
    omega

theorem Twin.pc (h : Twin a b b1 b2 s s') (w : Word) :
    Twin a b b1 b2 { s with PC := w } { s' with PC := w } :=
  h.update (f := fun s => { s with PC := w }) ⟨fun _ _ _ _ => rfl, fun _ => rfl⟩

/-! ## The operations -/

theorem memRead_twin (p : Word) (h : Twin a b b1 b2 s s') :
    Res.Twins a b b1 b2 (memRead p s) (memRead p s') := by
  cases hr : memRead p s with
  | ok v t =>
    rw [memRead_of_bus_eq h.bus hr, (memRead_readOnly hr).state]
    exact ⟨rfl, h.update (f := fun s => { s with bus := t.bus }) ⟨fun _ _ _ _ => rfl, fun _ => rfl⟩⟩
  | err e t =>
    rw [memRead_err_of_bus_eq h.bus hr, (memRead_err hr).1]
    exact ⟨rfl, h⟩

theorem memWrite_twin (p : Word) (v : Byte) (h : Twin a b b1 b2 s s') :
    Res.Twins a b b1 b2 (memWrite p v s) (memWrite p v s') := by
  cases hr : memWrite p v s with
  | ok u t =>
    rw [memWrite_of_bus_eq h.bus hr, memWrite_state hr]
    exact ⟨rfl, h.update (f := fun s => { s with bus := t.bus }) ⟨fun _ _ _ _ => rfl, fun _ => rfl⟩⟩
  | err e t =>
    rw [memWrite_err_of_bus_eq h.bus hr, (memWrite_err hr).1]
    exact ⟨rfl, h⟩

theorem readPair_twin (p q : Word) (h : Twin a b b1 b2 s s') :
    Res.Twins a b b1 b2 (readPair p q s) (readPair p q s') :=
  (memRead_twin p h).andThen fun _ _ _ h => (memRead_twin q h).andThen fun _ _ _ h => ⟨rfl, h⟩

theorem read16PageWrap_twin (p : Word) (h : Twin a b b1 b2 s s') :
    Res.Twins a b b1 b2 (read16PageWrap p s) (read16PageWrap p s') := by
  unfold read16PageWrap
  rw [h.get (f := State.params) fun _ _ _ _ => rfl]
  split
  · exact readPair_twin _ _ h
  · exact readPair_twin _ _ h

theorem push_twin (v : Byte) (h : Twin a b b1 b2 s s') :
    Res.Twins a b b1 b2 (push v s) (push v s') := by
  unfold push
  rw [h.get (f := State.SP) fun _ _ _ _ => rfl]
  exact (memWrite_twin _ v h).andThen fun _ _ _ h =>
    ⟨rfl, h.update (f := fun s => { s with SP := s.SP - 1 }) ⟨fun _ _ _ _ => rfl, fun _ => rfl⟩⟩

theorem pull_twin (h : Twin a b b1 b2 s s') : Res.Twins a b b1 b2 (pull s) (pull s') := by
  have u := h.update (f := fun s => { s with SP := s.SP + 1 }) ⟨fun _ _ _ _ => rfl, fun _ => rfl⟩
  have e : s'.SP = s.SP := h.get (f := State.SP) fun _ _ _ _ => rfl
  unfold pull
  simp only [e] at u ⊢
  exact memRead_twin _ u

theorem pushWord_twin (w : Word) (h : Twin a b b1 b2 s s') :
    Res.Twins a b b1 b2 (pushWord w s) (pushWord w s') :=
  (push_twin _ h).andThen fun _ _ _ h => push_twin _ h

theorem pullWord_twin (h : Twin a b b1 b2 s s') : Res.Twins a b b1 b2 (pullWord s) (pullWord s') :=
  (pull_twin h).andThen fun _ _ _ h => (pull_twin h).andThen fun _ _ _ h => ⟨rfl, h⟩

theorem enterTrap_twin (ret : Word) (st : Byte) (v : Word) (h : Twin a b b1 b2 s s') :
    Res.Twins a b b1 b2 (enterTrap ret st v s) (enterTrap ret st v s') :=
  (pushWord_twin _ h).andThen fun _ _ _ h => (push_twin _ h).andThen fun _ _ _ h =>
    (readPair_twin _ _ (h.update (f := fun s => { s with flags := { s.flags with I := true } })
      ⟨fun _ _ _ _ => rfl, fun _ => rfl⟩)).andThen fun pc _ _ h => ⟨rfl, h.pc pc⟩

theorem returnFromTrap_twin (h : Twin a b b1 b2 s s') :
    Res.Twins a b b1 b2 (returnFromTrap s) (returnFromTrap s') :=
  (pull_twin h).andThen fun x _ _ h =>
    (pullWord_twin (h.update (f := fun s => { s with flags := s.flags.pulled x })
      ⟨fun _ _ _ _ => rfl, fun _ => rfl⟩)).andThen fun pc _ _ h => ⟨rfl, h.pc pc⟩

theorem fetchByte_twin (h : Twin a b b1 b2 s s') :
    Res.Twins a b b1 b2 (fetchByte s) (fetchByte s') := by
  unfold fetchByte
  rw [h.get (f := State.PC) fun _ _ _ _ => rfl]
  exact (memRead_twin _ h).andThen fun _ _ _ h =>
    ⟨rfl, h.update (f := fun s => { s with PC := s.PC + 1 }) ⟨fun _ _ _ _ => rfl, fun _ => rfl⟩⟩

theorem fetch_twin (h : Twin a b b1 b2 s s') : Res.Twins a b b1 b2 (fetch s) (fetch s') := by
  unfold fetch
  rw [h.get (f := State.PC) fun _ _ _ _ => rfl]
  refine (fetchByte_twin h).andThen fun op _ _ h => ?_
  cases formOf op with
  | none => exact ⟨rfl, h⟩
  | some f =>
    cases f with
    | f1 i => exact ⟨rfl, h⟩
    | f2 mk => exact (fetchByte_twin h).andThen fun _ _ _ h => ⟨rfl, h⟩
    | f3 mk =>
      exact (fetchByte_twin h).andThen fun _ _ _ h =>
        (fetchByte_twin h).andThen fun _ _ _ h => ⟨rfl, h⟩

theorem resolve_twin (m : Mode) (p : Word) (h : Twin a b b1 b2 s s') :
    Res.Twins a b b1 b2 (resolve m p s) (resolve m p s') := by
  cases m <;> simp only [resolve, h.get (f := State.X) fun _ _ _ _ => rfl,
    h.get (f := State.Y) fun _ _ _ _ => rfl, h.get (f := State.PC) fun _ _ _ _ => rfl] <;> first
    | exact ⟨rfl, h⟩
    | exact (read16PageWrap_twin _ h).andThen fun _ _ _ h => ⟨rfl, h⟩
    | exact (readPair_twin _ _ h).andThen fun _ _ _ h => ⟨rfl, h⟩
    | exact (readPair_twin _ _ h).andThen fun _ _ _ h =>
        ⟨by rw [h.get (f := State.Y) fun _ _ _ _ => rfl], h⟩

theorem needEA_twin (m : Mode) (r : Resolved) (h : Twin a b b1 b2 s s') :
    Res.Twins a b b1 b2 (needEA m r s) (needEA m r s') := by
  unfold needEA
  split
  · exact ⟨rfl, h⟩
  · exact ⟨rfl, h⟩

theorem operandValue_twin (m : Mode) (p : Word) (r : Resolved) (h : Twin a b b1 b2 s s') :
    Res.Twins a b b1 b2 (operandValue m p r s) (operandValue m p r s') := by
  unfold operandValue
  split
  · exact ⟨rfl, h⟩
  · exact (needEA_twin _ _ h).andThen fun _ _ _ h => memRead_twin _ h

theorem decimalCheck_twin (op : Byte) (n : Word) (h : Twin a b b1 b2 s s') :
    Res.Twins a b b1 b2 (decimalCheck op n s) (decimalCheck op n s') := by
  unfold decimalCheck
  rw [h.get (f := State.params) fun _ _ _ _ => rfl, h.get (f := State.PC) fun _ _ _ _ => rfl,
    h.get (f := fun s => s.flags.D) fun _ _ _ _ => rfl]
  split
  · exact ⟨rfl, h⟩
  · exact ⟨rfl, h⟩

/-! ## The class shapes -/

theorem readClass_twin {m : Mode} {p : Word} {c : Nat} {pen : Bool} {chk : State → Res Unit}
    {f : Byte → State → State} (h : Twin a b b1 b2 s s')
    (hc : ∀ t t', Twin a b b1 b2 t t' → Res.Twins a b b1 b2 (chk t) (chk t'))
    (hf : ∀ v, Commutes (f v)) :
    Res.Twins a b b1 b2 (readClass m p c pen chk f s) (readClass m p c pen chk f s') :=
  (resolve_twin _ _ h).andThen fun _ _ _ h => (hc _ _ h).andThen fun _ _ _ h =>
    (operandValue_twin _ _ _ h).andThen fun v _ _ h => ⟨rfl, (h.update (hf v)).account _⟩

theorem writeClass_twin {m : Mode} {p : Word} {c : Nat} {reg : State → Byte}
    (h : Twin a b b1 b2 s s') (hr : Blind reg) :
    Res.Twins a b b1 b2 (writeClass m p c reg s) (writeClass m p c reg s') :=
  (resolve_twin _ _ h).andThen fun _ _ _ h => (needEA_twin _ _ h).andThen fun v _ _ h => by
    rw [h.get hr]
    exact (memWrite_twin _ _ h).andThen fun _ _ _ h => ⟨rfl, h.account _⟩

theorem rmwClass_twin {m : Mode} {p : Word} {c : Nat} {f : Byte → State → Byte × State}
    (h : Twin a b b1 b2 s s') (hf : ∀ v, Commutes fun s => (f v s).2)
    (h1 : ∀ v, Blind fun s => (f v s).1) :
    Res.Twins a b b1 b2 (rmwClass m p c f s) (rmwClass m p c f s') := by
  refine (resolve_twin _ _ h).andThen fun r t t' h => ?_
  split
  · refine ⟨rfl, ?_⟩
    rw [h.get (f := State.A) fun _ _ _ _ => rfl, show (f t.A t').1 = (f t.A t).1 from h.get (h1 _)]
    exact ((h.update (hf t.A)).update (f := fun s => { s with A := (f t.A t).1 })
      ⟨fun _ _ _ _ => rfl, fun _ => rfl⟩).account c
  · refine (needEA_twin _ _ h).andThen fun ea _ _ h => (memRead_twin _ h).andThen fun v t t' h => ?_
    show Res.Twins a b b1 b2 ((memWrite ea (f v t).1 (f v t).2).andThen _)
      ((memWrite ea (f v t').1 (f v t').2).andThen _)
    rw [show (f v t').1 = (f v t).1 from h.get (h1 _)]
    exact (memWrite_twin _ _ (h.update (hf v))).andThen fun _ _ _ h => ⟨rfl, h.account _⟩

theorem jumpClass_twin {m : Mode} {p : Word} {c : Nat} {f : Word → State → Res Unit}
    (h : Twin a b b1 b2 s s')
    (hf : ∀ ea t t', Twin a b b1 b2 t t' → Res.Twins a b b1 b2 (f ea t) (f ea t')) :
    Res.Twins a b b1 b2 (jumpClass m p c f s) (jumpClass m p c f s') :=
  (resolve_twin _ _ h).andThen fun _ _ _ h => (needEA_twin _ _ h).andThen fun _ _ _ h =>
    (hf _ _ _ h).andThen fun _ _ _ h => ⟨rfl, h.account _⟩

theorem branchClass_twin {p : Word} {cond : State → Bool} (h : Twin a b b1 b2 s s')
    (hr : Blind cond) : Res.Twins a b b1 b2 (branchClass p cond s) (branchClass p cond s') :=
  (resolve_twin _ _ h).andThen fun _ _ _ h => (needEA_twin _ _ h).andThen fun ea _ _ h => by
    simp only [h.get hr]
    refine ⟨rfl, ?_⟩
    split
    · exact (h.pc ea).account _
    · exact h.account _

theorem implClass_twin {c : Nat} {f : State → State} (h : Twin a b b1 b2 s s') (hf : Commutes f) :
    Res.Twins a b b1 b2 (implClass c f s) (implClass c f s') := ⟨rfl, (h.update hf).account _⟩

theorem stackClass_twin {c : Nat} {f : State → Res Unit} (hf : Res.Twins a b b1 b2 (f s) (f s')) :
    Res.Twins a b b1 b2 (stackClass c f s) (stackClass c f s') :=
  hf.andThen fun _ _ _ h => ⟨rfl, h.account _⟩

end

/-! ## The instructions -/

/-- The status byte BRK and PHP push has both break flags set (R43). -/
theorem Flags.pushedByProgram_blind : Blind fun s => s.flags.pushedByProgram := by
  intro c f1 f2 s
  show Flags.pushedByProgram { s.flags with B1 := f1, B2 := f2 } = s.flags.pushedByProgram
  cases s.flags with
  | mk N V B1 B2 D I Z C =>
    cases N <;> cases V <;> cases B1 <;> cases B2 <;> cases D <;> cases I <;> cases Z <;> cases C <;>
      cases f1 <;> cases f2 <;> rfl

theorem Flags.setZN_breaks (p : ZnPolicy) (v : Byte) (f : Flags) (f1 f2 : Bool) :
    Flags.setZN p v { f with B1 := f1, B2 := f2 } = { f.setZN p v with B1 := f1, B2 := f2 } := by
  cases p <;> rfl

/-- An update of registers and the flags of SetZN, over flags `g` changes but for B1 and B2. -/
theorem commutes_setZN {f : State → State} (g : State → State) (r : State → Byte)
    (e : ∀ s, f s = (g s).setZN (r s)) (hg : Commutes g) (hr : Blind r) : Commutes f where
  comm c f1 f2 s := by
    rw [e, e, hg.comm, hr]
    simp only [State.setZN]
    rw [Flags.setZN_breaks]
  cyc s := by
    rw [e]
    exact hg.cyc s

theorem ldaEffect_commutes (v : Byte) : Commutes (ldaEffect v) :=
  commutes_setZN (fun s => { s with A := v }) (fun _ => v) (fun _ => rfl) ⟨fun _ _ _ _ => rfl, fun _ => rfl⟩
    fun _ _ _ _ => rfl
theorem ldxEffect_commutes (v : Byte) : Commutes (ldxEffect v) :=
  commutes_setZN (fun s => { s with X := v }) (fun _ => v) (fun _ => rfl) ⟨fun _ _ _ _ => rfl, fun _ => rfl⟩
    fun _ _ _ _ => rfl
theorem ldyEffect_commutes (v : Byte) : Commutes (ldyEffect v) :=
  commutes_setZN (fun s => { s with Y := v }) (fun _ => v) (fun _ => rfl) ⟨fun _ _ _ _ => rfl, fun _ => rfl⟩
    fun _ _ _ _ => rfl
theorem andEffect_commutes (v : Byte) : Commutes (andEffect v) :=
  commutes_setZN (fun s => { s with A := s.A &&& v }) (fun s => s.A &&& v) (fun _ => rfl) ⟨fun _ _ _ _ => rfl, fun _ => rfl⟩
    fun _ _ _ _ => rfl
theorem oraEffect_commutes (v : Byte) : Commutes (oraEffect v) :=
  commutes_setZN (fun s => { s with A := s.A ||| v }) (fun s => s.A ||| v) (fun _ => rfl) ⟨fun _ _ _ _ => rfl, fun _ => rfl⟩
    fun _ _ _ _ => rfl
theorem eorEffect_commutes (v : Byte) : Commutes (eorEffect v) :=
  commutes_setZN (fun s => { s with A := s.A ^^^ v }) (fun s => s.A ^^^ v) (fun _ => rfl) ⟨fun _ _ _ _ => rfl, fun _ => rfl⟩
    fun _ _ _ _ => rfl
theorem taxEffect_commutes : Commutes taxEffect :=
  commutes_setZN (fun s => { s with X := s.A }) (fun s => s.A) (fun _ => rfl) ⟨fun _ _ _ _ => rfl, fun _ => rfl⟩
    fun _ _ _ _ => rfl
theorem tayEffect_commutes : Commutes tayEffect :=
  commutes_setZN (fun s => { s with Y := s.A }) (fun s => s.A) (fun _ => rfl) ⟨fun _ _ _ _ => rfl, fun _ => rfl⟩
    fun _ _ _ _ => rfl
theorem txaEffect_commutes : Commutes txaEffect :=
  commutes_setZN (fun s => { s with A := s.X }) (fun s => s.X) (fun _ => rfl) ⟨fun _ _ _ _ => rfl, fun _ => rfl⟩
    fun _ _ _ _ => rfl
theorem tyaEffect_commutes : Commutes tyaEffect :=
  commutes_setZN (fun s => { s with A := s.Y }) (fun s => s.Y) (fun _ => rfl) ⟨fun _ _ _ _ => rfl, fun _ => rfl⟩
    fun _ _ _ _ => rfl
theorem tsxEffect_commutes : Commutes tsxEffect :=
  commutes_setZN (fun s => { s with X := s.SP }) (fun s => s.SP) (fun _ => rfl) ⟨fun _ _ _ _ => rfl, fun _ => rfl⟩
    fun _ _ _ _ => rfl
theorem inxEffect_commutes : Commutes inxEffect :=
  commutes_setZN (fun s => { s with X := s.X + 1 }) (fun s => s.X + 1) (fun _ => rfl) ⟨fun _ _ _ _ => rfl, fun _ => rfl⟩
    fun _ _ _ _ => rfl
theorem inyEffect_commutes : Commutes inyEffect :=
  commutes_setZN (fun s => { s with Y := s.Y + 1 }) (fun s => s.Y + 1) (fun _ => rfl) ⟨fun _ _ _ _ => rfl, fun _ => rfl⟩
    fun _ _ _ _ => rfl
theorem dexEffect_commutes : Commutes dexEffect :=
  commutes_setZN (fun s => { s with X := s.X - 1 }) (fun s => s.X - 1) (fun _ => rfl) ⟨fun _ _ _ _ => rfl, fun _ => rfl⟩
    fun _ _ _ _ => rfl
theorem deyEffect_commutes : Commutes deyEffect :=
  commutes_setZN (fun s => { s with Y := s.Y - 1 }) (fun s => s.Y - 1) (fun _ => rfl) ⟨fun _ _ _ _ => rfl, fun _ => rfl⟩
    fun _ _ _ _ => rfl
theorem adcEffect_commutes (v : Byte) : Commutes (adcEffect v) :=
  commutes_setZN
    (fun s => { s with A := (addWithCarry s.A v s.flags.C).1,
                       flags := { s.flags with C := (addWithCarry s.A v s.flags.C).2.1,
                                                V := (addWithCarry s.A v s.flags.C).2.2 } })
    (fun s => (addWithCarry s.A v s.flags.C).1) (fun _ => rfl) ⟨fun _ _ _ _ => rfl, fun _ => rfl⟩
    fun _ _ _ _ => rfl
theorem sbcEffect_commutes (v : Byte) : Commutes (sbcEffect v) :=
  commutes_setZN
    (fun s => { s with A := (addWithCarry s.A (~~~v) s.flags.C).1,
                       flags := { s.flags with C := (addWithCarry s.A (~~~v) s.flags.C).2.1,
                                                V := (addWithCarry s.A (~~~v) s.flags.C).2.2 } })
    (fun s => (addWithCarry s.A (~~~v) s.flags.C).1) (fun _ => rfl) ⟨fun _ _ _ _ => rfl, fun _ => rfl⟩
    fun _ _ _ _ => rfl
theorem incEffect_commutes (v : Byte) : Commutes fun s => (incEffect v s).2 :=
  commutes_setZN (fun s => s) (fun _ => v + 1) (fun _ => rfl) ⟨fun _ _ _ _ => rfl, fun _ => rfl⟩
    fun _ _ _ _ => rfl
theorem decEffect_commutes (v : Byte) : Commutes fun s => (decEffect v s).2 :=
  commutes_setZN (fun s => s) (fun _ => v - 1) (fun _ => rfl) ⟨fun _ _ _ _ => rfl, fun _ => rfl⟩
    fun _ _ _ _ => rfl
theorem aslEffect_commutes (v : Byte) : Commutes fun s => (aslEffect v s).2 :=
  commutes_setZN (fun s => { s with flags := { s.flags with C := v.getLsbD 7 } })
    (fun s => (aslEffect v s).1) (fun _ => rfl) ⟨fun _ _ _ _ => rfl, fun _ => rfl⟩ fun _ _ _ _ => rfl
theorem lsrEffect_commutes (v : Byte) : Commutes fun s => (lsrEffect v s).2 :=
  commutes_setZN (fun s => { s with flags := { s.flags with C := v.getLsbD 0 } })
    (fun s => (lsrEffect v s).1) (fun _ => rfl) ⟨fun _ _ _ _ => rfl, fun _ => rfl⟩ fun _ _ _ _ => rfl
theorem rolEffect_commutes (v : Byte) : Commutes fun s => (rolEffect v s).2 :=
  commutes_setZN (fun s => { s with flags := { s.flags with C := v.getLsbD 7 } })
    (fun s => (rolEffect v s).1) (fun _ => rfl) ⟨fun _ _ _ _ => rfl, fun _ => rfl⟩ fun _ _ _ _ => rfl
theorem rorEffect_commutes (v : Byte) : Commutes fun s => (rorEffect v s).2 :=
  commutes_setZN (fun s => { s with flags := { s.flags with C := v.getLsbD 0 } })
    (fun s => (rorEffect v s).1) (fun _ => rfl) ⟨fun _ _ _ _ => rfl, fun _ => rfl⟩ fun _ _ _ _ => rfl

/-- Every instruction runs alike in twin states. -/
theorem shape_run_twin (i : Instr) {a b : Nat} {b1 b2 : Bool} {s s' : State}
    (h : Twin a b b1 b2 s s') :
    Res.Twins a b b1 b2 ((shapeOf i).run i s) ((shapeOf i).run i s') := by
  have plain : ∀ t t', Twin a b b1 b2 t t' → Res.Twins a b b1 b2 (unchecked t) (unchecked t') :=
    fun _ _ h => ⟨rfl, h⟩
  unfold shapeOf
  split <;> unfold Shape.run <;> first
    | exact writeClass_twin h fun _ _ _ _ => rfl
    | exact branchClass_twin h fun _ _ _ _ => rfl
    | exact readClass_twin h plain fun _ => ⟨fun _ _ _ _ => rfl, fun _ => rfl⟩
    | exact readClass_twin h plain ldaEffect_commutes
    | exact readClass_twin h plain ldxEffect_commutes
    | exact readClass_twin h plain ldyEffect_commutes
    | exact readClass_twin h plain andEffect_commutes
    | exact readClass_twin h plain oraEffect_commutes
    | exact readClass_twin h plain eorEffect_commutes
    | exact readClass_twin h (fun _ _ h => decimalCheck_twin _ _ h) adcEffect_commutes
    | exact readClass_twin h (fun _ _ h => decimalCheck_twin _ _ h) sbcEffect_commutes
    | exact rmwClass_twin h incEffect_commutes fun _ _ _ _ _ => rfl
    | exact rmwClass_twin h decEffect_commutes fun _ _ _ _ _ => rfl
    | exact rmwClass_twin h aslEffect_commutes fun _ _ _ _ _ => rfl
    | exact rmwClass_twin h lsrEffect_commutes fun _ _ _ _ _ => rfl
    | exact rmwClass_twin h rolEffect_commutes fun _ _ _ _ _ => rfl
    | exact rmwClass_twin h rorEffect_commutes fun _ _ _ _ _ => rfl
    | exact implClass_twin h ⟨fun _ _ _ _ => rfl, fun _ => rfl⟩
    | exact implClass_twin h taxEffect_commutes
    | exact implClass_twin h tayEffect_commutes
    | exact implClass_twin h txaEffect_commutes
    | exact implClass_twin h tyaEffect_commutes
    | exact implClass_twin h tsxEffect_commutes
    | exact implClass_twin h inxEffect_commutes
    | exact implClass_twin h inyEffect_commutes
    | exact implClass_twin h dexEffect_commutes
    | exact implClass_twin h deyEffect_commutes
    | exact jumpClass_twin h fun ea _ _ h => ⟨rfl, h.pc ea⟩
    | exact jumpClass_twin h fun ea _ _ h => by
        simp only [jsrEffect, h.get (f := State.PC) fun _ _ _ _ => rfl]
        exact (pushWord_twin _ h).andThen fun _ _ _ h => ⟨rfl, h.pc ea⟩
    | exact stackClass_twin (returnFromTrap_twin h)
    | (refine stackClass_twin ?_
       simp only [phaEffect, phpEffect, brkEffect, h.get (f := State.A) fun _ _ _ _ => rfl,
         h.get (f := State.PC) fun _ _ _ _ => rfl, h.get Flags.pushedByProgram_blind]
       first
         | exact push_twin _ h
         | exact enterTrap_twin _ _ _ h)
    | (refine stackClass_twin ?_
       simp only [plaEffect]
       exact (pull_twin h).andThen fun v _ _ h => ⟨rfl, h.update (ldaEffect_commutes v)⟩)
    | (refine stackClass_twin ?_
       simp only [plpEffect]
       exact (pull_twin h).andThen fun v _ _ h =>
         ⟨rfl, h.update (f := fun s => { s with flags := s.flags.pulled v })
           ⟨fun _ _ _ _ => rfl, fun _ => rfl⟩⟩)
    | (refine stackClass_twin ?_
       simp only [rtsEffect]
       exact (pullWord_twin h).andThen fun v _ _ h => ⟨rfl, h.pc (v + 1)⟩)

end Sys2Proof.Machine
end

