-- ==== Sys2Proof/Tests/Slice0.lean ====
section
/-! SUPPORT. The model's own tests, each expected result taken from spec/, and one witness for the
hypotheses of every obligation that has some. -/

set_option maxRecDepth 20000

namespace Sys2Proof.Tests

open Sys2Proof.Machine

/-! ## Helpers -/

/-- What a function says of the next state, if there is one. -/
def after {α : Type} (o : Answer) (f : State → α) : Option α :=
  match o with
  | .next t => some (f t)
  | _ => none

/-- The error an answer stops with. -/
def stop (o : Answer) : Option CoreError :=
  match o with
  | .fault (.raised e _) => some e
  | _ => none

/-- The bus an answer stops with. -/
def busLeft (o : Answer) : Option Bus :=
  match o with
  | .fault (.raised _ b) => some b
  | _ => none

/-- A backing store with the given cells. -/
def cells (m : List Host.Cell) : Memory := m.foldl (fun m c => m.set c.1 c.2) []

/-- The bytes of a program as cells from an address on. -/
def program (a : Nat) : List Byte → List Host.Cell
  | [] => []
  | b :: bs => (a, b) :: program (a + 1) bs

/-- The default start of section 2.0 of file 95: the fixture chunks, a program at 0x8000, CYC = 0. -/
def start (bytes : List Byte) (m : List Host.Cell) : State :=
  { State.reset with
    PC := 0x8000, CYC := 0,
    bus := { chunks := some Config.chunks, mem := cells (program 0x8000 bytes ++ m), io := [] } }

/-- A, X, Y, SP, toByte(); PC; CYC. -/
def regs (t : State) : List Byte × Word × Nat := ([t.A, t.X, t.Y, t.SP, t.flags.toByte], t.PC, t.CYC)

/-- A state with RAM over the whole address space. -/
def flat (m : List Host.Cell) : State :=
  { State.reset with
    bus := { chunks := some [{ start := 0, size := 0x10000, kind := .ram 0 }], mem := cells m, io := [] } }

/-- A state with RAM over one range only. -/
def narrow (a : Word) (n : Nat) (m : List Host.Cell) : State :=
  { State.reset with
    bus := { chunks := some [{ start := a, size := n, kind := .ram a.toNat }], mem := cells m, io := [] } }

/-- A state on a bus that is one device. -/
def deviceBus : State :=
  { State.reset with
    bus := { chunks := some [{ start := 0, size := 0x10000, kind := .device 3 }], mem := [], io := [] } }

/-! ## Well-formedness: each check refuses an ill-formed term -/

/-- R161, R173: LDA is never paired with IMPLICIT. -/
theorem test_row_wf_refuses_mode : Row.wf ⟨0xA9, .lda, .implicit, 2, false⟩ = false := by decide

/-- R197: no page-cross penalty on a store, and none missing on LDA abs,X. -/
theorem test_row_wf_refuses_penalty :
    Row.wf ⟨0x9D, .sta, .indexedAbsoluteX, 5, true⟩ = false ∧
    Row.wf ⟨0xBD, .lda, .indexedAbsoluteX, 4, false⟩ = false := by decide

/-- R206: a base cost lies between 2 and 7. -/
theorem test_row_wf_refuses_cycles :
    Row.wf ⟨0xEA, .nop, .implicit, 1, false⟩ = false ∧
    Row.wf ⟨0xEA, .nop, .implicit, 8, false⟩ = false := by decide

/-- R133, R325: no opcode twice. -/
theorem test_table_wf_refuses_duplicate :
    tableWf [⟨0xEA, .nop, .implicit, 2, false⟩, ⟨0xEA, .clc, .implicit, 2, false⟩] = false := by decide

/-- R133: the operation table is well-formed. -/
theorem test_table_wf : tableWf operationTable = true := by decide

/-- R46: fields of one register do not overlap and lie in the byte. -/
theorem test_fields_wf_refuses :
    fieldsWf [{ start := 0, width := 4 }, { start := 3 }] = false ∧
    fieldsWf [{ start := 7, width := 2 }] = false := by decide

/-- R37, R47: the flags register's fields are well-formed. -/
theorem test_flag_fields_wf : fieldsWf flagFields = true := by decide

/-- R81: a chunk ends inside the address space. -/
theorem test_chunks_wf_refuses :
    chunksWf [{ start := 0x8000, size := 0x8001, kind := .rom 0 }] = false ∧
    chunksWf [{ start := 0x8000, size := 0x8000, kind := .rom 0 }] = true := by decide


/-! ## Decoding: a byte sequence for every opcode, from the encoding tables of files 42 to 48 -/

/-- Every opcode of file 42 of spec/: compare and bit test. -/
theorem test_decode_compare_and_bit_test :
    List.map decode
      [[0x24, 0x8F], [0x2C, 0x34, 0x12], [0xC0, 0x8F], [0xC1, 0x8F], [0xC4, 0x8F], [0xC5, 0x8F],
       [0xC9, 0x8F], [0xCC, 0x34, 0x12], [0xCD, 0x34, 0x12], [0xD1, 0x8F], [0xD5, 0x8F], [0xD9, 0x34, 0x12],
       [0xDD, 0x34, 0x12], [0xE0, 0x8F], [0xE4, 0x8F], [0xEC, 0x34, 0x12]] =
      List.map (fun i => .ok (i, []))
        [.bitZp 0x8F, .bitAbs 0x1234, .cpyImm 0x8F, .cmpIndX 0x8F, .cpyZp 0x8F, .cmpZp 0x8F,
         .cmpImm 0x8F, .cpyAbs 0x1234, .cmpAbs 0x1234, .cmpIndY 0x8F, .cmpZpX 0x8F, .cmpAbsY 0x1234,
         .cmpAbsX 0x1234, .cpxImm 0x8F, .cpxZp 0x8F, .cpxAbs 0x1234] := rfl

/-- Every opcode of file 43 of spec/: loads, stores, transfers. -/
theorem test_decode_loads_stores_transfers :
    List.map decode
      [[0x81, 0x8F], [0x84, 0x8F], [0x85, 0x8F], [0x86, 0x8F], [0x8A], [0x8C, 0x34, 0x12],
       [0x8D, 0x34, 0x12], [0x8E, 0x34, 0x12], [0x91, 0x8F], [0x94, 0x8F], [0x95, 0x8F], [0x96, 0x8F],
       [0x98], [0x99, 0x34, 0x12], [0x9A], [0x9D, 0x34, 0x12], [0xA0, 0x8F], [0xA1, 0x8F],
       [0xA2, 0x8F], [0xA4, 0x8F], [0xA5, 0x8F], [0xA6, 0x8F], [0xA8], [0xA9, 0x8F],
       [0xAA], [0xAC, 0x34, 0x12], [0xAD, 0x34, 0x12], [0xAE, 0x34, 0x12], [0xB1, 0x8F], [0xB4, 0x8F],
       [0xB5, 0x8F], [0xB6, 0x8F], [0xB9, 0x34, 0x12], [0xBA], [0xBC, 0x34, 0x12], [0xBD, 0x34, 0x12],
       [0xBE, 0x34, 0x12]] =
      List.map (fun i => .ok (i, []))
        [.staIndX 0x8F, .styZp 0x8F, .staZp 0x8F, .stxZp 0x8F, .txa, .styAbs 0x1234,
         .staAbs 0x1234, .stxAbs 0x1234, .staIndY 0x8F, .styZpX 0x8F, .staZpX 0x8F, .stxZpY 0x8F,
         .tya, .staAbsY 0x1234, .txs, .staAbsX 0x1234, .ldyImm 0x8F, .ldaIndX 0x8F,
         .ldxImm 0x8F, .ldyZp 0x8F, .ldaZp 0x8F, .ldxZp 0x8F, .tay, .ldaImm 0x8F,
         .tax, .ldyAbs 0x1234, .ldaAbs 0x1234, .ldxAbs 0x1234, .ldaIndY 0x8F, .ldyZpX 0x8F,
         .ldaZpX 0x8F, .ldxZpY 0x8F, .ldaAbsY 0x1234, .tsx, .ldyAbsX 0x1234, .ldaAbsX 0x1234,
         .ldxAbsY 0x1234] := rfl

/-- Every opcode of file 44 of spec/: arithmetic and logic. -/
theorem test_decode_arithmetic_and_logic :
    List.map decode
      [[0x01, 0x8F], [0x05, 0x8F], [0x09, 0x8F], [0x0D, 0x34, 0x12], [0x11, 0x8F], [0x15, 0x8F],
       [0x19, 0x34, 0x12], [0x1D, 0x34, 0x12], [0x21, 0x8F], [0x25, 0x8F], [0x29, 0x8F], [0x2D, 0x34, 0x12],
       [0x31, 0x8F], [0x35, 0x8F], [0x39, 0x34, 0x12], [0x3D, 0x34, 0x12], [0x41, 0x8F], [0x45, 0x8F],
       [0x49, 0x8F], [0x4D, 0x34, 0x12], [0x51, 0x8F], [0x55, 0x8F], [0x59, 0x34, 0x12], [0x5D, 0x34, 0x12],
       [0x61, 0x8F], [0x65, 0x8F], [0x69, 0x8F], [0x6D, 0x34, 0x12], [0x71, 0x8F], [0x75, 0x8F],
       [0x79, 0x34, 0x12], [0x7D, 0x34, 0x12], [0x88], [0xC6, 0x8F], [0xC8], [0xCA],
       [0xCE, 0x34, 0x12], [0xD6, 0x8F], [0xDE, 0x34, 0x12], [0xE1, 0x8F], [0xE5, 0x8F], [0xE6, 0x8F],
       [0xE8], [0xE9, 0x8F], [0xED, 0x34, 0x12], [0xEE, 0x34, 0x12], [0xF1, 0x8F], [0xF5, 0x8F],
       [0xF6, 0x8F], [0xF9, 0x34, 0x12], [0xFD, 0x34, 0x12], [0xFE, 0x34, 0x12]] =
      List.map (fun i => .ok (i, []))
        [.oraIndX 0x8F, .oraZp 0x8F, .oraImm 0x8F, .oraAbs 0x1234, .oraIndY 0x8F, .oraZpX 0x8F,
         .oraAbsY 0x1234, .oraAbsX 0x1234, .andIndX 0x8F, .andZp 0x8F, .andImm 0x8F, .andAbs 0x1234,
         .andIndY 0x8F, .andZpX 0x8F, .andAbsY 0x1234, .andAbsX 0x1234, .eorIndX 0x8F, .eorZp 0x8F,
         .eorImm 0x8F, .eorAbs 0x1234, .eorIndY 0x8F, .eorZpX 0x8F, .eorAbsY 0x1234, .eorAbsX 0x1234,
         .adcIndX 0x8F, .adcZp 0x8F, .adcImm 0x8F, .adcAbs 0x1234, .adcIndY 0x8F, .adcZpX 0x8F,
         .adcAbsY 0x1234, .adcAbsX 0x1234, .dey, .decZp 0x8F, .iny, .dex,
         .decAbs 0x1234, .decZpX 0x8F, .decAbsX 0x1234, .sbcIndX 0x8F, .sbcZp 0x8F, .incZp 0x8F,
         .inx, .sbcImm 0x8F, .sbcAbs 0x1234, .incAbs 0x1234, .sbcIndY 0x8F, .sbcZpX 0x8F,
         .incZpX 0x8F, .sbcAbsY 0x1234, .sbcAbsX 0x1234, .incAbsX 0x1234] := rfl

/-- Every opcode of file 45 of spec/: shifts and rotates. -/
theorem test_decode_shifts_and_rotates :
    List.map decode
      [[0x06, 0x8F], [0x0A], [0x0E, 0x34, 0x12], [0x16, 0x8F], [0x1E, 0x34, 0x12], [0x26, 0x8F],
       [0x2A], [0x2E, 0x34, 0x12], [0x36, 0x8F], [0x3E, 0x34, 0x12], [0x46, 0x8F], [0x4A],
       [0x4E, 0x34, 0x12], [0x56, 0x8F], [0x5E, 0x34, 0x12], [0x66, 0x8F], [0x6A], [0x6E, 0x34, 0x12],
       [0x76, 0x8F], [0x7E, 0x34, 0x12]] =
      List.map (fun i => .ok (i, []))
        [.aslZp 0x8F, .aslA, .aslAbs 0x1234, .aslZpX 0x8F, .aslAbsX 0x1234, .rolZp 0x8F,
         .rolA, .rolAbs 0x1234, .rolZpX 0x8F, .rolAbsX 0x1234, .lsrZp 0x8F, .lsrA,
         .lsrAbs 0x1234, .lsrZpX 0x8F, .lsrAbsX 0x1234, .rorZp 0x8F, .rorA, .rorAbs 0x1234,
         .rorZpX 0x8F, .rorAbsX 0x1234] := rfl

/-- Every opcode of file 46 of spec/: stack. -/
theorem test_decode_stack :
    List.map decode
      [[0x08], [0x28], [0x48], [0x68]] =
      List.map (fun i => .ok (i, []))
        [.php, .plp, .pha, .pla] := rfl

/-- Every opcode of file 47 of spec/: control. -/
theorem test_decode_control :
    List.map decode
      [[0x00], [0x10, 0x8F], [0x20, 0x34, 0x12], [0x30, 0x8F], [0x40], [0x4C, 0x34, 0x12],
       [0x50, 0x8F], [0x60], [0x6C, 0x34, 0x12], [0x70, 0x8F], [0x90, 0x8F], [0xB0, 0x8F],
       [0xD0, 0x8F], [0xF0, 0x8F]] =
      List.map (fun i => .ok (i, []))
        [.brk, .bpl 0x8F, .jsrAbs 0x1234, .bmi 0x8F, .rti, .jmpAbs 0x1234,
         .bvc 0x8F, .rts, .jmpInd 0x1234, .bvs 0x8F, .bcc 0x8F, .bcs 0x8F,
         .bne 0x8F, .beq 0x8F] := rfl

/-- Every opcode of file 48 of spec/: flags. -/
theorem test_decode_flags :
    List.map decode
      [[0x18], [0x38], [0x58], [0x78], [0xB8], [0xD8],
       [0xEA], [0xF8]] =
      List.map (fun i => .ok (i, []))
        [.clc, .sec, .cli, .sei, .clv, .cld,
         .nop, .sed] := rfl

/-! ## Single steps: the tables of section 2 of file 95 of spec/ -/

/-- V-ADDR 2: `LDA $02,X`, X=0xFF, m[0x0001]=0x77. -/
theorem test_addr_02 :
    after (step ({ start [0xB5, 0x02] [(0x0001, 0x77)] with X := 0xFF })) regs =
    some ([0x77, 0xFF, 0x00, 0xFD, 0x24], 0x8002, 4) := by decide

/-- V-ADDR 5: `LDA $01F0,X`, X=0x20, m[0x0210]=0x44. -/
theorem test_addr_05 :
    after (step ({ start [0xBD, 0xF0, 0x01] [(0x0210, 0x44)] with X := 0x20 })) regs =
    some ([0x44, 0x20, 0x00, 0xFD, 0x24], 0x8003, 5) := by decide

/-- V-ADDR 7: `LDA $FFF0,Y`, Y=0x20, m[0x0010]=0x46. -/
theorem test_addr_07 :
    after (step ({ start [0xB9, 0xF0, 0xFF] [(0x0010, 0x46)] with Y := 0x20 })) regs =
    some ([0x46, 0x00, 0x20, 0xFD, 0x24], 0x8003, 5) := by decide

/-- V-ADDR 8: `STA $01F0,X`, A=0x99, X=0x20. -/
theorem test_addr_08 :
    after (step ({ start [0x9D, 0xF0, 0x01] [] with A := 0x99, X := 0x20 }))
      (fun t => (regs t, t.byteAt 0x0210)) =
    some (([0x99, 0x20, 0x00, 0xFD, 0x24], 0x8003, 5), some 0x99) := by decide

/-- V-ADDR 10: `LDA ($FE,X)`, X=0x01, m[0x0000]=0x03, m[0x00FF]=0x00, m[0x0300]=0x67. -/
theorem test_addr_10 :
    after (step ({ start [0xA1, 0xFE] [(0x0000, 0x03), (0x00FF, 0x00), (0x0300, 0x67)] with X := 0x01 })) regs =
    some ([0x67, 0x01, 0x00, 0xFD, 0x24], 0x8002, 6) := by decide

/-- V-ADDR 12: `LDA ($86),Y`, Y=0xFF, m[0x0086]=0x28, m[0x0087]=0x04, m[0x0527]=0x69. -/
theorem test_addr_12 :
    after (step ({ start [0xB1, 0x86] [(0x0086, 0x28), (0x0087, 0x04), (0x0527, 0x69)] with Y := 0xFF })) regs =
    some ([0x69, 0x00, 0xFF, 0xFD, 0x24], 0x8002, 6) := by decide

/-- V-ADDR 13: `LDA ($FF),Y`, Y=0x01, m[0x0000]=0x03, m[0x00FF]=0x10, m[0x0311]=0x6A. -/
theorem test_addr_13 :
    after (step ({ start [0xB1, 0xFF] [(0x0000, 0x03), (0x00FF, 0x10), (0x0311, 0x6A)] with Y := 0x01 })) regs =
    some ([0x6A, 0x00, 0x01, 0xFD, 0x24], 0x8002, 5) := by decide

/-- V-ADDR 14: `JMP ($02FF)`, m[0x0200]=0x12, m[0x02FF]=0x34, m[0x0300]=0x56. -/
theorem test_addr_14 :
    after (step (start [0x6C, 0xFF, 0x02] [(0x0200, 0x12), (0x02FF, 0x34), (0x0300, 0x56)])) regs =
    some ([0x00, 0x00, 0x00, 0xFD, 0x24], 0x1234, 5) := by decide

/-- V-ADDR 15: `JMP ($02FF)`, m[0x0200]=0x12, m[0x02FF]=0x34, m[0x0300]=0x56; P_JMP_IND_WRAP = LINEAR. -/
theorem test_addr_15 :
    after (step ({ start [0x6C, 0xFF, 0x02] [(0x0200, 0x12), (0x02FF, 0x34), (0x0300, 0x56)] with params := { Config.params with jmpIndWrap := .linear } })) regs =
    some ([0x00, 0x00, 0x00, 0xFD, 0x24], 0x5634, 5) := by decide

/-- V-ADDR 16: `BNE $7FFE`, P=0x24 {B1,I}. -/
theorem test_addr_16 :
    after (step (start [0xD0, 0xFC] [])) regs =
    some ([0x00, 0x00, 0x00, 0xFD, 0x24], 0x7FFE, 4) := by decide

/-- V-CMP 2: `CMP #$10`, A=0x05. -/
theorem test_cmp_02 :
    after (step ({ start [0xC9, 0x10] [] with A := 0x05 })) regs =
    some ([0x05, 0x00, 0x00, 0xFD, 0xA4], 0x8002, 2) := by decide

/-- V-CMP 5: `CMP #$00`, A=0xFF, P=0x64 {V,B1,I}. -/
theorem test_cmp_05 :
    after (step ({ start [0xC9, 0x00] [] with A := 0xFF, flags := Flags.load 0x64 })) regs =
    some ([0xFF, 0x00, 0x00, 0xFD, 0xE5], 0x8002, 2) := by decide

/-- V-CMP 6: `CPX #$FF`, X=0xFF. -/
theorem test_cmp_06 :
    after (step ({ start [0xE0, 0xFF] [] with X := 0xFF })) regs =
    some ([0x00, 0xFF, 0x00, 0xFD, 0x27], 0x8002, 2) := by decide

/-- V-CMP 9: `CPY $0200`, Y=0x90, m[0x0200]=0x10. -/
theorem test_cmp_09 :
    after (step ({ start [0xCC, 0x00, 0x02] [(0x0200, 0x10)] with Y := 0x90 })) regs =
    some ([0x00, 0x00, 0x90, 0xFD, 0xA5], 0x8003, 4) := by decide

/-- V-CMP 10: `BIT $10`, A=0xC0, m[0x0010]=0x81. -/
theorem test_cmp_10 :
    after (step ({ start [0x24, 0x10] [(0x0010, 0x81)] with A := 0xC0 })) regs =
    some ([0xC0, 0x00, 0x00, 0xFD, 0xA4], 0x8002, 3) := by decide

/-- V-CMP 14: `CMP #$10`, A=0x10, P=0xA5 {N,B1,I,C}; P_ZN_POLICY = SET_ONLY. -/
theorem test_cmp_14 :
    after (step ({ start [0xC9, 0x10] [] with A := 0x10, flags := Flags.load 0xA5, params := { Config.params with znPolicy := .setOnly } })) regs =
    some ([0x10, 0x00, 0x00, 0xFD, 0x27], 0x8002, 2) := by decide

/-- V-LOAD 3: `LDA #$01`, P=0xA6 {N,B1,I,Z}. -/
theorem test_load_03 :
    after (step ({ start [0xA9, 0x01] [] with flags := Flags.load 0xA6 })) regs =
    some ([0x01, 0x00, 0x00, 0xFD, 0x24], 0x8002, 2) := by decide

/-- V-LOAD 4: `LDA #$01`, P=0xA6 {N,B1,I,Z}; P_ZN_POLICY = SET_ONLY. -/
theorem test_load_04 :
    after (step ({ start [0xA9, 0x01] [] with flags := Flags.load 0xA6, params := { Config.params with znPolicy := .setOnly } })) regs =
    some ([0x01, 0x00, 0x00, 0xFD, 0xA6], 0x8002, 2) := by decide

/-- V-LOAD 6: `LDX $01F0,Y`, Y=0x10, m[0x0200]=0xFE. -/
theorem test_load_06 :
    after (step ({ start [0xBE, 0xF0, 0x01] [(0x0200, 0xFE)] with Y := 0x10 })) regs =
    some ([0x00, 0xFE, 0x10, 0xFD, 0xA4], 0x8003, 5) := by decide

/-- V-LOAD 8: `LDY $0200,X`, X=0x05, m[0x0205]=0x00. -/
theorem test_load_08 :
    after (step ({ start [0xBC, 0x00, 0x02] [(0x0205, 0x00)] with X := 0x05 })) regs =
    some ([0x00, 0x05, 0x00, 0xFD, 0x26], 0x8003, 4) := by decide

/-- V-LOAD 10: `STA ($20),Y`, A=0x42, Y=0x05, m[0x0020]=0x00, m[0x0021]=0x03. -/
theorem test_load_10 :
    after (step ({ start [0x91, 0x20] [(0x0020, 0x00), (0x0021, 0x03)] with A := 0x42, Y := 0x05 }))
      (fun t => (regs t, t.byteAt 0x0305)) =
    some (([0x42, 0x00, 0x05, 0xFD, 0x24], 0x8002, 6), some 0x42) := by decide

/-- V-LOAD 12: `STX $02,Y`, X=0x01, Y=0xFF. -/
theorem test_load_12 :
    after (step ({ start [0x96, 0x02] [] with X := 0x01, Y := 0xFF }))
      (fun t => (regs t, t.byteAt 0x0001)) =
    some (([0x00, 0x01, 0xFF, 0xFD, 0x24], 0x8002, 4), some 0x01) := by decide

/-- V-LOAD 13: `STY $07FF`, Y=0x09. -/
theorem test_load_13 :
    after (step ({ start [0x8C, 0xFF, 0x07] [] with Y := 0x09 }))
      (fun t => (regs t, t.byteAt 0x07FF)) =
    some (([0x00, 0x00, 0x09, 0xFD, 0x24], 0x8003, 4), some 0x09) := by decide

/-- V-LOAD 14: `TAX`, A=0x00, X=0x55. -/
theorem test_load_14 :
    after (step ({ start [0xAA] [] with X := 0x55 })) regs =
    some ([0x00, 0x00, 0x00, 0xFD, 0x26], 0x8001, 2) := by decide

/-- V-LOAD 15: `TAY`, A=0xC0. -/
theorem test_load_15 :
    after (step ({ start [0xA8] [] with A := 0xC0 })) regs =
    some ([0xC0, 0x00, 0xC0, 0xFD, 0xA4], 0x8001, 2) := by decide

/-- V-LOAD 16: `TXA`, X=0x7F, A=0x80. -/
theorem test_load_16 :
    after (step ({ start [0x8A] [] with A := 0x80, X := 0x7F })) regs =
    some ([0x7F, 0x7F, 0x00, 0xFD, 0x24], 0x8001, 2) := by decide

/-- V-LOAD 17: `TYA`, Y=0x80. -/
theorem test_load_17 :
    after (step ({ start [0x98] [] with Y := 0x80 })) regs =
    some ([0x80, 0x00, 0x80, 0xFD, 0xA4], 0x8001, 2) := by decide

/-- V-LOAD 18: `TSX`, default. -/
theorem test_load_18 :
    after (step (start [0xBA] [])) regs =
    some ([0x00, 0xFD, 0x00, 0xFD, 0xA4], 0x8001, 2) := by decide

/-- V-LOAD 19: `TXS`, X=0x00. -/
theorem test_load_19 :
    after (step (start [0x9A] [])) regs =
    some ([0x00, 0x00, 0x00, 0x00, 0x24], 0x8001, 2) := by decide

/-- V-ARITH 3: `ADC #$50`, A=0x50. -/
theorem test_arith_03 :
    after (step ({ start [0x69, 0x50] [] with A := 0x50 })) regs =
    some ([0xA0, 0x00, 0x00, 0xFD, 0xE4], 0x8002, 2) := by decide

/-- V-ARITH 5: `ADC #$FF`, A=0xFF, P=0x25 {B1,I,C}. -/
theorem test_arith_05 :
    after (step ({ start [0x69, 0xFF] [] with A := 0xFF, flags := Flags.load 0x25 })) regs =
    some ([0xFF, 0x00, 0x00, 0xFD, 0xA5], 0x8002, 2) := by decide

/-- V-ARITH 10: `SBC #$01`, A=0x00, P=0x25 {B1,I,C}. -/
theorem test_arith_10 :
    after (step ({ start [0xE9, 0x01] [] with flags := Flags.load 0x25 })) regs =
    some ([0xFF, 0x00, 0x00, 0xFD, 0xA4], 0x8002, 2) := by decide

/-- V-ARITH 12: `SBC #$01`, A=0x80, P=0x25 {B1,I,C}. -/
theorem test_arith_12 :
    after (step ({ start [0xE9, 0x01] [] with A := 0x80, flags := Flags.load 0x25 })) regs =
    some ([0x7F, 0x00, 0x00, 0xFD, 0x65], 0x8002, 2) := by decide

/-- V-ARITH 14: `SBC #$00`, A=0x10, P=0x24 {B1,I}. -/
theorem test_arith_14 :
    after (step ({ start [0xE9, 0x00] [] with A := 0x10 })) regs =
    some ([0x0F, 0x00, 0x00, 0xFD, 0x25], 0x8002, 2) := by decide

/-- V-ARITH 16: `AND #$00`, A=0xFF, P=0x65 {V,B1,I,C}. -/
theorem test_arith_16 :
    after (step ({ start [0x29, 0x00] [] with A := 0xFF, flags := Flags.load 0x65 })) regs =
    some ([0x00, 0x00, 0x00, 0xFD, 0x67], 0x8002, 2) := by decide

/-- V-ARITH 17: `ORA #$80`, A=0x0F. -/
theorem test_arith_17 :
    after (step ({ start [0x09, 0x80] [] with A := 0x0F })) regs =
    some ([0x8F, 0x00, 0x00, 0xFD, 0xA4], 0x8002, 2) := by decide

/-- V-ARITH 18: `EOR #$FF`, A=0xFF. -/
theorem test_arith_18 :
    after (step ({ start [0x49, 0xFF] [] with A := 0xFF })) regs =
    some ([0x00, 0x00, 0x00, 0xFD, 0x26], 0x8002, 2) := by decide

/-- V-ARITH 20: `INC $10`, m[0x0010]=0xFF. -/
theorem test_arith_20 :
    after (step (start [0xE6, 0x10] [(0x0010, 0xFF)]))
      (fun t => (regs t, t.byteAt 0x0010)) =
    some (([0x00, 0x00, 0x00, 0xFD, 0x26], 0x8002, 5), some 0x00) := by decide

/-- V-ARITH 23: `DEC $10`, m[0x0010]=0x00. -/
theorem test_arith_23 :
    after (step (start [0xC6, 0x10] [(0x0010, 0x00)]))
      (fun t => (regs t, t.byteAt 0x0010)) =
    some (([0x00, 0x00, 0x00, 0xFD, 0xA4], 0x8002, 5), some 0xFF) := by decide

/-- V-ARITH 25: `INX`, X=0xFF. -/
theorem test_arith_25 :
    after (step ({ start [0xE8] [] with X := 0xFF })) regs =
    some ([0x00, 0x00, 0x00, 0xFD, 0x26], 0x8001, 2) := by decide

/-- V-ARITH 26: `INY`, Y=0x7F. -/
theorem test_arith_26 :
    after (step ({ start [0xC8] [] with Y := 0x7F })) regs =
    some ([0x00, 0x00, 0x80, 0xFD, 0xA4], 0x8001, 2) := by decide

/-- V-ARITH 27: `DEX`, X=0x00. -/
theorem test_arith_27 :
    after (step (start [0xCA] [])) regs =
    some ([0x00, 0xFF, 0x00, 0xFD, 0xA4], 0x8001, 2) := by decide

/-- V-ARITH 28: `DEY`, Y=0x01. -/
theorem test_arith_28 :
    after (step ({ start [0x88] [] with Y := 0x01 })) regs =
    some ([0x00, 0x00, 0x00, 0xFD, 0x26], 0x8001, 2) := by decide

/-- V-SHIFT 1: `ASL A`, A=0x81. -/
theorem test_shift_01 :
    after (step ({ start [0x0A] [] with A := 0x81 })) regs =
    some ([0x02, 0x00, 0x00, 0xFD, 0x25], 0x8001, 2) := by decide

/-- V-SHIFT 4: `ASL $01F0,X`, X=0x20, m[0x0210]=0x01. -/
theorem test_shift_04 :
    after (step ({ start [0x1E, 0xF0, 0x01] [(0x0210, 0x01)] with X := 0x20 }))
      (fun t => (regs t, t.byteAt 0x0210)) =
    some (([0x00, 0x20, 0x00, 0xFD, 0x24], 0x8003, 7), some 0x02) := by decide

/-- V-SHIFT 6: `LSR A`, A=0x01. -/
theorem test_shift_06 :
    after (step ({ start [0x4A] [] with A := 0x01 })) regs =
    some ([0x00, 0x00, 0x00, 0xFD, 0x27], 0x8001, 2) := by decide

/-- V-SHIFT 9: `ROL A`, A=0x40, P=0x25 {B1,I,C}. -/
theorem test_shift_09 :
    after (step ({ start [0x2A] [] with A := 0x40, flags := Flags.load 0x25 })) regs =
    some ([0x81, 0x00, 0x00, 0xFD, 0xA4], 0x8001, 2) := by decide

/-- V-SHIFT 13: `ROR A`, A=0x00, P=0x25 {B1,I,C}. -/
theorem test_shift_13 :
    after (step ({ start [0x6A] [] with flags := Flags.load 0x25 })) regs =
    some ([0x80, 0x00, 0x00, 0xFD, 0xA4], 0x8001, 2) := by decide

/-- V-SHIFT 15: `ROR $0200,X`, X=0x01, m[0x0201]=0x03. -/
theorem test_shift_15 :
    after (step ({ start [0x7E, 0x00, 0x02] [(0x0201, 0x03)] with X := 0x01 }))
      (fun t => (regs t, t.byteAt 0x0201)) =
    some (([0x00, 0x01, 0x00, 0xFD, 0x25], 0x8003, 7), some 0x01) := by decide

/-- V-STACK 2: `PHA`, A=0x42, SP=0x00. -/
theorem test_stack_02 :
    after (step ({ start [0x48] [] with A := 0x42, SP := 0x00 }))
      (fun t => (regs t, t.byteAt 0x0100)) =
    some (([0x42, 0x00, 0x00, 0xFF, 0x24], 0x8001, 3), some 0x42) := by decide

/-- V-STACK 3: `PHP`, P=0x81 {N,C}. -/
theorem test_stack_03 :
    after (step ({ start [0x08] [] with flags := Flags.load 0x81 }))
      (fun t => (regs t, t.byteAt 0x01FD)) =
    some (([0x00, 0x00, 0x00, 0xFC, 0x81], 0x8001, 3), some 0xB1) := by decide

/-- V-STACK 5: `PHP`, P=0x00 {}. -/
theorem test_stack_05 :
    after (step ({ start [0x08] [] with flags := Flags.load 0x00 }))
      (fun t => (regs t, t.byteAt 0x01FD)) =
    some (([0x00, 0x00, 0x00, 0xFC, 0x00], 0x8001, 3), some 0x30) := by decide

/-- V-STACK 7: `PLA`, SP=0xFF, m[0x0100]=0x80. -/
theorem test_stack_07 :
    after (step ({ start [0x68] [(0x0100, 0x80)] with SP := 0xFF })) regs =
    some ([0x80, 0x00, 0x00, 0x00, 0xA4], 0x8001, 4) := by decide

/-- V-STACK 9: `PLP`, SP=0xFC, P=0x00 {}, m[0x01FD]=0xFF. -/
theorem test_stack_09 :
    after (step ({ start [0x28] [(0x01FD, 0xFF)] with SP := 0xFC, flags := Flags.load 0x00 })) regs =
    some ([0x00, 0x00, 0x00, 0xFD, 0xCF], 0x8001, 4) := by decide

/-- V-STACK 10: `PLP`, SP=0xFC, P=0xFF {N,V,B1,B2,D,I,Z,C}, m[0x01FD]=0x00. -/
theorem test_stack_10 :
    after (step ({ start [0x28] [(0x01FD, 0x00)] with SP := 0xFC, flags := Flags.load 0xFF })) regs =
    some ([0x00, 0x00, 0x00, 0xFD, 0x30], 0x8001, 4) := by decide

/-- V-CTRL 3: `JSR $9000`, default. -/
theorem test_ctrl_03 :
    after (step (start [0x20, 0x00, 0x90] []))
      (fun t => (regs t, t.byteAt 0x01FD, t.byteAt 0x01FC)) =
    some (([0x00, 0x00, 0x00, 0xFB, 0x24], 0x9000, 6), some 0x80, some 0x02) := by decide

/-- V-CTRL 5: `RTS`, SP=0xFB, m[0x01FC]=0xFF, m[0x01FD]=0xFF. -/
theorem test_ctrl_05 :
    after (step ({ start [0x60] [(0x01FC, 0xFF), (0x01FD, 0xFF)] with SP := 0xFB })) regs =
    some ([0x00, 0x00, 0x00, 0xFD, 0x24], 0x0000, 6) := by decide

/-- V-CTRL 7: `BRK`, P=0x2B {B1,D,Z,C}. -/
theorem test_ctrl_07 :
    after (step ({ start [0x00] [(0xFFFF, 0x90)] with flags := Flags.load 0x2B }))
      (fun t => (regs t, t.byteAt 0x01FD, t.byteAt 0x01FC, t.byteAt 0x01FB)) =
    some (([0x00, 0x00, 0x00, 0xFA, 0x2F], 0x9000, 7), some 0x80, some 0x02, some 0x3B) := by decide

/-- V-CTRL 9: `RTI`, SP=0xFA, P=0x00 {}, m[0x01FB]=0xCF, m[0x01FC]=0x34, m[0x01FD]=0x12. -/
theorem test_ctrl_09 :
    after (step ({ start [0x40] [(0x01FB, 0xCF), (0x01FC, 0x34), (0x01FD, 0x12)] with SP := 0xFA, flags := Flags.load 0x00 })) regs =
    some ([0x00, 0x00, 0x00, 0xFD, 0xCF], 0x1234, 6) := by decide

/-- V-CTRL 11: `BCC $8012`, P=0x25 {B1,I,C}. -/
theorem test_ctrl_11 :
    after (step ({ start [0x90, 0x10] [] with flags := Flags.load 0x25 })) regs =
    some ([0x00, 0x00, 0x00, 0xFD, 0x25], 0x8002, 2) := by decide

/-- V-CTRL 12: `BCS $8012`, P=0x25 {B1,I,C}. -/
theorem test_ctrl_12 :
    after (step ({ start [0xB0, 0x10] [] with flags := Flags.load 0x25 })) regs =
    some ([0x00, 0x00, 0x00, 0xFD, 0x25], 0x8012, 3) := by decide

/-- V-CTRL 14: `BEQ $8002`, P=0x26 {B1,I,Z}. -/
theorem test_ctrl_14 :
    after (step ({ start [0xF0, 0x00] [] with flags := Flags.load 0x26 })) regs =
    some ([0x00, 0x00, 0x00, 0xFD, 0x26], 0x8002, 3) := by decide

/-- V-CTRL 16: `BMI $7FF2`, P=0xA4 {N,B1,I}. -/
theorem test_ctrl_16 :
    after (step ({ start [0x30, 0xF0] [] with flags := Flags.load 0xA4 })) regs =
    some ([0x00, 0x00, 0x00, 0xFD, 0xA4], 0x7FF2, 4) := by decide

/-- V-CTRL 18: `BNE $8000`, P=0x24 {B1,I}. -/
theorem test_ctrl_18 :
    after (step (start [0xD0, 0xFE] [])) regs =
    some ([0x00, 0x00, 0x00, 0xFD, 0x24], 0x8000, 3) := by decide

/-- V-CTRL 20: `BPL $8002`, P=0x24 {B1,I}. -/
theorem test_ctrl_20 :
    after (step (start [0x10, 0x00] [])) regs =
    some ([0x00, 0x00, 0x00, 0xFD, 0x24], 0x8002, 3) := by decide

/-- V-CTRL 22: `BVC $8007`, P=0x24 {B1,I}. -/
theorem test_ctrl_22 :
    after (step (start [0x50, 0x05] [])) regs =
    some ([0x00, 0x00, 0x00, 0xFD, 0x24], 0x8007, 3) := by decide

/-- V-CTRL 24: `BVS $8081`, P=0x64 {V,B1,I}. -/
theorem test_ctrl_24 :
    after (step ({ start [0x70, 0x7F] [] with flags := Flags.load 0x64 })) regs =
    some ([0x00, 0x00, 0x00, 0xFD, 0x64], 0x8081, 3) := by decide

/-- V-FLAGS 1: `CLC`, P=0x25 {B1,I,C}. -/
theorem test_flags_01 :
    after (step ({ start [0x18] [] with flags := Flags.load 0x25 })) regs =
    some ([0x00, 0x00, 0x00, 0xFD, 0x24], 0x8001, 2) := by decide

/-- V-FLAGS 2: `CLD`, P=0x2C {B1,D,I}. -/
theorem test_flags_02 :
    after (step ({ start [0xD8] [] with flags := Flags.load 0x2C })) regs =
    some ([0x00, 0x00, 0x00, 0xFD, 0x24], 0x8001, 2) := by decide

/-- V-FLAGS 3: `CLI`, P=0x24 {B1,I}. -/
theorem test_flags_03 :
    after (step (start [0x58] [])) regs =
    some ([0x00, 0x00, 0x00, 0xFD, 0x20], 0x8001, 2) := by decide

/-- V-FLAGS 4: `CLV`, P=0x64 {V,B1,I}. -/
theorem test_flags_04 :
    after (step ({ start [0xB8] [] with flags := Flags.load 0x64 })) regs =
    some ([0x00, 0x00, 0x00, 0xFD, 0x24], 0x8001, 2) := by decide

/-- V-FLAGS 5: `SEC`, P=0x24 {B1,I}. -/
theorem test_flags_05 :
    after (step (start [0x38] [])) regs =
    some ([0x00, 0x00, 0x00, 0xFD, 0x25], 0x8001, 2) := by decide

/-- V-FLAGS 6: `SED`, P=0x24 {B1,I}. -/
theorem test_flags_06 :
    after (step (start [0xF8] [])) regs =
    some ([0x00, 0x00, 0x00, 0xFD, 0x2C], 0x8001, 2) := by decide

/-- V-FLAGS 7: `SEI`, P=0x20 {B1}. -/
theorem test_flags_07 :
    after (step ({ start [0x78] [] with flags := Flags.load 0x20 })) regs =
    some ([0x00, 0x00, 0x00, 0xFD, 0x24], 0x8001, 2) := by decide

/-- V-FLAGS 8: `NOP`, default. -/
theorem test_flags_08 :
    after (step (start [0xEA] [])) regs =
    some ([0x00, 0x00, 0x00, 0xFD, 0x24], 0x8001, 2) := by decide

/-! ## Errors: section 2.9 of file 95 of spec/ -/

/-- A state with another chunk list. -/
def on (cs : List Chunk) (s : State) : State := { s with bus := { s.bus with chunks := some cs } }

/-- V-FAULT 1 and 2: no chunk list, and an empty one. -/
theorem test_fault_01_02 :
    stop (step { start [0xEA] [] with bus := { chunks := none, mem := [], io := [] } }) =
      some (.configurationError .read) ∧
    stop (step (on [] (start [0xEA] []))) = some (.unmappedAddress 0x8000 .read) := by decide

/-- V-FAULT 4: `.byte $FF`. -/
theorem test_fault_04 : stop (step (start [0xFF] [])) = some (.unknownOpcode 0xFF 0x8000) := by decide

/-- V-FAULT 6: `STA $3000`. -/
theorem test_fault_06 :
    stop (step (start [0x8D, 0x00, 0x30] [])) = some (.unmappedAddress 0x3000 .write) := by decide

/-- V-FAULT 10: `JSR` with the second stack byte unmapped; the first byte is left written (R327). -/
theorem test_fault_10 :
    let s := on [⟨0x01FD, 1, .ram 0x01FD⟩, ⟨0x8000, 3, .rom 0x8000⟩] (start [0x20, 0x00, 0x90] [])
    stop (step s) = some (.unmappedAddress 0x01FC .write) ∧
    (busLeft (step s)).map (fun b => b.mem.get 0x01FD) = some 0x80 := by decide

/-- V-FAULT 11: `BRK` with the vector unmapped; the three pushes stand. -/
theorem test_fault_11 :
    let s := on [⟨0x0000, 0x0800, .ram 0⟩, ⟨0x8000, 0x0100, .rom 0x8000⟩] (start [0x00] [])
    stop (step s) = some (.unmappedAddress 0xFFFE .read) ∧
    (busLeft (step s)).map (fun b => [b.mem.get 0x01FD, b.mem.get 0x01FC, b.mem.get 0x01FB]) =
      some [0x80, 0x02, 0x34] := by decide

/-- V-FAULT 13: the refusal of decimal arithmetic comes before the unmapped operand read (R328). -/
theorem test_fault_13 :
    stop (step { start [0x6D, 0x00, 0x30] [] with
      flags := Flags.load 0x2C, params := { Config.params with decimal := .refuse } }) =
      some (.decimalModeRefused 0x6D 0x8000) := by decide

/-- V-FAULT 14: the instruction straddles the end of a chunk. -/
theorem test_fault_14 :
    stop (step (on [⟨0x8000, 2, .rom 0x8000⟩] (start [0xAD, 0x00] []))) =
      some (.unmappedAddress 0x8002 .read) := by decide

/-- V-FAULT 15: an unassigned byte at the last mapped byte (R328). -/
theorem test_fault_15 :
    stop (step (on [⟨0x8000, 1, .rom 0x8000⟩] (start [0x02] []))) =
      some (.unknownOpcode 0x02 0x8000) := by decide

/-! ## Host operations: section 2.10 of file 95, R330, R351 -/

/-- The reset procedure, run in `State.reset`, leaves `State.reset` (R55, R351). -/
theorem test_reset_procedure_gives_reset : powerOnReset State.reset = .ok () State.reset := rfl

/-- The fixture with the three vectors of section 2.10. -/
def fixture : State :=
  start [] [(0xFFFA, 0x00), (0xFFFB, 0xA0), (0xFFFC, 0x00), (0xFFFD, 0x80), (0xFFFE, 0x00), (0xFFFF, 0x90)]

/-- V-HOST 1: reset reads the vector. -/
theorem test_host_reset :
    regs (hostOp .reset { fixture with A := 0x12, SP := 0, PC := 0, CYC := 99 }) =
      ([0x00, 0x00, 0x00, 0xFD, 0x24], 0x8000, 7) := by decide

/-- V-HOST 3: IRQ with I = 0. -/
theorem test_host_irq :
    let t := hostOp (.interrupt .irq) { fixture with flags := Flags.load 0x20, CYC := 7 }
    regs t = ([0x00, 0x00, 0x00, 0xFA, 0x24], 0x9000, 14) ∧
    [t.byteAt 0x01FD, t.byteAt 0x01FC, t.byteAt 0x01FB] = [some 0x80, some 0x00, some 0x20] := by decide

/-- V-HOST 4: NMI with I = 1. -/
theorem test_host_nmi :
    let t := hostOp (.interrupt .nmi) { fixture with PC := 0x9000, SP := 0xFA, CYC := 14 }
    regs t = ([0x00, 0x00, 0x00, 0xF7, 0x24], 0xA000, 21) ∧
    [t.byteAt 0x01FA, t.byteAt 0x01F9, t.byteAt 0x01F8] = [some 0x90, some 0x00, some 0x24] := by decide

/-- V-HOST 5: reset before any `defineChunks`. -/
theorem test_host_reset_unconfigured :
    (hostOp .reset (State.fresh Config.params)).fault = some (.configurationError .read) := rfl

/-- R336: an event outside the core between two steps does not touch the core's own state. -/
theorem test_host_device_event :
    regs (hostOp (.deviceEvent 3 1) fixture) = regs fixture := by decide

/-! ## The trace, the assembler form, the placed instruction -/

/-- Step 6 of program 1 of file 95: `BNE $8005` at 0x8008, raw 0xFB, resolved 0x8005 (R202, D20). -/
theorem test_trace_branch :
    stepTrace { start [0xEA, 0xEA, 0xEA, 0xEA, 0xEA, 0xEA, 0xEA, 0xEA, 0xD0, 0xFB] [] with PC := 0x8008 } =
      some ⟨0x8008, .bne, .relative, some 0xFB, some 0x8005⟩ := by decide

/-- R138, and step 3 of program 1: `CLC` has neither raw nor resolved parameter. -/
theorem test_trace_implicit :
    stepTrace (start [0x18] []) = some ⟨0x8000, .clc, .implicit, none, none⟩ := by decide

/-- R138: the assembler forms file 95 prints for these encodings. -/
theorem test_assembly_text :
    assemblyText (.bne 0xFC) 0x8000 = "BNE $7FFE" ∧ assemblyText (.ldaIndY 0x86) 0x8000 = "LDA ($86),Y" ∧
    assemblyText (.jmpInd 0x02FF) 0x8000 = "JMP ($02FF)" ∧ assemblyText .aslA 0x8000 = "ASL A" := by decide

/-- R53, R38: from 0x24, C written by name gives 0x25; `load` gives its byte whole, bits 5 and 4 too. -/
theorem test_host_flag_writes :
    (hostWrite (.flag .C true) State.reset).flags.toByte = 0x25 ∧
    (hostWrite (.loadFlags 0xD0) State.reset).flags.toByte = 0xD0 := by decide

/-- R138: the offset of a branch, and none beyond its range. -/
theorem test_branch_offset :
    branchOffset 0x8000 0x7FFE = some 0xFC ∧ branchOffset 0x8000 0x8081 = some 0x7F ∧
    branchOffset 0x8000 0x8082 = none ∧ branchOffset 0x8000 0x7F82 = some 0x80 ∧
    branchOffset 0x8000 0x7F81 = none ∧ branchOffset 0xFFF0 0x0071 = some 0x7F := by decide

/-- R138: ZERO_PAGE where the mnemonic has both forms, ABSOLUTE else. -/
theorem test_direct_mode :
    directMode .lda 0x0010 = .zeroPage ∧ directMode .lda 0x0100 = .absolute ∧
    directMode .jmp 0x0010 = .absolute := by decide

/-- A placed instruction is decoded and is the first the reset state runs: `LDA #$7F`, JMP, INX. -/
theorem test_placed_word :
    decodeTableWord 16 0x7FA9 = some (.ldaImm 0x7F) ∧ decodeTableWord 24 0x12344C = some (.jmpAbs 0x1234) ∧
    decodeTableWord 8 0x02 = none ∧
    after (step (State.reset.withFetchWord 16 0x7FA9)) regs =
      some ([0x7F, 0x00, 0x00, 0xFD, 0x24], 0x0002, 9) ∧
    after (step (State.reset.withFetchWord 24 0x12344C)) regs =
      some ([0x00, 0x00, 0x00, 0xFD, 0x24], 0x1234, 10) := by decide

/-! ## Witnesses: for every obligation with hypotheses, states and operands that meet them, one for each
clause -/

theorem witness_DecodeIsExact : decode [0xA9, 0x7F, 0xEA] = .ok (.ldaImm 0x7F, [0xEA]) := rfl

theorem witness_UnassignedOpcodes :
    (0x02 : Byte) ∈ unassignedOpcodes ∧ (0xFF : Byte) ∈ unassignedOpcodes ∧
    (start [0xFF] []).Running ∧ (∃ t, memRead 0x8000 (start [0xFF] []) = .ok 0xFF t) ∧
    (0x00 : Byte) ∉ unassignedOpcodes ∧ (0xFE : Byte) ∉ unassignedOpcodes :=
  ⟨by decide, by decide, ⟨rfl, rfl⟩, ⟨_, rfl⟩, by decide, by decide⟩

/-- The instruction a fetch answers. -/
def fetched (s : State) : Option Instr :=
  match fetch s with
  | .ok i _ => some i
  | .err _ _ => none

theorem fetch_of_fetched {s : State} {i : Instr} (h : fetched s = some i) : ∃ s1, fetch s = .ok i s1 := by
  unfold fetched at h
  split at h
  · rename_i s1 hf
    cases h
    exact ⟨s1, hf⟩
  · cases h

/-- An instruction that wraps round the end of the address space. -/
theorem witness_StepRunsDecodedInstruction :
    let s : State := { flat [(0xFFFF, 0xA9), (0x0000, 0x7F)] with PC := 0xFFFF }
    s.Running ∧
    (∀ k b, (encode (.ldaImm 0x7F))[k]? = some b → s.byteAt (s.PC + BitVec.ofNat 16 k) = some b) ∧
    ∃ s1, fetch s = .ok (.ldaImm 0x7F) s1 := by
  refine ⟨⟨rfl, rfl⟩, fun k b h => ?_, fetch_of_fetched (by decide)⟩
  match k with
  | 0 => cases h; decide
  | 1 => cases h; decide
  | k + 2 => cases h

theorem witness_FetchErrorsComeInOrder :
    (State.reset.Running ∧ (narrow 0x0001 1 []).Running ∧
      ∃ e t, memRead 0x0000 (narrow 0x0001 1 []) = .err e t) ∧
    (let s := narrow 0x0000 1 [(0x0000, 0xA9)]
     s.Running ∧ ∃ t e u, memRead s.PC s = .ok 0xA9 t ∧
      (∃ f, formOf 0xA9 = some f ∧ f.row.mode.parameterSize ≠ 0) ∧ memRead (s.PC + 1) t = .err e u) ∧
    (let s := narrow 0x0000 2 [(0x0000, 0x4C)]
     s.Running ∧ ∃ t l u e w, memRead s.PC s = .ok 0x4C t ∧
      (∃ f, formOf 0x4C = some f ∧ f.row.mode.parameterSize = 2) ∧ memRead (s.PC + 1) t = .ok l u ∧
      memRead (s.PC + 2) u = .err e w) ∧
    (∃ s : State, s.Running ∧ s.bus.chunks = none) ∧ (∃ s : State, s.Running ∧ s.bus.chunks = some []) :=
  ⟨⟨⟨rfl, rfl⟩, ⟨rfl, rfl⟩, _, _, rfl⟩,
    ⟨⟨rfl, rfl⟩, _, _, _, rfl, ⟨_, rfl, by decide⟩, rfl⟩,
    ⟨⟨rfl, rfl⟩, _, _, _, _, _, rfl, ⟨_, rfl, rfl⟩, rfl, rfl⟩,
    ⟨{ State.reset with bus := { chunks := none, mem := [], io := [] } }, ⟨rfl, rfl⟩, rfl⟩,
    ⟨on [] State.reset, ⟨rfl, rfl⟩, rfl⟩⟩

theorem witness_CoreStuckAfterError :
    (∃ (s : State) (e : CoreError), s.resetMade = true ∧ s.fault = some e) ∧
    ((start [0x02] []).Running ∧ ∃ e left, step (start [0x02] []) = .fault (.raised e left)) ∧
    ∃ o s, s.fault ≠ none ∧ (hostOp o s).fault = none :=
  ⟨⟨{ State.reset with fault := some (.unknownOpcode 0x02 0) }, _, rfl, rfl⟩,
    ⟨⟨rfl, rfl⟩, _, _, rfl⟩,
    ⟨.reset, { flat [] with fault := some (.unknownOpcode 0x02 0) }, by decide, rfl⟩⟩

theorem witness_NoStepBeforeReset :
    (State.fresh Config.params).resetMade = false ∧
    (hostOp .reset (State.fresh Config.params)).resetMade = true := ⟨rfl, rfl⟩

/-- The first and the last address of the chunk that answers, and an address in no chunk. -/
theorem witness_RoutingIsFirstMatch :
    let a : Chunk := ⟨0x0000, 0x10, .ram 0⟩
    let c : Chunk := ⟨0x0010, 0x10, .rom 0⟩
    (∀ x ∈ [(0x0010 : Word), 0x001F],
      (∀ d ∈ [a], ¬ (d.start.toNat ≤ x.toNat ∧ x.toNat < d.start.toNat + d.size)) ∧
      c.start.toNat ≤ x.toNat ∧ x.toNat < c.start.toNat + c.size) ∧
    ∀ d ∈ [a, c], ¬ (d.start.toNat ≤ (0x0020 : Word).toNat ∧
      (0x0020 : Word).toNat < d.start.toNat + d.size) := by
  intro a c
  simp [a, c]

/-- RAM with a mirror of it, and ROM. -/
theorem witness_RamStoresRomIgnores :
    let s := on [⟨0x0000, 0x0800, .ram 0⟩, ⟨0x0800, 0x0800, .ram 0⟩, ⟨0x8000, 0x8000, .rom 0x8000⟩] State.reset
    s.bus.mem.wf = true ∧ locate s.bus.chunks 0x07FF .write = .ok (.ram 0, 0x07FF) ∧
    locate s.bus.chunks 0x8000 .write = .ok (.rom 0x8000, 0) ∧
    s.cellOf 0x0FFF = some (0 + 0x07FF) ∧ s.cellOf 0x0000 ≠ some (0 + 0x07FF) :=
  ⟨rfl, rfl, rfl, by decide, by decide⟩

theorem witness_DeviceSeesEachAccessOnce :
    locate deviceBus.bus.chunks 0xFFFF .read = .ok (.device 3, 0xFFFF) := rfl

theorem witness_AccessOrderOnTheBus :
    deviceBus.bus.chunks = some [{ start := 0, size := 0x10000, kind := .device 3 }] := rfl

/-- The last address before each wrap. -/
theorem witness_MultiByteReads :
    (∃ l h t u, memRead 0xFFFF (flat []) = .ok l t ∧ memRead (0xFFFF + 1) t = .ok h u) ∧
    (∃ l h t u, memRead (BitVec.ofNat 16 (0xFF : Byte).toNat) (flat []) = .ok l t ∧
      memRead (BitVec.ofNat 16 (((0xFF : Byte).toNat + 1) % 256)) t = .ok h u) ∧
    ((flat []).params.jmpIndWrap = .pageWrap ∧ ∃ l h t u, memRead 0x02FF (flat []) = .ok l t ∧
      memRead (BitVec.ofNat 16 ((0x02FF : Word).toNat / 256 * 256 + ((0x02FF : Word).toNat + 1) % 256)) t =
        .ok h u) ∧
    (∃ s : State, s.params.jmpIndWrap = .linear) ∧
    (∃ e t, memRead 0x0001 (narrow 0 1 []) = .err e t) ∧
    (∃ l t e u, memRead 0x0000 (narrow 0 1 []) = .ok l t ∧ memRead (0x0000 + 1) t = .err e u) :=
  ⟨⟨_, _, _, _, rfl, rfl⟩, ⟨_, _, _, _, rfl, rfl⟩, ⟨rfl, _, _, _, _, rfl, rfl⟩,
    ⟨{ State.reset with params := { Config.params with jmpIndWrap := .linear } }, rfl⟩,
    ⟨_, _, rfl⟩, ⟨_, _, _, _, rfl, rfl⟩⟩

/-- Page 1 is RAM, or is not mapped; SP at both ends of the page. -/
theorem witness_PushAndPull :
    (∀ sp ∈ [(0x00 : Byte), 0xFF], ∃ t, memWrite (stackAddress sp) 0x42 (flat []) = .ok () t) ∧
    (∀ sp ∈ [(0x00 : Byte), 0xFF], ∃ v t, memRead (stackAddress (sp + 1)) (flat []) = .ok v t) ∧
    (∃ e t, memWrite (stackAddress 0xFD) 0x42 (narrow 0 1 []) = .err e t) ∧
    (∃ e t, memRead (stackAddress (0xFD + 1)) (narrow 0 1 []) = .err e t) ∧
    (∃ t u, push (BitVec.ofNat 8 ((0x1234 : Word).toNat / 256)) (flat []) = .ok () t ∧
      push (BitVec.ofNat 8 ((0x1234 : Word).toNat % 256)) t = .ok () u) ∧
    (∃ l t h u, pull (flat []) = .ok l t ∧ pull t = .ok h u) := by
  refine ⟨?_, ?_, ⟨_, _, rfl⟩, ⟨_, _, rfl⟩, ⟨_, _, rfl, rfl⟩, ⟨_, _, _, _, rfl, rfl⟩⟩ <;>
    (intro sp hs
     simp only [List.mem_cons, List.not_mem_nil, or_false] at hs)
  · rcases hs with rfl | rfl <;> exact ⟨_, rfl⟩
  · rcases hs with rfl | rfl <;> exact ⟨_, _, rfl⟩

theorem witness_ModesThroughPointer :
    ((flat []).params.jmpIndWrap = .pageWrap ∧ ∃ l h t u, memRead 0x02FF (flat []) = .ok l t ∧
      memRead (BitVec.ofNat 16 ((0x02FF : Word).toNat / 256 * 256 + ((0x02FF : Word).toNat + 1) % 256)) t =
        .ok h u) ∧
    (∃ s : State, s.params.jmpIndWrap = .linear ∧ ∃ l h t u, memRead 0xFFFF s = .ok l t ∧
      memRead (BitVec.ofNat 16 ((0xFFFF : Word).toNat + 1)) t = .ok h u) ∧
    (let s := { flat [] with X := 0x01 }
     ∃ l h t u, memRead (BitVec.ofNat 16 (((0xFE : Byte).toNat + s.X.toNat) % 256)) s = .ok l t ∧
      memRead (BitVec.ofNat 16 (((0xFE : Byte).toNat + s.X.toNat + 1) % 256)) t = .ok h u) ∧
    (∃ l h t u, memRead (BitVec.ofNat 16 (0xFF : Byte).toNat) (flat []) = .ok l t ∧
      memRead (BitVec.ofNat 16 (((0xFF : Byte).toNat + 1) % 256)) t = .ok h u) :=
  ⟨⟨rfl, _, _, _, _, rfl, rfl⟩,
    ⟨{ flat [] with params := { Config.params with jmpIndWrap := .linear } }, rfl, _, _, _, _, rfl, rfl⟩,
    ⟨_, _, _, _, rfl, rfl⟩, ⟨_, _, _, _, rfl, rfl⟩⟩

theorem witness_ZeroNegativeUpdate :
    (∃ t, Instr.mnemonic (.cmpAbsX 0xFFFF) ∈ [Mnemonic.cmp, .cpx, .cpy, .bit] ∧
      exec (.cmpAbsX 0xFFFF) (flat []) = .next t) ∧
    (∃ t, Instr.mnemonic (.bitZp 0xFF) ∈ [Mnemonic.cmp, .cpx, .cpy, .bit] ∧
      exec (.bitZp 0xFF) (flat []) = .next t) :=
  ⟨⟨_, by decide, rfl⟩, ⟨_, by decide, rfl⟩⟩

theorem witness_ResolverWritesNothing :
    (∃ r s1, resolve .indirect 0x02FF (flat []) = .ok r s1) ∧
    (∃ e s1, resolve .indirect 0x3000 State.reset = .err e s1) ∧
    (∃ r s1, resolve .absolute 0xFFFF (flat []) = .ok r s1 ∧ Mode.absolute ≠ .indirect ∧
      Mode.absolute ≠ .indexedIndirectX ∧ Mode.absolute ≠ .indexedIndirectY) :=
  ⟨⟨_, _, rfl⟩, ⟨_, _, rfl⟩, ⟨_, _, rfl, by decide, by decide, by decide⟩⟩

theorem witness_OperandOfReadClass :
    (∃ r s1 ea v t, Mode.indexedIndirectY ≠ .immediate ∧
      resolve .indexedIndirectY 0x86 (flat []) = .ok r s1 ∧ r.ea = some ea ∧ memRead ea s1 = .ok v t) ∧
    (∃ e s1, resolve .indirect 0x3000 State.reset = .err e s1) ∧
    (∃ r s1 ea e t, Mode.absolute ≠ .immediate ∧ resolve .absolute 0x3000 State.reset = .ok r s1 ∧
      r.ea = some ea ∧ memRead ea s1 = .err e t) ∧
    (∃ x s1, readOperand .immediate 0x7F (flat []) = .ok x s1) :=
  ⟨⟨_, _, _, _, _, by decide, rfl, rfl, rfl⟩, ⟨_, _, rfl⟩, ⟨_, _, _, _, _, by decide, rfl, rfl, rfl⟩,
    ⟨_, _, rfl⟩⟩

theorem witness_LoadInstructions :
    (∀ i ∈ [Instr.ldaIndY 0xFF, .ldxAbsY 0xFFFF, .ldyZpX 0xFF], ∃ r v s1,
      readOperand i.mode i.param (flat []) = .ok (r, v) s1) ∧
    (∀ i ∈ [Instr.ldaAbs 0x3000, .ldxAbs 0x3000, .ldyAbs 0x3000], ∃ e s1,
      readOperand i.mode i.param State.reset = .err e s1) := by
  constructor <;>
    (intro i hi
     simp only [List.mem_cons, List.not_mem_nil, or_false] at hi)
  · rcases hi with rfl | rfl | rfl <;> exact ⟨_, _, _, rfl⟩
  · rcases hi with rfl | rfl | rfl <;> exact ⟨_, _, rfl⟩

/-- A store reaches the address it is made at, and with RAM over the whole space no other. -/
theorem flat_reaches (ea a : Word) : (flat []).storeReaches ea a ↔ a = ea := by
  have hl : ∀ x k, locate (flat []).bus.chunks x k = .ok (.ram 0, x.toNat) := by
    intro x k
    have := x.isLt
    simp [flat, locate, firstCovering, Chunk.covers, show x.toNat < 65536 from this]
  simp only [State.storeReaches, State.ramCell, State.cellOf, hl]
  constructor
  · rintro ⟨k, h1, h2⟩
    apply BitVec.eq_of_toNat_eq
    simp only [Option.some.injEq] at h1 h2
    omega
  · rintro rfl
    exact ⟨_, rfl, rfl⟩

theorem witness_StoreInstructions :
    (flat []).bus.mem.wf = true ∧
    (∃ r s1 ea t, resolve .indexedIndirectY 0xFF (flat []) = .ok r s1 ∧ r.ea = some ea ∧
      memWrite ea (flat []).A s1 = .ok () t) ∧
    (∃ r s1 ea t, resolve .indexedZeroPageY 0xFF (flat []) = .ok r s1 ∧ r.ea = some ea ∧
      memWrite ea (flat []).X s1 = .ok () t) ∧
    (∃ r s1 ea t, resolve .absolute 0xFFFF (flat []) = .ok r s1 ∧ r.ea = some ea ∧
      memWrite ea (flat []).Y s1 = .ok () t) ∧
    (∃ r s1 ea e t, resolve .absolute 0x3000 State.reset = .ok r s1 ∧ r.ea = some ea ∧
      memWrite ea State.reset.A s1 = .err e t ∧ memWrite ea State.reset.X s1 = .err e t ∧
      memWrite ea State.reset.Y s1 = .err e t) ∧
    (∃ e s1, resolve (Instr.staIndX 0x10).mode (Instr.staIndX 0x10).param (narrow 0x8000 1 []) = .err e s1) ∧
    (flat []).storeReaches 0xFFFF 0xFFFF ∧ ¬ (flat []).storeReaches 0xFFFF 0x0000 :=
  ⟨rfl, ⟨_, _, _, _, rfl, rfl, rfl⟩, ⟨_, _, _, _, rfl, rfl, rfl⟩, ⟨_, _, _, _, rfl, rfl, rfl⟩,
    ⟨_, _, _, _, _, rfl, rfl, rfl, rfl, rfl⟩, ⟨_, _, rfl⟩, (flat_reaches _ _).2 rfl,
    fun h => absurd ((flat_reaches _ _).1 h) (by decide)⟩

theorem witness_AddWithCarryInstruction :
    (Instr.adcAbsX 0xFFFF).mnemonic = .adc ∧ ¬ (flat []).refusesDecimal ∧
    (∃ r v s1, readOperand .indexedAbsoluteX 0xFFFF (flat []) = .ok (r, v) s1) ∧
    ¬ State.reset.refusesDecimal ∧ ∃ e s1, readOperand .absolute 0x3000 State.reset = .err e s1 :=
  ⟨rfl, fun h => (by cases h.1), ⟨_, _, _, rfl⟩, fun h => (by cases h.1), ⟨_, _, rfl⟩⟩

theorem witness_SubtractWithBorrowInstruction :
    (Instr.sbcIndX 0xFF).mnemonic = .sbc ∧ ¬ (flat []).refusesDecimal ∧
    (∃ r v s1, readOperand .indexedIndirectX 0xFF (flat []) = .ok (r, v) s1) ∧
    ¬ State.reset.refusesDecimal ∧ ∃ e s1, readOperand .absolute 0x3000 State.reset = .err e s1 :=
  ⟨rfl, fun h => (by cases h.1), ⟨_, _, _, rfl⟩, fun h => (by cases h.1), ⟨_, _, rfl⟩⟩

/-- A state that refuses decimal arithmetic. -/
def refusing (s : State) : State :=
  { s with flags := Flags.load 0x2C, params := { Config.params with decimal := .refuse } }

theorem witness_DecimalModeRefusal :
    (Instr.adcImm 0x01).mnemonic = .adc ∧ (Instr.sbcImm 0x01).mnemonic = .sbc ∧
    (refusing (flat [])).refusesDecimal ∧ (∃ r s1, resolve .immediate 0x01 (refusing (flat [])) = .ok r s1) ∧
    (refusing (narrow 0x8000 1 [])).refusesDecimal ∧
    (∃ e s1, resolve .indexedIndirectX 0x10 (refusing (narrow 0x8000 1 [])) = .err e s1) ∧
    (∃ op pc b, exec (.adcImm 0x01) (refusing (flat [])) = .fault (.raised (.decimalModeRefused op pc) b)) :=
  ⟨rfl, rfl, ⟨rfl, rfl⟩, ⟨_, _, rfl⟩, ⟨rfl, rfl⟩, ⟨_, _, rfl⟩, ⟨_, _, _, rfl⟩⟩

theorem witness_LogicInstructions :
    (∀ i ∈ [Instr.andIndY 0xFF, .oraAbsX 0xFFFF, .eorImm 0xFF], ∃ r v s1,
      readOperand i.mode i.param (flat []) = .ok (r, v) s1) ∧
    (∀ i ∈ [Instr.andAbs 0x3000, .oraAbs 0x3000, .eorAbs 0x3000], ∃ e s1,
      readOperand i.mode i.param State.reset = .err e s1) := by
  constructor <;>
    (intro i hi
     simp only [List.mem_cons, List.not_mem_nil, or_false] at hi)
  · rcases hi with rfl | rfl | rfl <;> exact ⟨_, _, _, rfl⟩
  · rcases hi with rfl | rfl | rfl <;> exact ⟨_, _, rfl⟩

theorem witness_CompareAndBitTestInstructions :
    (∀ i ∈ [Instr.cmpAbsY 0xFFFF, .cpxZp 0xFF, .cpyImm 0xFF, .bitAbs 0xFFFF], ∃ r v s1,
      readOperand i.mode i.param (flat []) = .ok (r, v) s1) ∧
    (∀ i ∈ [Instr.cmpAbs 0x3000, .cpxAbs 0x3000, .cpyAbs 0x3000, .bitAbs 0x3000], ∃ e s1,
      readOperand i.mode i.param State.reset = .err e s1) := by
  constructor <;>
    (intro i hi
     simp only [List.mem_cons, List.not_mem_nil, or_false] at hi)
  · rcases hi with rfl | rfl | rfl | rfl <;> exact ⟨_, _, _, rfl⟩
  · rcases hi with rfl | rfl | rfl | rfl <;> exact ⟨_, _, rfl⟩

/-- The operand 0xFF of INC and 0x00 of DEC, which wrap. -/
theorem witness_IncrementDecrementMemory :
    let s := flat [(0x0010, 0xFF)]
    s.bus.mem.wf = true ∧
    (∃ r s1 ea s2, resolve .zeroPage 0x10 s = .ok r s1 ∧ r.ea = some ea ∧ memRead ea s1 = .ok 0xFF s2 ∧
      (Instr.incZp 0x10).mnemonic = .inc ∧ (0x00 : Byte).toNat = ((0xFF : Byte).toNat + 1) % 256) ∧
    (∃ r s1 ea s2, resolve .absolute 0xFFFF s = .ok r s1 ∧ r.ea = some ea ∧ memRead ea s1 = .ok 0x00 s2 ∧
      (Instr.decAbs 0xFFFF).mnemonic = .dec ∧ (0xFF : Byte).toNat = ((0x00 : Byte).toNat + 255) % 256) ∧
    (∃ r s1 ea e t, resolve .absolute 0x3000 State.reset = .ok r s1 ∧ r.ea = some ea ∧
      memRead ea s1 = .err e t) :=
  ⟨rfl, ⟨_, _, _, _, rfl, rfl, rfl, rfl, rfl⟩, ⟨_, _, _, _, rfl, rfl, rfl, rfl, rfl⟩,
    ⟨_, _, _, _, _, rfl, rfl, rfl⟩⟩

theorem witness_IncrementDecrementRegister :
    (0x00 : Byte).toNat = ((0xFF : Byte).toNat + 1) % 256 ∧
    (0xFF : Byte).toNat = ((0x00 : Byte).toNat + 255) % 256 := by decide

/-- For the operand 0x81 and C = 1: the result and the carry of each, and both kinds of operand. -/
theorem witness_ShiftsAndRotates :
    let s := { flat [(0x0010, 0x81)] with A := 0x81, flags := Flags.load 0x25 }
    ((0x02 : Byte).toNat = 2 * (0x81 : Byte).toNat % 256 ∧
     (0x40 : Byte).toNat = (0x81 : Byte).toNat / 2 ∧
     (0x03 : Byte).toNat = (2 * (0x81 : Byte).toNat + s.flags.C.toNat) % 256 ∧
     (0xC0 : Byte).toNat = (0x81 : Byte).toNat / 2 + 128 * s.flags.C.toNat ∧
     true = decide (128 ≤ (0x81 : Byte).toNat) ∧ true = decide ((0x81 : Byte).toNat % 2 = 1)) ∧
    (Instr.rorA.mode = .accumulator ∧ s.A = 0x81) ∧ s.bus.mem.wf = true ∧
    (∃ r s1 ea s2, resolve .zeroPage 0x10 s = .ok r s1 ∧ r.ea = some ea ∧ memRead ea s1 = .ok 0x81 s2) ∧
    (∃ r s1 ea e t, resolve .absolute 0x3000 State.reset = .ok r s1 ∧ r.ea = some ea ∧
      memRead ea s1 = .err e t) :=
  ⟨by decide, ⟨rfl, rfl⟩, rfl, ⟨_, _, _, _, rfl, rfl, rfl⟩, ⟨_, _, _, _, _, rfl, rfl, rfl⟩⟩

theorem witness_PushInstructions :
    (flat []).bus.mem.wf = true ∧
    (∃ t, memWrite (stackAddress (flat []).SP) (flat []).A (flat []) = .ok () t) ∧
    (∃ t, memWrite (stackAddress (flat []).SP) ((flat []).flags.toByte ||| 0x30) (flat []) = .ok () t) ∧
    (narrow 0 1 []).bus.mem.wf = true ∧
    (∃ e t, memWrite (stackAddress 0xFD) (narrow 0 1 []).A (narrow 0 1 []) = .err e t) ∧
    (∃ e t, memWrite (stackAddress 0xFD) ((narrow 0 1 []).flags.toByte ||| 0x30) (narrow 0 1 []) = .err e t) :=
  ⟨rfl, ⟨_, rfl⟩, ⟨_, rfl⟩, rfl, ⟨_, _, rfl⟩, ⟨_, _, rfl⟩⟩

theorem witness_PullInstructions :
    (∃ v t, memRead (stackAddress (0xFF + 1)) { flat [] with SP := 0xFF } = .ok v t) ∧
    (∃ e t, memRead (stackAddress (0xFD + 1)) (narrow 0 1 []) = .err e t) := ⟨⟨_, _, rfl⟩, ⟨_, _, rfl⟩⟩

theorem witness_JumpInstruction :
    (∃ ea s1, read16PageWrap 0x02FF (flat []) = .ok ea s1) ∧
    (∃ e s1, read16PageWrap 0x3000 State.reset = .err e s1) := ⟨⟨_, _, rfl⟩, ⟨_, _, rfl⟩⟩

/-- Both stores answered; the first unmapped; the second unmapped (SP = 0, page 1 ends below 0x01FF). -/
theorem witness_CallInstruction :
    ((flat []).bus.mem.wf = true ∧ ∃ t u, memWrite (stackAddress 0xFD) 0xFF (flat []) = .ok () t ∧
      memWrite (stackAddress (0xFD - 1)) 0xFF t = .ok () u) ∧
    ((narrow 0 1 []).bus.mem.wf = true ∧
      ∃ e t, memWrite (stackAddress 0xFD) 0xFF (narrow 0 1 []) = .err e t) ∧
    (let s := { narrow 0 0x0101 [] with SP := 0x00 }
     s.bus.mem.wf = true ∧ ∃ t e u, memWrite (stackAddress s.SP) 0xFF s = .ok () t ∧
      memWrite (stackAddress (s.SP - 1)) 0xFF t = .err e u) ∧
    (flat []).storeReaches (stackAddress 0xFD) 0x01FD ∧ ¬ (flat []).storeReaches (stackAddress 0xFC) 0x01FD :=
  ⟨⟨rfl, _, _, rfl, rfl⟩, ⟨rfl, _, _, rfl⟩, ⟨rfl, _, _, _, rfl, rfl⟩, (flat_reaches _ _).2 (by decide),
    fun h => absurd ((flat_reaches _ _).1 h) (by decide)⟩

theorem witness_ReturnFromCallInstruction :
    (∃ l t h u, memRead (stackAddress (0xFE + 1)) { flat [] with SP := 0xFE } = .ok l t ∧
      memRead (stackAddress (0xFE + 2)) t = .ok h u) ∧
    (∃ e t, memRead (stackAddress (0xFD + 1)) (narrow 0 1 []) = .err e t) ∧
    (∃ l t e u, memRead (stackAddress (0xFE + 1)) { narrow 0x01FF 1 [] with SP := 0xFE } = .ok l t ∧
      memRead (stackAddress (0xFE + 2)) t = .err e u) :=
  ⟨⟨_, _, _, _, rfl, rfl⟩, ⟨_, _, rfl⟩, ⟨_, _, _, _, rfl, rfl⟩⟩

/-- Each access of BRK answered, and each one the first to fail. -/
theorem witness_BreakInstruction :
    (let s := flat []
     s.bus.mem.wf = true ∧ ∃ t1 t2 t3 l t4 h t5,
      memWrite (stackAddress s.SP) (hi (s.PC + 1)) s = .ok () t1 ∧
      memWrite (stackAddress (s.SP - 1)) (lo (s.PC + 1)) t1 = .ok () t2 ∧
      memWrite (stackAddress (s.SP - 2)) (s.flags.toByte ||| 0x30) t2 = .ok () t3 ∧
      memRead 0xFFFE t3 = .ok l t4 ∧ memRead 0xFFFF t4 = .ok h t5) ∧
    (∃ e t, memWrite (stackAddress 0xFD) 0x00 (narrow 0 1 []) = .err e t) ∧
    (let s := { narrow 0 0x0101 [] with SP := 0x00 }
     ∃ t1 e t, memWrite (stackAddress s.SP) 0x00 s = .ok () t1 ∧
      memWrite (stackAddress (s.SP - 1)) 0x01 t1 = .err e t) ∧
    (let s := { narrow 0 0x0102 [] with SP := 0x01 }
     ∃ t1 t2 e t, memWrite (stackAddress s.SP) 0x00 s = .ok () t1 ∧
      memWrite (stackAddress (s.SP - 1)) 0x01 t1 = .ok () t2 ∧
      memWrite (stackAddress (s.SP - 2)) 0x34 t2 = .err e t) ∧
    (∃ e t, memRead 0xFFFE (narrow 0 0xFFFE []) = .err e t) ∧
    (∃ l t e u, memRead 0xFFFE (narrow 0 0xFFFF []) = .ok l t ∧ memRead 0xFFFF t = .err e u) :=
  ⟨⟨rfl, _, _, _, _, _, _, _, rfl, rfl, rfl, rfl, rfl⟩, ⟨_, _, rfl⟩, ⟨_, _, _, rfl, rfl⟩,
    ⟨_, _, _, _, rfl, rfl, rfl⟩, ⟨_, _, rfl⟩, ⟨_, _, _, _, rfl, rfl⟩⟩

theorem witness_ReturnFromTrapInstruction :
    (let s := { flat [] with SP := 0xFE }
     ∃ b t l u h w, memRead (stackAddress (s.SP + 1)) s = .ok b t ∧
      memRead (stackAddress (s.SP + 2)) t = .ok l u ∧ memRead (stackAddress (s.SP + 3)) u = .ok h w) ∧
    (∃ e t, memRead (stackAddress (0xFD + 1)) (narrow 0 1 []) = .err e t) ∧
    (let s := { narrow 0x01FF 1 [] with SP := 0xFE }
     ∃ b t e u, memRead (stackAddress (s.SP + 1)) s = .ok b t ∧
      memRead (stackAddress (s.SP + 2)) t = .err e u) ∧
    (let s := { narrow 0x01FE 2 [] with SP := 0xFD }
     ∃ b t l u e w, memRead (stackAddress (s.SP + 1)) s = .ok b t ∧
      memRead (stackAddress (s.SP + 2)) t = .ok l u ∧ memRead (stackAddress (s.SP + 3)) u = .err e w) :=
  ⟨⟨_, _, _, _, _, _, rfl, rfl, rfl⟩, ⟨_, _, rfl⟩, ⟨_, _, _, _, rfl, rfl⟩,
    ⟨_, _, _, _, _, _, rfl, rfl, rfl⟩⟩

/-- SP = 0, so that the stack wraps. -/
theorem witness_CallAndTrapReturn :
    let s := { flat [] with SP := 0x00 }
    s.bus.mem.wf = true ∧ s.ramCell (stackAddress s.SP) ≠ none ∧
    s.ramCell (stackAddress (s.SP - 1)) ≠ none ∧ s.ramCell (stackAddress (s.SP - 2)) ≠ none ∧
    s.ramCell (stackAddress s.SP) ≠ s.ramCell (stackAddress (s.SP - 1)) ∧
    s.ramCell (stackAddress s.SP) ≠ s.ramCell (stackAddress (s.SP - 2)) ∧
    s.ramCell (stackAddress (s.SP - 1)) ≠ s.ramCell (stackAddress (s.SP - 2)) ∧
    (∃ t, exec (.jsrAbs 0x9000) s = .next t) ∧ ∃ t, exec .brk s = .next t :=
  ⟨rfl, by decide, by decide, by decide, by decide, by decide, by decide, ⟨_, rfl⟩, ⟨_, rfl⟩⟩

/-- A penalised crossing, a branch taken across a page, a branch not taken, a step. -/
theorem witness_CycleAccounting :
    (∃ t, exec (.ldaAbsX 0x01FF) { flat [] with X := 0x01 } = .next t ∧
      (Instr.ldaAbsX 0x01FF).mnemonic.operandClass ≠ .branch) ∧
    (∃ t, exec (.bne 0x80) (flat []) = .next t ∧ (Instr.bne 0x80).mnemonic.operandClass = .branch) ∧
    (∃ t, exec (.beq 0x7F) (flat []) = .next t) ∧ ∃ t, step (flat [(0x0000, 0xEA)]) = .next t :=
  ⟨⟨_, rfl, by decide⟩, ⟨_, rfl, rfl⟩, ⟨_, rfl⟩, ⟨_, rfl⟩⟩

theorem witness_NextProgramCounter : ∃ t, step { flat [(0xFFFF, 0xEA)] with PC := 0xFFFF } = .next t :=
  ⟨_, rfl⟩

/-- One instruction for each flag that changes it. -/
theorem witness_FlagWriters :
    (∃ t, exec (.ldaImm 0x80) (flat []) = .next t ∧ t.flags.N ≠ (flat []).flags.N) ∧
    (∃ t, exec (.ldaImm 0x00) (flat []) = .next t ∧ t.flags.Z ≠ (flat []).flags.Z) ∧
    (∃ t, exec (.adcImm 0x80) { flat [] with A := 0x80 } = .next t ∧ t.flags.V ≠ (flat []).flags.V) ∧
    (∃ t, exec .sed (flat []) = .next t ∧ t.flags.D ≠ (flat []).flags.D) ∧
    (∃ t, exec .cli (flat []) = .next t ∧ t.flags.I ≠ (flat []).flags.I) ∧
    (∃ t, exec .sec (flat []) = .next t ∧ t.flags.C ≠ (flat []).flags.C) :=
  ⟨⟨_, rfl, by decide⟩, ⟨_, rfl, by decide⟩, ⟨_, rfl, by decide⟩, ⟨_, rfl, by decide⟩,
    ⟨_, rfl, by decide⟩, ⟨_, rfl, by decide⟩⟩

/-- One instruction for each register that changes it; a shift of A among them. -/
theorem witness_RegisterWriters :
    (∃ t, exec (.ldaImm 0x80) (flat []) = .next t ∧ t.A ≠ (flat []).A) ∧
    (∃ t, exec .aslA { flat [] with A := 1 } = .next t ∧ t.A ≠ 1) ∧
    (∃ t, exec .dex (flat []) = .next t ∧ t.X ≠ (flat []).X) ∧
    (∃ t, exec .iny (flat []) = .next t ∧ t.Y ≠ (flat []).Y) ∧
    (∃ t, exec .pha (flat []) = .next t ∧ t.SP ≠ (flat []).SP) :=
  ⟨⟨_, rfl, by decide⟩, ⟨_, rfl, by decide⟩, ⟨_, rfl, by decide⟩, ⟨_, rfl, by decide⟩, ⟨_, rfl, by decide⟩⟩

/-- A store that changes memory; a push, with an address outside page 1; a store through the resolver. -/
theorem witness_MemoryWriters :
    (∃ t, exec (.incAbs 0xFFFF) (flat []) = .next t ∧ t.bus.mem ≠ (flat []).bus.mem) ∧
    ((flat []).bus.mem.wf = true ∧ (flat []).SP = 0xFD ∧
      (¬ (flat []).storeReaches (stackAddress 0xFD) 0x01FC ∧ (∃ t, exec .pha (flat []) = .next t) ∧
        ∃ t, exec .php (flat []) = .next t) ∧
      (¬ (flat []).storeReaches (stackAddress 0xFD) 0x01FB ∧
        ¬ (flat []).storeReaches (stackAddress (0xFD - 1)) 0x01FB ∧
        ∃ t, exec (.jsrAbs 0xFFFF) (flat []) = .next t) ∧
      (¬ (flat []).storeReaches (stackAddress 0xFD) 0x01FA ∧
        ¬ (flat []).storeReaches (stackAddress (0xFD - 1)) 0x01FA ∧
        ¬ (flat []).storeReaches (stackAddress (0xFD - 2)) 0x01FA ∧
        ∃ t, exec .brk (flat []) = .next t)) ∧
    (∃ t r s1 ea, exec (.staAbs 0xFFFF) (flat []) = .next t ∧
      resolve .absolute 0xFFFF (flat []) = .ok r s1 ∧ r.ea = some ea ∧ ¬ (flat []).storeReaches ea 0x0000) := by
  have no : ∀ ea a : Word, a ≠ ea → ¬ (flat []).storeReaches ea a :=
    fun ea a h g => h ((flat_reaches ea a).1 g)
  exact ⟨⟨_, rfl, by decide⟩,
    ⟨rfl, rfl, ⟨no _ _ (by decide), ⟨_, rfl⟩, ⟨_, rfl⟩⟩,
      ⟨no _ _ (by decide), no _ _ (by decide), ⟨_, rfl⟩⟩,
      ⟨no _ _ (by decide), no _ _ (by decide), no _ _ (by decide), ⟨_, rfl⟩⟩⟩,
    ⟨_, _, _, _, rfl, rfl, rfl, no _ _ (by decide)⟩⟩

theorem witness_StepKeepsInvariant : State.reset.Inv ∧ ∃ t, step State.reset = .next t :=
  ⟨⟨rfl, by decide⟩, ⟨_, rfl⟩⟩

theorem witness_SessionKeepsInvariant :
    State.reset.Inv ∧ chunksWf [⟨0x8000, 0x8000, .rom 0⟩] = true ∧ chunksWf [⟨0x8000, 0x8001, .rom 0⟩] = false :=
  ⟨⟨rfl, by decide⟩, by decide, by decide⟩

/-- The host's PC; the vector; its first, and its second byte unmapped. -/
theorem witness_ResetProcedure :
    (∃ s : State, s.params.entry = .host 0x8000) ∧
    ((flat []).params.entry = .vector ∧ ∃ l t h u, memRead 0xFFFC (flat []) = .ok l t ∧
      memRead 0xFFFD t = .ok h u) ∧
    ((narrow 0 1 []).params.entry = .vector ∧ ∃ e t, memRead 0xFFFC (narrow 0 1 []) = .err e t) ∧
    (∃ l t e u, memRead 0xFFFC (narrow 0xFFFC 1 []) = .ok l t ∧ memRead 0xFFFD t = .err e u) :=
  ⟨⟨{ State.reset with params := { Config.params with entry := .host 0x8000 } }, rfl⟩,
    ⟨rfl, _, _, _, _, rfl, rfl⟩, ⟨rfl, _, _, rfl⟩, ⟨_, _, _, _, rfl, rfl⟩⟩

/-- A masked IRQ; an entry; an entry that fails. -/
theorem witness_InterruptEntry :
    (flat []).bus.mem.wf = true ∧ (flat []).flags.I = true ∧
    (let s := { flat [] with flags := Flags.load 0x20 }
     s.flags.I = false ∧ ∃ t1 t2 t3 l t4 h t5,
      memWrite (stackAddress s.SP) (hi s.PC) s = .ok () t1 ∧
      memWrite (stackAddress (s.SP - 1)) (lo s.PC) t1 = .ok () t2 ∧
      memWrite (stackAddress (s.SP - 2)) ((s.flags.toByte &&& 0xEF) ||| 0x20) t2 = .ok () t3 ∧
      memRead 0xFFFE t3 = .ok l t4 ∧ memRead (0xFFFE + 1) t4 = .ok h t5) ∧
    (∃ e t, memWrite (stackAddress 0xFD) 0x00 (narrow 0 1 []) = .err e t) ∧
    ∃ e t, enterInterrupt .nmi (narrow 0 1 []) = .err e t :=
  ⟨rfl, rfl, ⟨rfl, _, _, _, _, _, _, _, rfl, rfl, rfl, rfl, rfl⟩, ⟨_, _, rfl⟩, ⟨_, _, rfl⟩⟩

/-- An IMPLICIT, an IMMEDIATE and an ABSOLUTE instruction; a state whose step fails. -/
theorem witness_TraceRecordOfAStep :
    (∃ s1 t, fetch (flat [(0, 0xEA)]) = .ok .nop s1 ∧ step (flat [(0, 0xEA)]) = .next t) ∧
    (∃ s1 t, fetch (flat [(0, 0xA9)]) = .ok (.ldaImm 0) s1 ∧ step (flat [(0, 0xA9)]) = .next t) ∧
    (∃ s1 t, fetch (flat [(0, 0xAD)]) = .ok (.ldaAbs 0) s1 ∧ step (flat [(0, 0xAD)]) = .next t ∧
      (Instr.ldaAbs 0).length ≠ 1 ∧ (Instr.ldaAbs 0).mode ≠ .immediate) ∧
    ∀ v, step (flat [(0, 0x02)]) ≠ .next v :=
  ⟨⟨_, _, rfl, rfl⟩, ⟨_, _, rfl, rfl⟩, ⟨_, _, rfl, rfl, by decide, by decide⟩, fun v h => by
    have e : stop (step (flat [(0, 0x02)])) = some (.unknownOpcode 0x02 0) := by decide
    rw [h] at e
    cases e⟩

theorem witness_StepKeepsConfiguration : ∃ t, step State.reset = .next t := ⟨_, rfl⟩

/-- A step over ROM: no chunk makes cell 5 writable. -/
theorem witness_RomNeverChanges :
    let s := on [⟨0x0000, 0x10000, .rom 0⟩] (flat [(0x0000, 0x08)])
    s.bus.mem.wf = true ∧ (∃ t, Reaches s t ∧ t ≠ s) ∧ ∀ a, s.ramCell a ≠ some 5 := by
  refine ⟨rfl, ⟨_, .tail (.refl _) rfl, by decide⟩, fun a h => ?_⟩
  have := a.isLt
  simp [State.ramCell, on, flat, locate, firstCovering, Chunk.covers, show a.toNat < 65536 from this] at h

theorem witness_OnlyTheErrorsOfTheSpec :
    (flat [(0, 0x02)]).fault = none ∧ ∃ e left, step (flat [(0, 0x02)]) = .fault (.raised e left) :=
  ⟨rfl, _, _, rfl⟩

theorem flat_mapped (a : Word) : (flat []).mapped a := by
  refine ⟨_, rfl, _, List.mem_cons_self, ?_⟩
  have := a.isLt
  simp [Chunk.covers, show a.toNat < 65536 from this]

/-- Every address mapped; with and without the refusal of decimal arithmetic. -/
theorem witness_EveryInstructionCompletes :
    (∀ a, (flat []).mapped a) ∧ ¬ (flat []).refusesDecimal ∧
    (∀ a, (refusing (flat [])).mapped a) ∧ (refusing (flat [])).refusesDecimal ∧
    Instr.nop.mnemonic ≠ .adc ∧ Instr.nop.mnemonic ≠ .sbc :=
  ⟨flat_mapped, fun h => (by cases h.1), flat_mapped, ⟨rfl, rfl⟩, by decide, by decide⟩

theorem witness_BreakFlagsAreInvisible :
    (∃ t, step (flat [(0, 0x08)]) = .next t) ∧ ∃ f, step (flat [(0, 0x02)]) = .fault f :=
  ⟨⟨_, rfl⟩, ⟨_, rfl⟩⟩

theorem witness_CycleCounterIsInvisible :
    (∃ t, step (flat [(0, 0xEA)]) = .next t) ∧ ∃ f, step (flat [(0, 0x02)]) = .fault f :=
  ⟨⟨_, rfl⟩, ⟨_, rfl⟩⟩

end Sys2Proof.Tests
end

section
/-! PROOF. The statements of the family 10_state.md: what no step reads (B1, B2, CYC), what each
instruction may write, the flags register as a byte, the update of Z and N, the configuration and the
reset state. -/

namespace Sys2Proof.Machine

/-! ## Steps of twin states (R36, R45) -/

/-- Twin parts of a step have twin outcomes: the same fault, or twin next states. -/
theorem Res.Twins.outcome_next {a b : Nat} {b1 b2 : Bool} {r r' : Res Unit} {t : State}
    (h : Res.Twins a b b1 b2 r r') (ht : r.outcome = .next t) :
    ∃ t', r'.outcome = .next t' ∧ Twin a b b1 b2 t t' := by
  rw [Res.outcome_eq_next] at ht
  subst ht
  cases r' with
  | ok _ t' => exact ⟨t', rfl, h.2⟩
  | err _ _ => exact h.elim

theorem Res.Twins.outcome_fault {a b : Nat} {b1 b2 : Bool} {r r' : Res Unit} {e : CoreError}
    {left : Bus} (h : Res.Twins a b b1 b2 r r') (hf : r.outcome = .fault (.raised e left)) :
    r'.outcome = .fault (.raised e left) := by
  obtain ⟨t, rfl, rfl⟩ := Res.outcome_eq_fault.1 hf
  cases r' with
  | ok _ _ => exact h.elim
  | err e' t' =>
    obtain ⟨rfl, htw⟩ := h
    rw [Res.outcome_err, htw.bus]

/-- The step of a running core is one sequence of parts: fetch, then the shape of what was fetched. -/
theorem step_of_running {s : State} (hr : s.Running) :
    step s = ((fetch s).andThen fun i t => (shapeOf i).run i t).outcome := by
  simp only [step, hr.1, hr.2, if_true]
  cases fetch s with
  | ok i t => exact exec_eq_run i t
  | err e t => rfl

theorem Twin.running {a b : Nat} {b1 b2 : Bool} {s s' : State} (h : Twin a b b1 b2 s s')
    (hr : s.Running) : s'.Running := by
  rw [h.1]
  exact hr

/-- The parts of a step run alike in twin states. -/
theorem fetch_run_twin {a b : Nat} {b1 b2 : Bool} {s s' : State} (h : Twin a b b1 b2 s s') :
    Res.Twins a b b1 b2 ((fetch s).andThen fun i t => (shapeOf i).run i t)
      ((fetch s').andThen fun i t => (shapeOf i).run i t) :=
  (fetch_twin h).andThen fun i _ _ h => shape_run_twin i h

theorem step_twin_next {a b : Nat} {b1 b2 : Bool} {s s' t : State} (h : Twin a b b1 b2 s s')
    (hs : step s = .next t) : ∃ t', step s' = .next t' ∧ Twin a b b1 b2 t t' := by
  obtain ⟨hr, -⟩ := step_eq_next hs
  rw [step_of_running hr] at hs
  rw [step_of_running (h.running hr)]
  exact (fetch_run_twin h).outcome_next hs

/-- A step that faults is of a running core, or of one stuck with that fault (R326). -/
theorem step_eq_fault {s : State} {e : CoreError} {left : Bus}
    (hs : step s = .fault (.raised e left)) :
    s.Running ∨ (s.resetMade = true ∧ s.fault = some e ∧ s.bus = left) := by
  unfold step at hs
  split at hs
  · rename_i hm
    split at hs
    · rename_i e' hf
      cases hs
      exact .inr ⟨hm, hf, rfl⟩
    · rename_i hf
      exact .inl ⟨hm, hf⟩
  · cases hs

theorem step_twin_fault {a b : Nat} {b1 b2 : Bool} {s s' : State} {f : Fault}
    (h : Twin a b b1 b2 s s') (hs : step s = .fault f) : step s' = .fault f := by
  obtain ⟨e, left⟩ := f
  rcases step_eq_fault hs with hr | ⟨hm, hf, rfl⟩
  · rw [step_of_running hr] at hs
    rw [step_of_running (h.running hr)]
    exact (fetch_run_twin h).outcome_fault hs
  · rw [h.1]
    simp only [step, hm, hf, if_true]

/-- A state is the twin, at the same CYC, of itself with other break flags. -/
theorem twin_withBreaks_iff {b1 b2 : Bool} {s s' : State} :
    Twin 0 0 b1 b2 s s' ↔ s' = s.withBreaks b1 b2 := by
  constructor
  · rintro ⟨h, hc⟩
    obtain hc : s'.CYC = s.CYC := hc
    rw [h, hc]
    rfl
  · rintro rfl
    exact ⟨rfl, rfl⟩

/-- A state is the twin of itself with another CYC. -/
theorem twin_withCYC (s : State) (n : Nat) :
    Twin s.CYC n s.flags.B1 s.flags.B2 s { s with CYC := n } :=
  ⟨rfl, Nat.add_comm _ _⟩

/-- A step advances CYC by a cost that does not depend on CYC: started at another count it ends at that
count plus the cost. -/
theorem step_withCYC {s t : State} (h : step s = .next t) (n : Nat) :
    ∃ c, step { s with CYC := n } = .next { t with CYC := c } ∧ c + s.CYC = t.CYC + n := by
  obtain ⟨t', ht', heq, hc⟩ := step_twin_next (twin_withCYC s n) h
  have hk := step_keeps h
  refine ⟨t'.CYC, ?_, hc⟩
  rw [ht', heq, ← hk.b1, ← hk.b2]

/-- Settles O59: the states with other break flags are twins, and a step keeps twins. -/
theorem breakFlagsAreInvisible : Obligations.BreakFlagsAreInvisible := by
  unfold Obligations.BreakFlagsAreInvisible
  intro s b1 b2
  have htw : Twin 0 0 b1 b2 s (s.withBreaks b1 b2) := twin_withBreaks_iff.2 rfl
  refine ⟨fun t ht => ?_, fun f hf => step_twin_fault htw hf⟩
  obtain ⟨t', ht', htw'⟩ := step_twin_next htw ht
  rw [ht', twin_withBreaks_iff.1 htw']

/-- Settles O60: the states with another CYC are twins. That the cost is a natural number, so that the
truncated subtraction is exact, is read off the twin that starts at 0. -/
theorem cycleCounterIsInvisible : Obligations.CycleCounterIsInvisible := by
  unfold Obligations.CycleCounterIsInvisible
  intro s n
  refine ⟨fun t ht => ?_, fun f hf => step_twin_fault (twin_withCYC s n) hf⟩
  obtain ⟨c, hn, hc⟩ := step_withCYC ht n
  obtain ⟨c₀, -, hc₀⟩ := step_withCYC ht 0
  have hcost : c = n + (t.CYC - s.CYC) := by omega
  rw [hn, hcost]

/-! ## What an instruction may write (R31 to R34, R43, R44) -/

/-- The registers and flags an instruction writes by a rule of its own: all but PC, CYC, B1 and B2. -/
inductive Written where
  | A | X | Y | SP | N | V | D | I | Z | C

/-- Two states agree in a register or flag. -/
def Written.Same (w : Written) (s t : State) : Prop :=
  match w with
  | .A => t.A = s.A
  | .X => t.X = s.X
  | .Y => t.Y = s.Y
  | .SP => t.SP = s.SP
  | .N => t.flags.N = s.flags.N
  | .V => t.flags.V = s.flags.V
  | .D => t.flags.D = s.flags.D
  | .I => t.flags.I = s.flags.I
  | .Z => t.flags.Z = s.flags.Z
  | .C => t.flags.C = s.flags.C

/-- The states agree in every register and flag outside a list. -/
def AgreeOutside (ws : List Written) (s t : State) : Prop := ∀ w, w ∉ ws → w.Same s t

/-- What a mnemonic writes in every mode it has. -/
def mnemonicWrites : Mnemonic → List Written
  | .lda | .txa | .tya | .and | .ora | .eor => [.A, .N, .Z]
  | .ldx | .tax | .tsx | .inx | .dex => [.X, .N, .Z]
  | .ldy | .tay | .iny | .dey => [.Y, .N, .Z]
  | .adc | .sbc => [.A, .N, .V, .Z, .C]
  | .inc | .dec => [.N, .Z]
  | .asl | .lsr | .rol | .ror | .cmp | .cpx | .cpy => [.N, .Z, .C]
  | .bit => [.N, .V, .Z]
  | .pla => [.A, .SP, .N, .Z]
  | .plp | .rti => [.SP, .N, .V, .D, .I, .Z, .C]
  | .brk => [.SP, .I]
  | .txs | .pha | .php | .jsr | .rts => [.SP]
  | .clc | .sec => [.C]
  | .cld | .sed => [.D]
  | .cli | .sei => [.I]
  | .clv => [.V]
  | .sta | .stx | .sty | .jmp | .nop
  | .bcc | .bcs | .beq | .bmi | .bne | .bpl | .bvc | .bvs => []

/-- What is written in a mode: A too in ACCUMULATOR mode (R163). -/
def writesIn (mode : Mode) (ws : List Written) : List Written :=
  if mode = .accumulator then .A :: ws else ws

theorem subset_writesIn (mode : Mode) (ws : List Written) : ws ⊆ writesIn mode ws := by
  unfold writesIn
  split
  · exact List.subset_cons_self _ _
  · exact List.Subset.refl _

theorem mem_writesIn {mode : Mode} {ws : List Written} {w : Written} (h : w ∈ writesIn mode ws) :
    w ∈ ws ∨ (w = .A ∧ mode = .accumulator) := by
  unfold writesIn at h
  split at h
  · rename_i hm
    rcases List.mem_cons.1 h with hA | hw
    · exact .inr ⟨hA, hm⟩
    · exact .inl hw
  · exact .inl h

/-! ### Agreement outside a list -/

section

variable {ws : List Written} {s t u : State}

theorem AgreeOutside.refl (s : State) : AgreeOutside ws s s := by
  intro w _
  cases w <;> rfl

theorem AgreeOutside.trans (h : AgreeOutside ws s t) (g : AgreeOutside ws t u) :
    AgreeOutside ws s u := by
  intro w hw
  have hst := h w hw
  have htu := g w hw
  cases w <;> exact Eq.trans htu hst

theorem AgreeOutside.mono {vs : List Written} (h : AgreeOutside ws s t) (hsub : ws ⊆ vs) :
    AgreeOutside vs s t :=
  fun w hw => h w fun hmem => hw (hsub hmem)

/-- A register or flag that changed stands in the list. -/
theorem AgreeOutside.mem {w : Written} (h : AgreeOutside ws s t) (hne : ¬ w.Same s t) : w ∈ ws :=
  Classical.byContradiction fun hw => hne (h w hw)

/-- A change of PC, CYC and the bus writes no register or flag of `Written`. -/
theorem AgreeOutside.of_frame (pc : Word) (c : Nat) (b : Bus) :
    AgreeOutside ws s { s with PC := pc, CYC := c, bus := b } := by
  intro w _
  cases w <;> rfl

theorem AgreeOutside.readOnly (h : ReadOnly s t) : AgreeOutside ws s t := by
  rw [h.state]
  exact .of_frame _ _ _

theorem AgreeOutside.memWrite {a : Word} {v : Byte} (h : memWrite a v s = .ok () t) :
    AgreeOutside ws s t := by
  rw [memWrite_state h]
  exact .of_frame _ _ _

theorem AgreeOutside.account (c : Nat) (s : State) : AgreeOutside ws s (s.account c) :=
  .of_frame _ _ _

/-- The ten registers and flags, one by one. -/
theorem agreeOutside_iff : AgreeOutside ws s t ↔
    (.A ∉ ws → t.A = s.A) ∧ (.X ∉ ws → t.X = s.X) ∧ (.Y ∉ ws → t.Y = s.Y) ∧
    (.SP ∉ ws → t.SP = s.SP) ∧ (.N ∉ ws → t.flags.N = s.flags.N) ∧
    (.V ∉ ws → t.flags.V = s.flags.V) ∧ (.D ∉ ws → t.flags.D = s.flags.D) ∧
    (.I ∉ ws → t.flags.I = s.flags.I) ∧ (.Z ∉ ws → t.flags.Z = s.flags.Z) ∧
    (.C ∉ ws → t.flags.C = s.flags.C) := by
  constructor
  · intro h
    exact ⟨h .A, h .X, h .Y, h .SP, h .N, h .V, h .D, h .I, h .Z, h .C⟩
  · rintro ⟨hA, hX, hY, hSP, hN, hV, hD, hI, hZ, hC⟩ w
    cases w <;> assumption

/-- A stack operation writes SP. -/
theorem AgreeOutside.stackFrame (h : StackFrame s t) : AgreeOutside [.SP] s t := by
  rw [StackFrame] at h
  rw [h]
  simp [agreeOutside_iff]

end

/-! ### The class shapes -/

/-- The parts of a shape write nothing outside a list. -/
def Shape.Within (ws : List Written) : Shape → Prop
  | .read chk f => (∀ u w, chk u = .ok () w → w = u) ∧ ∀ v u, AgreeOutside ws u (f v u)
  | .write _ => True
  | .rmw f => ∀ v u, AgreeOutside ws u (f v u).2
  | .jump f => ∀ ea u w, f ea u = .ok () w → AgreeOutside ws u w
  | .branch _ => True
  | .impl f => ∀ u, AgreeOutside ws u (f u)
  | .stack f => ∀ u w, f u = .ok () w → AgreeOutside ws u w

/-- An instruction writes what its shape does and, in ACCUMULATOR mode, A. -/
theorem Shape.Within.run {ws : List Written} {sh : Shape} {i : Instr} {s t : State}
    (hw : sh.Within ws) (h : sh.run i s = .ok () t) :
    AgreeOutside (writesIn i.mode ws) s t := by
  have hsub := subset_writesIn i.mode ws
  cases sh with
  | read chk f =>
    obtain ⟨r, s1, v, s2, -, hro, rfl⟩ := readClass_ok hw.1 h
    exact (((AgreeOutside.readOnly hro).trans (hw.2 v s2)).trans (.account _ _)).mono hsub
  | write reg =>
    obtain ⟨r, s1, ea, u, hr, -, hwr, rfl⟩ := writeClass_ok h
    exact ((AgreeOutside.readOnly (resolve_readOnly hr)).trans (.memWrite hwr)).trans (.account _ _)
  | rmw f =>
    rcases rmwClass_ok h with ⟨hm, rfl⟩ | ⟨-, r, s1, ea, v, s2, u, hr, -, hrd, hwr, rfl⟩
    · refine ((hw s.A s).mono hsub).trans ?_
      simp [agreeOutside_iff, writesIn, hm]
    · have hro := (resolve_readOnly hr).trans (memRead_readOnly hrd)
      exact ((((AgreeOutside.readOnly hro).trans (hw v s2)).trans (.memWrite hwr)).trans
        (.account _ _)).mono hsub
  | jump f =>
    obtain ⟨r, s1, ea, u, hr, -, hf, rfl⟩ := jumpClass_ok h
    exact (((AgreeOutside.readOnly (resolve_readOnly hr)).trans (hw ea s1 u hf)).trans
      (.account _ _)).mono hsub
  | branch cond =>
    obtain ⟨r, ea, -, -, rfl⟩ := branchClass_ok h
    refine AgreeOutside.trans ?_ (.account _ _)
    split
    · exact .of_frame _ _ _
    · exact .refl s
  | impl f =>
    cases h
    exact ((hw s).trans (.account _ _)).mono hsub
  | stack f =>
    obtain ⟨u, hf, rfl⟩ := stackClass_ok h
    exact ((hw s u hf).trans (.account _ _)).mono hsub

/-! ### The effects -/

theorem jsrEffect_agree {ea : Word} {s t : State} (h : jsrEffect ea s = .ok () t) :
    AgreeOutside [.SP] s t := by
  obtain ⟨_, u, hu, h⟩ := Res.andThen_eq_ok.1 h
  cases h
  exact (AgreeOutside.stackFrame (pushWord_frame hu)).trans (.of_frame _ _ _)

theorem rtsEffect_agree {s t : State} (h : rtsEffect s = .ok () t) : AgreeOutside [.SP] s t := by
  obtain ⟨_, u, hu, h⟩ := Res.andThen_eq_ok.1 h
  cases h
  exact (AgreeOutside.stackFrame (pullWord_frame hu)).trans (.of_frame _ _ _)

theorem plaEffect_agree {s t : State} (h : plaEffect s = .ok () t) :
    AgreeOutside [.A, .SP, .N, .Z] s t := by
  obtain ⟨v, u, hu, h⟩ := Res.andThen_eq_ok.1 h
  cases h
  refine ((AgreeOutside.stackFrame (pull_frame hu)).mono (by simp)).trans ?_
  simp [agreeOutside_iff]

theorem plpEffect_agree {s t : State} (h : plpEffect s = .ok () t) :
    AgreeOutside [.SP, .N, .V, .D, .I, .Z, .C] s t := by
  obtain ⟨v, u, hu, h⟩ := Res.andThen_eq_ok.1 h
  cases h
  refine ((AgreeOutside.stackFrame (pull_frame hu)).mono (by simp)).trans ?_
  simp [agreeOutside_iff]

theorem brkEffect_agree {s t : State} (h : brkEffect s = .ok () t) : AgreeOutside [.SP, .I] s t := by
  rw [enterTrap_frame h]
  simp [agreeOutside_iff]

theorem rtiEffect_agree {s t : State} (h : rtiEffect s = .ok () t) :
    AgreeOutside [.SP, .N, .V, .D, .I, .Z, .C] s t := by
  obtain ⟨b, ht⟩ := returnFromTrap_frame h
  rw [ht]
  simp [agreeOutside_iff]

/-- The shape of an instruction writes what `mnemonicWrites` lists for its mnemonic. -/
theorem shapeOf_within (i : Instr) : (shapeOf i).Within (mnemonicWrites i.mnemonic) := by
  unfold shapeOf
  cases i.mnemonic
  case sta | stx | sty | bcc | bcs | beq | bmi | bne | bpl | bvc | bvs => exact trivial
  case cmp | cpx | cpy | bit =>
    refine ⟨unchecked_ok, fun v u => ?_⟩
    simp [agreeOutside_iff, mnemonicWrites, cmpEffect, cpxEffect, cpyEffect, bitEffect, Flags.compare,
      Flags.bitTest]
  case lda | ldx | ldy | and | ora | eor =>
    refine ⟨unchecked_ok, fun v u => ?_⟩
    simp [agreeOutside_iff, mnemonicWrites, ldaEffect, ldxEffect, ldyEffect, andEffect, oraEffect,
      eorEffect]
  case adc | sbc =>
    refine ⟨decimalCheck_ok _ _, fun v u => ?_⟩
    simp [agreeOutside_iff, mnemonicWrites, adcEffect, sbcEffect]
  case inc | dec | asl | lsr | rol | ror =>
    intro v u
    simp [agreeOutside_iff, mnemonicWrites, incEffect, decEffect, aslEffect, lsrEffect, rolEffect,
      rorEffect, shiftFlags]
  case tax | tay | txa | tya | tsx | txs | inx | iny | dex | dey =>
    intro u
    simp [agreeOutside_iff, mnemonicWrites, taxEffect, tayEffect, txaEffect, tyaEffect, tsxEffect,
      txsEffect, inxEffect, inyEffect, dexEffect, deyEffect]
  case clc | cld | cli | clv | sec | sed | sei | nop =>
    intro u
    simp [agreeOutside_iff, mnemonicWrites, clcEffect, cldEffect, cliEffect, clvEffect, secEffect,
      sedEffect, seiEffect, nopEffect]
  case pha | php => exact fun u w h => .stackFrame (push_frame h)
  case jsr => exact fun ea u w h => jsrEffect_agree h
  case rts => exact fun u w h => rtsEffect_agree h
  case pla => exact fun u w h => plaEffect_agree h
  case plp => exact fun u w h => plpEffect_agree h
  case brk => exact fun u w h => brkEffect_agree h
  case rti => exact fun u w h => rtiEffect_agree h
  case jmp =>
    intro ea u w h
    cases h
    exact .of_frame _ _ _

/-- An instruction that completes has written only what is listed for it. -/
theorem exec_agreeOutside {i : Instr} {s t : State} (h : exec i s = .next t) :
    AgreeOutside (writesIn i.mode (mnemonicWrites i.mnemonic)) s t :=
  (shapeOf_within i).run (exec_eq_next h)

/-! ### The lists of the spec -/

/-- R163: the ACCUMULATOR forms are those of the shifts. -/
theorem shift_of_accumulator {i : Instr} (h : i.mode = .accumulator) :
    i.mnemonic ∈ [.asl, .lsr, .rol, .ror] := by
  cases i <;> simp_all [Instr.mode, Instr.mnemonic, Instr.row]

/-- R31 to R34: the mnemonics that list a register. -/
theorem register_writers (m : Mnemonic) :
    (.A ∈ mnemonicWrites m → m ∈ [.lda, .pla, .txa, .tya, .adc, .sbc, .and, .ora, .eor]) ∧
    (.X ∈ mnemonicWrites m → m ∈ [.ldx, .tax, .tsx, .inx, .dex]) ∧
    (.Y ∈ mnemonicWrites m → m ∈ [.ldy, .tay, .iny, .dey]) ∧
    (.SP ∈ mnemonicWrites m → m ∈ [.txs, .pha, .php, .pla, .plp, .jsr, .rts, .brk, .rti]) := by
  cases m <;> simp [mnemonicWrites]

/-- R44: the mnemonics that list a flag. -/
theorem flag_writers (m : Mnemonic) :
    (.N ∈ mnemonicWrites m ∨ .Z ∈ mnemonicWrites m → m ∈
      [.adc, .sbc, .and, .ora, .eor, .lda, .ldx, .ldy, .tax, .tay, .txa, .tya, .tsx, .pla, .inc, .dec,
        .inx, .iny, .dex, .dey, .asl, .lsr, .rol, .ror, .cmp, .cpx, .cpy, .bit, .plp, .rti]) ∧
    (.V ∈ mnemonicWrites m → m ∈ [.adc, .sbc, .bit, .clv, .plp, .rti]) ∧
    (.D ∈ mnemonicWrites m → m ∈ [.sed, .cld, .plp, .rti]) ∧
    (.I ∈ mnemonicWrites m → m ∈ [.sei, .cli, .plp, .rti, .brk]) ∧
    (.C ∈ mnemonicWrites m → m ∈
      [.adc, .sbc, .asl, .lsr, .rol, .ror, .cmp, .cpx, .cpy, .clc, .sec, .plp, .rti]) := by
  cases m <;> simp [mnemonicWrites]

/-- A register or flag that changed is one the mnemonic writes, or A in ACCUMULATOR mode. -/
theorem exec_changed {i : Instr} {s t : State} (h : exec i s = .next t) (w : Written)
    (hne : ¬ w.Same s t) :
    w ∈ mnemonicWrites i.mnemonic ∨ (w = .A ∧ i.mode = .accumulator) :=
  mem_writesIn ((exec_agreeOutside h).mem hne)

/-- A changed register or flag other than A is one the mnemonic writes. -/
theorem exec_changed_of_ne_A {i : Instr} {s t : State} (h : exec i s = .next t) {w : Written}
    (hA : w ≠ .A) (hne : ¬ w.Same s t) : w ∈ mnemonicWrites i.mnemonic :=
  (exec_changed h w hne).resolve_right fun hw => hA hw.1

/-- Settles O46: what changed is written by the mnemonic, and B1 and B2 are kept by every part of a
step. -/
theorem flagWriters : Obligations.FlagWriters := by
  unfold Obligations.FlagWriters
  intro i s t h
  obtain ⟨hNZ, hV, hD, hI, hC⟩ := flag_writers i.mnemonic
  have hk := exec_keeps h
  have changed {w : Written} (hA : w ≠ .A) := exec_changed_of_ne_A h hA
  exact ⟨fun hne => hNZ (hne.imp (changed (w := .N) nofun) (changed (w := .Z) nofun)),
    fun hne => hV (changed (w := .V) nofun hne), ⟨hk.b1, hk.b2⟩,
    fun hne => hD (changed (w := .D) nofun hne), fun hne => hI (changed (w := .I) nofun hne),
    fun hne => hC (changed (w := .C) nofun hne)⟩

/-- Settles O47: A is written by the mnemonics of R31 and by the shifts in ACCUMULATOR mode. -/
theorem registerWriters : Obligations.RegisterWriters := by
  unfold Obligations.RegisterWriters
  intro i s t h
  obtain ⟨hA, hX, hY, hSP⟩ := register_writers i.mnemonic
  have changed {w : Written} (hA : w ≠ .A) := exec_changed_of_ne_A h hA
  refine ⟨fun hne => ?_, fun hne => hX (changed (w := .X) nofun hne),
    fun hne => hY (changed (w := .Y) nofun hne), fun hne => hSP (changed (w := .SP) nofun hne)⟩
  rcases exec_changed h .A hne with hw | ⟨-, hm⟩
  · exact .inl (hA hw)
  · exact .inr ⟨shift_of_accumulator hm, hm⟩

/-! ## The update of Z and N (R41, R42) -/

theorem Flags.setZN_exact (r : Byte) (f : Flags) :
    f.setZN .exact r = { f with Z := decide (r = 0), N := decide (128 ≤ r.toNat) } := by
  rw [← getLsbD_seven]
  rfl

/-- A flag that is set where a condition holds and else keeps its value. -/
theorem or_decide_eq_ite (old : Bool) (p : Prop) [Decidable p] :
    (old || decide p) = if p then true else old := by
  by_cases hp : p
  · rw [if_pos hp, decide_eq_true hp, Bool.or_true]
  · rw [if_neg hp, decide_eq_false hp, Bool.or_false]

theorem Flags.updateZeroAndNegative_eq (r : Byte) (f : Flags) :
    f.updateZeroAndNegative r =
      { f with Z := if r = 0 then true else f.Z, N := if 128 ≤ r.toNat then true else f.N } := by
  have hZ : (f.Z || r == 0) = if r = 0 then true else f.Z := or_decide_eq_ite f.Z (r = 0)
  have hN : (f.N || r.getLsbD 7) = if 128 ≤ r.toNat then true else f.N := by
    rw [getLsbD_seven, or_decide_eq_ite]
  rw [Flags.updateZeroAndNegative, hZ, hN]

/-! ## The compares and BIT do not look at the policy (R220, R224) -/

/-- The state under another `P_ZN_POLICY`. -/
def State.withPolicy (policy : ZnPolicy) (s : State) : State :=
  { s with params := { s.params with znPolicy := policy } }

/-- A part of a step with the state it ends in changed. -/
def Res.mapState {α : Type} (g : State → State) : Res α → Res α
  | .ok a s => .ok a (g s)
  | .err e s => .err e (g s)

section

variable {policy : ZnPolicy}

/-- A sequence of parts that each ignore a change of the state ignores it. -/
theorem Res.andThen_mapState {α β : Type} {g : State → State} {r r' : Res α}
    {f f' : α → State → Res β} (hr : r' = r.mapState g) (hf : ∀ a s, f' a (g s) = (f a s).mapState g) :
    r'.andThen f' = (r.andThen f).mapState g := by
  subst hr
  cases r with
  | ok a s => exact hf a s
  | err e s => rfl

theorem memRead_withPolicy (a : Word) (s : State) :
    memRead a (s.withPolicy policy) = (memRead a s).mapState (State.withPolicy policy) := by
  have hb : (s.withPolicy policy).bus = s.bus := rfl
  unfold memRead
  rw [hb]
  cases s.bus.read a <;> rfl

theorem readPair_withPolicy (al ah : Word) (s : State) :
    readPair al ah (s.withPolicy policy) = (readPair al ah s).mapState (State.withPolicy policy) :=
  Res.andThen_mapState (memRead_withPolicy al s) fun _ t =>
    Res.andThen_mapState (memRead_withPolicy ah t) fun _ _ => rfl

theorem read16PageWrap_withPolicy (p : Word) (s : State) :
    read16PageWrap p (s.withPolicy policy) =
      (read16PageWrap p s).mapState (State.withPolicy policy) := by
  have hw : (s.withPolicy policy).params.jmpIndWrap = s.params.jmpIndWrap := rfl
  unfold read16PageWrap
  rw [hw]
  cases s.params.jmpIndWrap with
  | pageWrap => exact readPair_withPolicy _ _ s
  | linear => exact readPair_withPolicy _ _ s

theorem resolve_withPolicy (m : Mode) (p : Word) (s : State) :
    resolve m p (s.withPolicy policy) = (resolve m p s).mapState (State.withPolicy policy) := by
  cases m
  case indirect => exact Res.andThen_mapState (read16PageWrap_withPolicy p s) fun _ _ => rfl
  case indexedIndirectX | indexedIndirectY =>
    exact Res.andThen_mapState (readPair_withPolicy _ _ s) fun _ _ => rfl
  all_goals rfl

theorem needEA_withPolicy (m : Mode) (r : Resolved) (s : State) :
    needEA m r (s.withPolicy policy) = (needEA m r s).mapState (State.withPolicy policy) := by
  unfold needEA
  cases r.ea <;> rfl

theorem operandValue_withPolicy (m : Mode) (p : Word) (r : Resolved) (s : State) :
    operandValue m p r (s.withPolicy policy) =
      (operandValue m p r s).mapState (State.withPolicy policy) := by
  unfold operandValue
  split
  · rfl
  · exact Res.andThen_mapState (needEA_withPolicy _ r s) fun ea t => memRead_withPolicy ea t

/-- A READ-class instruction ignores the policy if its effect does. -/
theorem readClass_withPolicy {m : Mode} {p : Word} {c : Nat} {pen : Bool} {f : Byte → State → State}
    (hf : ∀ v s, f v (s.withPolicy policy) = (f v s).withPolicy policy) (s : State) :
    readClass m p c pen unchecked f (s.withPolicy policy) =
      (readClass m p c pen unchecked f s).mapState (State.withPolicy policy) :=
  Res.andThen_mapState (resolve_withPolicy m p s) fun r t =>
    Res.andThen_mapState rfl fun _ u =>
      Res.andThen_mapState (operandValue_withPolicy m p r u) fun v w => by rw [hf]; rfl

end

/-- CMP, CPX, CPY and BIT have an unchecked READ shape whose effect ignores the policy. -/
theorem shapeOf_compare {i : Instr} (h : i.mnemonic ∈ [.cmp, .cpx, .cpy, .bit]) :
    ∃ f, shapeOf i = .read unchecked f ∧
      ∀ policy v s, f v (State.withPolicy policy s) = (f v s).withPolicy policy := by
  simp only [List.mem_cons, List.not_mem_nil, or_false] at h
  unfold shapeOf
  rcases h with h | h | h | h <;> rw [h] <;> exact ⟨_, rfl, fun _ _ _ => rfl⟩

theorem exec_compare_withPolicy {i : Instr} {s t : State} (policy : ZnPolicy)
    (hi : i.mnemonic ∈ [.cmp, .cpx, .cpy, .bit]) (h : exec i s = .next t) :
    exec i (s.withPolicy policy) = .next (t.withPolicy policy) := by
  obtain ⟨f, hs, hf⟩ := shapeOf_compare hi
  have hrun := exec_eq_next h
  rw [hs, Shape.run] at hrun
  rw [exec_eq_run, hs, Shape.run, readClass_withPolicy (hf policy), hrun]
  rfl

/-- Settles O17: both policies as equations; the four READ-class tests of R220 and R224 run alike under
either. -/
theorem zeroNegativeUpdate : Obligations.ZeroNegativeUpdate := by
  unfold Obligations.ZeroNegativeUpdate
  exact ⟨fun r f => ⟨Flags.setZN_exact r f, rfl, Flags.updateZeroAndNegative_eq r f,
    fun _ => ⟨rfl, rfl⟩⟩, fun _ _ _ policy hi h => exec_compare_withPolicy policy hi h⟩

/-! ## The flags register as a byte (R38 to R40, R46, R47) -/

/-- `load` loses no bit of the byte (R40). -/
theorem Flags.load_injective : Function.Injective Flags.load := by
  intro b c h
  simp only [Flags.load, Flags.mk.injEq] at h
  obtain ⟨h7, h6, h5, h4, h3, h2, h1, h0⟩ := h
  refine BitVec.eq_of_getLsbD_eq fun i hi => ?_
  obtain rfl | rfl | rfl | rfl | rfl | rfl | rfl | rfl :
      i = 0 ∨ i = 1 ∨ i = 2 ∨ i = 3 ∨ i = 4 ∨ i = 5 ∨ i = 6 ∨ i = 7 := by omega
  all_goals assumption

theorem Flags.toByte_load (b : Byte) : (Flags.load b).toByte = b :=
  Flags.load_injective (Flags.load_toByte (Flags.load b))

theorem toNat_append_ofBool {w : Nat} (x : BitVec w) (b : Bool) :
    (x ++ BitVec.ofBool b).toNat = 2 * x.toNat + b.toNat := by
  rw [BitVec.toNat_append, ← Nat.shiftLeft_add_eq_or_of_lt (BitVec.isLt _), Nat.shiftLeft_eq,
    BitVec.toNat_ofBool, Nat.mul_comm, Nat.pow_one]

theorem Flags.toByte_toNat (f : Flags) :
    f.toByte.toNat = 128 * f.N.toNat + 64 * f.V.toNat + 32 * f.B1.toNat + 16 * f.B2.toNat +
      8 * f.D.toNat + 4 * f.I.toNat + 2 * f.Z.toNat + f.C.toNat := by
  simp only [Flags.toByte, toNat_append_ofBool, BitVec.toNat_ofBool]
  omega

/-- Settles O16: `load` is injective, so that it and `toByte` undo each other. -/
theorem flagsPackAndLoad : Obligations.FlagsPackAndLoad := by
  unfold Obligations.FlagsPackAndLoad
  exact ⟨fun b => ⟨Flags.toByte_load b, rfl, rfl, rfl, rfl, rfl, rfl, rfl, rfl⟩,
    fun f => ⟨Flags.load_toByte f, Flags.toByte_toNat f⟩⟩

/-- A bit-field read is the shift and mask of R46 as numbers. -/
theorem BitField.read_eq_div_mod (raw : Byte) (f : BitField) :
    BitField.read raw f = raw.toNat / 2 ^ f.start % 2 ^ f.width := by
  rw [BitField.read, Nat.shiftRight_eq_div_pow, Nat.one_shiftLeft, Nat.and_two_pow_sub_one_eq_mod]

/-- A field of width 1 is the bit at its start. -/
theorem BitField.read_bit (raw : Byte) (k : Nat) :
    BitField.read raw { start := k } = (raw.getLsbD k).toNat :=
  (BitField.read_eq_div_mod raw _).trans (Nat.toNat_testBit raw.toNat k).symm

/-- The fields of the flags register are the flags `load` stores. -/
theorem flagFields_read (raw : Byte) :
    flagFields.map (BitField.read raw) =
      [(Flags.load raw).N.toNat, (Flags.load raw).V.toNat, (Flags.load raw).B1.toNat,
        (Flags.load raw).B2.toNat, (Flags.load raw).D.toNat, (Flags.load raw).I.toNat,
        (Flags.load raw).Z.toNat, (Flags.load raw).C.toNat] := by
  simp only [flagFields, List.map_cons, List.map_nil, BitField.read_bit, Flags.load]

/-- Settles O18: a field is a quotient and a remainder, and the flag fields of `toByte` are the flags
`load` gets back from it. -/
theorem bitFieldReads : Obligations.BitFieldReads := by
  unfold Obligations.BitFieldReads
  refine ⟨fun raw f => ⟨BitField.read_eq_div_mod raw f, ?_⟩, by decide, fun f => ?_⟩
  · rw [BitField.read_eq_div_mod]
    exact Nat.mod_lt _ (Nat.two_pow_pos _)
  · rw [flagFields_read, Flags.load_toByte]

/-! ## Reset and configuration (R52, R55, R351) -/

/-- Settles O51 by evaluation: the reset procedure of R351 reads two unlisted cells of the ROM chunk for
its vector. -/
theorem resetState : Obligations.ResetState := by
  unfold Obligations.ResetState
  exact ⟨⟨rfl, by decide⟩, ⟨rfl, rfl⟩, ⟨rfl, rfl, rfl, rfl, rfl, rfl, rfl⟩, rfl⟩

/-- Settles O55: a step that completes is of a running core and keeps what every part of a step keeps. -/
theorem stepKeepsConfiguration : Obligations.StepKeepsConfiguration := by
  unfold Obligations.StepKeepsConfiguration
  intro s t h
  obtain ⟨⟨hreset, hfault⟩, -⟩ := step_eq_next h
  have hk := step_keeps h
  have hrun : t.Running := ⟨hk.resetMade.trans hreset, hk.fault.trans hfault⟩
  exact ⟨hrun, hk.chunks, hk.params, hk.free, hk.b1, hk.b2, hk.io⟩

end Sys2Proof.Machine
end

section
/-! PROOF. The statements of the family 20_memory.md: the invariant of the bus under steps and host
operations, ROM along a run, routing, RAM, ROM and device accesses, the word reads, and the stack. -/

namespace Sys2Proof.Machine

/-! ## The invariant (R81, R87) -/

/-- The invariant speaks of the bus alone. -/
theorem State.Inv.of_bus_eq {s t : State} (hi : s.Inv) (hb : t.bus = s.bus) : t.Inv := by
  simpa only [State.Inv, State.chunksValid, hb] using hi

/-- What every part of a step keeps includes the invariant. -/
theorem Keeps.inv {s t : State} (h : Keeps s t) (hi : s.Inv) : t.Inv := by
  obtain ⟨hwf, hvalid⟩ := hi
  refine ⟨h.wf hwf, ?_⟩
  rw [State.chunksValid, h.chunks]
  exact hvalid

theorem Res.KeepsFrom.keeps_of_ok {α : Type} {s t : State} {r : Res α} {a : α}
    (h : r.KeepsFrom s) (hr : r = .ok a t) : Keeps s t := by
  subst hr
  exact h

/-- A host procedure that keeps what a step keeps leaves the invariant, its error recorded or not. -/
theorem Res.KeepsFrom.settle_inv {s : State} {r : Res Unit} (h : r.KeepsFrom s) (hi : s.Inv) :
    r.settle.Inv := by
  cases r with
  | ok _ t => exact Keeps.inv h hi
  | err e t => exact (Keeps.inv h hi).of_bus_eq (State.recordError_bus e t.bus t)

/-- What the bus left by a step that faults keeps (R327). -/
theorem step_fault_keeps {s : State} {e : CoreError} {left : Bus}
    (h : step s = .fault (.raised e left)) : ∃ t, Keeps s t ∧ t.bus = left := by
  rcases step_eq_fault h with hrun | ⟨-, -, hleft⟩
  · rw [step_of_running hrun] at h
    obtain ⟨t, ht, hleft⟩ := Res.outcome_eq_fault.1 h
    have hk := (fetch_keeps s).andThen fun i u => shape_run_keeps i u
    rw [ht] at hk
    exact ⟨t, hk, hleft⟩
  · exact ⟨s, Keeps.refl s, hleft⟩

/-- Settles O49: the invariant is among what every part of a step keeps. -/
theorem stepKeepsInvariant : Obligations.StepKeepsInvariant := by
  unfold Obligations.StepKeepsInvariant
  exact fun s t hi h => (step_keeps h).inv hi

/-! ## The host operations (R82, R350) -/

theorem defineChunks_of_wf {cs : List Chunk} (h : chunksWf cs = true) (s : State) :
    defineChunks cs s = some { s with bus := { s.bus with chunks := some cs } } := if_pos h

theorem defineChunks_of_not_wf {cs : List Chunk} (h : chunksWf cs = false) (s : State) :
    defineChunks cs s = none := by
  rw [defineChunks, h]
  rfl

/-- A refused chunk list changes nothing (R82). -/
theorem hostOp_defineChunks_of_not_wf {cs : List Chunk} (h : chunksWf cs = false) (s : State) :
    hostOp (.defineChunks cs) s = s := by
  rw [hostOp, defineChunks_of_not_wf h]
  rfl

theorem hostOp_defineChunks_inv (cs : List Chunk) {s : State} (hi : s.Inv) :
    (hostOp (.defineChunks cs) s).Inv := by
  cases hcs : chunksWf cs with
  | true =>
    rw [hostOp, defineChunks_of_wf hcs]
    obtain ⟨hwf, -⟩ := hi
    exact ⟨hwf, hcs⟩
  | false =>
    rw [hostOp_defineChunks_of_not_wf hcs]
    exact hi

/-- The host writes registers and flags only (R53). -/
theorem hostWrite_bus (w : HostWrite) (s : State) : (hostWrite w s).bus = s.bus := by
  cases w <;> rfl

theorem sessionStep_inv {s : State} (hi : s.Inv) : (sessionStep s).Inv := by
  unfold sessionStep
  split
  case h_1 t h => exact (step_keeps h).inv hi
  case h_2 e left h =>
    split
    · exact hi
    · obtain ⟨t, hk, hleft⟩ := step_fault_keeps h
      exact (hk.inv hi).of_bus_eq hleft.symm
  case h_3 => exact hi

/-- Every host operation keeps the invariant. -/
theorem hostOp_inv (o : HostOp) {s : State} (hi : s.Inv) : (hostOp o s).Inv := by
  cases o with
  | defineChunks cs => exact hostOp_defineChunks_inv cs hi
  | reset => exact (powerOnReset_keeps s).settle_inv (hi.of_bus_eq rfl)
  | write w => exact hi.of_bus_eq (hostWrite_bus w s)
  | interrupt k => exact (enterInterrupt_keeps k s).settle_inv hi
  | busRead a =>
    rw [hostOp]
    split
    case h_1 t h => exact ((memRead_keeps a s).keeps_of_ok h).inv hi
    case h_2 => exact hi
  | busWrite a v =>
    rw [hostOp]
    split
    case h_1 t h => exact (memWrite_ok_keeps h).inv hi
    case h_2 => exact hi
  | deviceEvent d n => exact hi
  | step => exact sessionStep_inv hi

/-- Settles O50: each operation is a part of a step, a write of registers, or a chunk list that is
checked. -/
theorem sessionKeepsInvariant : Obligations.SessionKeepsInvariant := by
  unfold Obligations.SessionKeepsInvariant
  exact ⟨fun o _ hi => hostOp_inv o hi,
    fun _ s => ⟨fun h => defineChunks_of_wf h s,
      fun h => ⟨defineChunks_of_not_wf h s, hostOp_defineChunks_of_not_wf h s⟩⟩,
    fun _ => ⟨rfl, rfl⟩⟩

/-! ## ROM along a run (R85, D24) -/

/-- A run keeps what every step keeps. -/
theorem Reaches.keeps {s t : State} (h : Reaches s t) : Keeps s t := by
  induction h with
  | refl => exact Keeps.refl _
  | tail _ hstep ih => exact ih.trans (step_keeps hstep)

/-- Settles O56, by induction on the run. -/
theorem romNeverChanges : Obligations.RomNeverChanges := by
  unfold Obligations.RomNeverChanges
  exact fun s t hwf h k hk => h.keeps.rom hwf k hk

/-! ## Routing (R83) -/

theorem Chunk.covers_eq_false {c : Chunk} {a : Word}
    (h : ¬ (c.start.toNat ≤ a.toNat ∧ a.toNat < c.start.toNat + c.size)) :
    Chunk.covers c a = false := decide_eq_false h

theorem locate_of_firstCovering {cs : List Chunk} {a : Word} {hit : ChunkKind × Nat}
    (h : firstCovering cs a = some hit) (k : AccessKind) : locate (some cs) a k = .ok hit := by
  simp only [locate, h]

theorem locate_unmapped {cs : List Chunk} {a : Word} (h : firstCovering cs a = none)
    (k : AccessKind) : locate (some cs) a k = .error (.unmappedAddress a k) := by
  simp only [locate, h]

/-- Settles O10: the scan stops at the first chunk that covers the address. -/
theorem routingIsFirstMatch : Obligations.RoutingIsFirstMatch := by
  unfold Obligations.RoutingIsFirstMatch
  refine ⟨fun _ _ => rfl, fun before after c a k hbefore hlo hhi => ?_, fun cs a k hcs => ?_⟩
  · exact locate_of_firstCovering
      (firstCovering_append (fun d hd => Chunk.covers_eq_false (hbefore d hd))
        (decide_eq_true ⟨hlo, hhi⟩)) k
  · exact locate_unmapped (firstCovering_none fun d hd => Chunk.covers_eq_false (hcs d hd)) k

/-! ## RAM and ROM (R84, R85, R87) -/

section

variable {s : State} {a : Word} {base off : Nat}

theorem ramCell_of_locate_ram (h : locate s.bus.chunks a .write = .ok (.ram base, off)) :
    s.ramCell a = some (base + off) := by
  simp only [State.ramCell, h]

theorem cellOf_of_locate_rom (h : locate s.bus.chunks a .read = .ok (.rom base, off)) :
    s.cellOf a = some (base + off) := by
  simp only [State.cellOf, h]

theorem memWrite_of_locate_rom (v : Byte) (h : locate s.bus.chunks a .write = .ok (.rom base, off)) :
    memWrite a v s = .ok () s := by
  simp only [memWrite, Bus.write, h]

end

/-- A store to a RAM cell reaches the addresses that answer from that cell. -/
theorem State.storeReaches_iff {s : State} {ea : Word} {k : Nat} (h : s.ramCell ea = some k)
    (a : Word) : s.storeReaches ea a ↔ s.cellOf a = some k := by
  simp only [State.storeReaches, h, Option.some.injEq, exists_eq_left']

/-- Settles O11: a store to RAM reaches the addresses of its cell, the written one among them. -/
theorem ramStoresRomIgnores : Obligations.RamStoresRomIgnores := by
  unfold Obligations.RamStoresRomIgnores
  refine fun s a v hwf => ⟨fun base off hram => ?_, fun base off hrom => ?_⟩
  · have hcell := ramCell_of_locate_ram hram
    have hreach := State.storeReaches_iff hcell
    have hwrite := memWrite_of_ramCell v hcell
    have hself := (hreach a).2 (State.cellOf_of_ramCell hcell)
    exact ⟨_, hwrite, memRead_of_byteAt (memWrite_byteAt_of_reached hwf hwrite hself), rfl,
      fun b hb => memWrite_byteAt_of_not_reached hwf hwrite (mt (hreach b).1 hb),
      fun b hb => memWrite_byteAt_of_reached hwf hwrite ((hreach b).2 hb)⟩
  · exact ⟨memWrite_of_locate_rom v hrom,
      memRead_of_cellOf (cellOf_of_locate_rom (locate_ok_kind hrom))⟩

/-! ## Devices (R87, R203, R205) -/

/-- The state after a device chunk has seen one more event. -/
def State.seen (ev : IoEvent) (s : State) : State :=
  { s with bus := { s.bus with io := ev :: s.bus.io } }

section

variable {s : State} {a : Word} {id off : Nat}

/-- A read of a device chunk is one event, answered from the history before it. -/
theorem memRead_of_locate_device (h : locate s.bus.chunks a .read = .ok (.device id, off)) :
    memRead a s = .ok (Config.deviceRead id off s.bus.io) (s.seen (.read id off)) := by
  simp only [memRead, Bus.read, h, State.seen]

/-- A write of a device chunk is one event. -/
theorem memWrite_of_locate_device (v : Byte)
    (h : locate s.bus.chunks a .write = .ok (.device id, off)) :
    memWrite a v s = .ok () (s.seen (.write id off v)) := by
  simp only [memWrite, Bus.write, h, State.seen]

end

/-- ABSOLUTE mode reads its operand at the parameter (R166). -/
theorem readOperand_absolute {p : Word} {s t : State} {v : Byte} (h : memRead p s = .ok v t) :
    readOperand .absolute p s = .ok (.at p, v) t := by
  have hop : operandValue .absolute p (.at p) s = memRead p s := rfl
  simp only [readOperand, resolve, Res.andThen_ok, hop, h]

/-- Settles O12: each form in ABSOLUTE mode makes the accesses of its class and no other. -/
theorem deviceSeesEachAccessOnce : Obligations.DeviceSeesEachAccessOnce := by
  unfold Obligations.DeviceSeesEachAccessOnce
  intro s p id off hdev v
  have hread := memRead_of_locate_device hdev
  have hresolve : resolve .absolute p s = .ok (.at p) s := rfl
  refine ⟨?_, ?_, ?_⟩
  · have hexec : exec (.ldaAbs p) s = (readClass .absolute p 4 false unchecked ldaEffect s).outcome :=
      rfl
    rw [hexec, readClass_unchecked_ok (readOperand_absolute hread)]
    rfl
  · have hexec : exec (.staAbs p) s = (writeClass .absolute p 4 State.A s).outcome := rfl
    rw [hexec, writeClass_of_ea hresolve rfl,
      memWrite_of_locate_device s.A (locate_ok_kind hdev)]
    rfl
  · have hexec : exec (.incAbs p) s = (rmwClass .absolute p 6 incEffect s).outcome := rfl
    have hwrite := memWrite_of_locate_device (s := (incEffect v (s.seen (.read id off))).2)
      (incEffect v (s.seen (.read id off))).1 (locate_ok_kind hdev)
    rw [hexec, rmwClass_of_ea hresolve rfl, hread, Res.andThen_ok, hwrite]
    rfl

/-! ## The word reads (R88 to R90) -/

theorem readPair_ok {al ah : Word} {s t u : State} {l h : Byte} (hl : memRead al s = .ok l t)
    (hh : memRead ah t = .ok h u) :
    readPair al ah s = .ok (BitVec.ofNat 16 (l.toNat + 256 * h.toNat)) u := by
  rw [readPair, hl, Res.andThen_ok, hh, Res.andThen_ok, wordOf_eq]

/-- An error of the first read ends the pair before the second. -/
theorem readPair_first_err {al ah : Word} {s t : State} {e : CoreError}
    (h : memRead al s = .err e t) : readPair al ah s = .err e t := by
  rw [readPair, h, Res.andThen_err]

theorem readPair_second_err {al ah : Word} {s t u : State} {l : Byte} {e : CoreError}
    (hl : memRead al s = .ok l t) (h : memRead ah t = .err e u) : readPair al ah s = .err e u := by
  rw [readPair, hl, Res.andThen_ok, h, Res.andThen_err]

/-- The second pointer address of R89, as a number. -/
theorem zext_succ (p : Byte) : zext (p + 1) = BitVec.ofNat 16 ((p.toNat + 1) % 256) := by
  rw [zext_eq, BitVec.toNat_add]
  rfl

theorem read16PageWrap_of_pageWrap {s : State} (h : s.params.jmpIndWrap = .pageWrap) (p : Word) :
    read16PageWrap p s =
      readPair p (BitVec.ofNat 16 (p.toNat / 256 * 256 + (p.toNat + 1) % 256)) s := by
  rw [read16PageWrap, h, ← pageWrap_eq]

theorem read16PageWrap_of_linear {s : State} (h : s.params.jmpIndWrap = .linear) (p : Word) :
    read16PageWrap p s = read16 p s := by
  rw [read16PageWrap, h]

/-- Settles O14: the three forms are pairs of reads that differ in the second address. -/
theorem multiByteReads : Obligations.MultiByteReads := by
  unfold Obligations.MultiByteReads
  refine fun s => ⟨fun _ _ _ _ _ => readPair_ok, fun p l h t u hl hh => ?_,
    fun p l h t u hw hl hh => ?_, fun p hw => read16PageWrap_of_linear hw p,
    fun _ _ _ => readPair_first_err, fun _ _ _ _ _ => readPair_second_err⟩
  · rw [← zext_eq] at hl
    rw [← zext_succ] at hh
    exact readPair_ok hl hh
  · rw [read16PageWrap_of_pageWrap hw]
    exact readPair_ok hl hh

/-! ## The stack (R94) -/

theorem stackAddress_toNat (sp : Byte) : (stackAddress sp).toNat = 0x0100 + sp.toNat := by
  have hsp := sp.isLt
  have hpage : (1 : Byte).toNat = 1 := rfl
  rw [stackAddress_eq, wordOf_eq, BitVec.toNat_ofNat, hpage]
  omega

/-- A word is pushed high byte first. -/
theorem pushWord_ok {w : Word} {s t u : State}
    (hhi : push (BitVec.ofNat 8 (w.toNat / 256)) s = .ok () t)
    (hlo : push (BitVec.ofNat 8 (w.toNat % 256)) t = .ok () u) : pushWord w s = .ok () u := by
  rw [pushWord, hi_eq, hhi, Res.andThen_ok, lo_eq, hlo]

/-- A word is pulled low byte first. -/
theorem pullWord_ok {s t u : State} {l h : Byte} (hl : pull s = .ok l t) (hh : pull t = .ok h u) :
    pullWord s = .ok (BitVec.ofNat 16 (l.toNat + 256 * h.toNat)) u := by
  rw [pullWord, hl, Res.andThen_ok, hh, Res.andThen_ok, wordOf_eq]

/-- Settles O15: each stack operation is an access at the stack address, and a word is two of them. -/
theorem pushAndPull : Obligations.PushAndPull := by
  unfold Obligations.PushAndPull
  exact ⟨stackAddress_toNat, fun _ _ _ => push_ok, fun _ _ _ => pull_ok, fun _ _ _ _ => push_err,
    fun _ _ _ h => ⟨_, pull_err h, rfl⟩, fun _ _ _ _ => pushWord_ok, fun _ _ _ _ _ => pullWord_ok⟩

end Sys2Proof.Machine
end

section
/-! PROOF. The statements of the family 30_encoding.md: the decoder and the encoder undo each other, the
operation table, the unassigned bytes, and words written out from the spec. -/

namespace Sys2Proof

/-! ## The decoder and the encoder, an equation of each for every form of R131 -/

/-- R135, R328: an unassigned byte is rejected whatever follows. -/
theorem decode_of_formOf_none {op : Byte} (hf : formOf op = none) (rest : List Byte) :
    decode (op :: rest) = .error (.unassigned op) := by
  simp only [decode, hf]

theorem decode_of_formOf_f1 {op : Byte} {i : Instr} (hf : formOf op = some (.f1 i))
    (rest : List Byte) : decode (op :: rest) = .ok (i, rest) := by
  simp only [decode, hf]

theorem decode_of_formOf_f2 {op : Byte} {mk : Byte → Instr} (hf : formOf op = some (.f2 mk))
    (p : Byte) (rest : List Byte) : decode (op :: p :: rest) = .ok (mk p, rest) := by
  simp only [decode, hf]

theorem decode_of_formOf_f3 {op : Byte} {mk : Word → Instr} (hf : formOf op = some (.f3 mk))
    (l h : Byte) (rest : List Byte) :
    decode (op :: l :: h :: rest) = .ok (mk (wordOf l h), rest) := by
  simp only [decode, hf]

/-- What the decoder has read where it answers an instruction: an assigned opcode byte and the parameter
bytes of its form. -/
theorem decode_eq_ok {bs rest : List Byte} {i : Instr} (h : decode bs = .ok (i, rest)) :
    ∃ op, (formOf op = some (.f1 i) ∧ bs = op :: rest) ∨
      (∃ mk p, formOf op = some (.f2 mk) ∧ i = mk p ∧ bs = op :: p :: rest) ∨
      (∃ mk l h, formOf op = some (.f3 mk) ∧ i = mk (wordOf l h) ∧ bs = op :: l :: h :: rest) := by
  cases bs with
  | nil => cases h
  | cons op bs =>
    refine ⟨op, ?_⟩
    unfold decode at h
    dsimp only at h
    split at h <;> cases h
    next hf => exact .inl ⟨hf, rfl⟩
    next mk p hf => exact .inr (.inl ⟨mk, p, hf, rfl, rfl⟩)
    next mk l h hf => exact .inr (.inr ⟨mk, l, h, hf, rfl, rfl⟩)

theorem encode_of_formOf_f1 {op : Byte} {i : Instr} (hf : formOf op = some (.f1 i)) :
    encode i = [op] := by
  obtain ⟨_, ⟨⟩, hop, ho⟩ | ⟨_, ⟨⟩, -⟩ | ⟨_, ⟨⟩, -⟩ := formOf_some hf
  rw [encode, hop, ho, Operand.bytes]

theorem encode_of_formOf_f2 {op : Byte} {mk : Byte → Instr} (hf : formOf op = some (.f2 mk))
    (p : Byte) : encode (mk p) = [op, p] := by
  obtain ⟨_, ⟨⟩, -⟩ | ⟨_, ⟨⟩, hmk⟩ | ⟨_, ⟨⟩, -⟩ := formOf_some hf
  obtain ⟨hop, ho⟩ := hmk p
  rw [encode, hop, ho, Operand.bytes]

theorem encode_of_formOf_f3 {op : Byte} {mk : Word → Instr} (hf : formOf op = some (.f3 mk))
    (w : Word) : encode (mk w) = [op, lo w, hi w] := by
  obtain ⟨_, ⟨⟩, -⟩ | ⟨_, ⟨⟩, -⟩ | ⟨_, ⟨⟩, hmk⟩ := formOf_some hf
  obtain ⟨hop, ho⟩ := hmk w
  rw [encode, hop, ho, Operand.bytes]

/-- The form an instruction's opcode byte selects is completed by the parameter it carries. -/
theorem decode_encode (i : Instr) (rest : List Byte) : decode (encode i ++ rest) = .ok (i, rest) := by
  cases ho : i.operand with
  | none =>
    have hf := formOf_opcode_none ho
    rw [encode_of_formOf_f1 hf]
    exact decode_of_formOf_f1 hf rest
  | byte p =>
    obtain ⟨mk, hf, rfl⟩ := formOf_opcode_byte ho
    rw [encode_of_formOf_f2 hf]
    exact decode_of_formOf_f2 hf p rest
  | word p =>
    obtain ⟨mk, hf, rfl⟩ := formOf_opcode_word ho
    have hd := decode_of_formOf_f3 hf (lo p) (hi p) rest
    rw [wordOf_lo_hi] at hd
    rw [encode_of_formOf_f3 hf]
    exact hd

theorem encode_length (i : Instr) : (encode i).length = i.length := by
  rw [Instr.length_eq, encode, List.length_cons, Nat.add_comm]

/-! ## The operation table (R133) -/

/-- The opcode byte of an instruction selects its row. -/
theorem formOf_row (i : Instr) : (formOf (BitVec.ofNat 8 i.opcode.toNat)).map Form.row = some i.row := by
  cases ho : i.operand with
  | none => exact formOf_row_none ho
  | byte p => exact formOf_row_byte ho
  | word p => exact formOf_row_word ho

theorem Instr.row_mem_operationTable (i : Instr) : i.row ∈ operationTable :=
  List.mem_filterMap.2 ⟨i.opcode.toNat, List.mem_range.2 i.opcode.isLt, formOf_row i⟩

theorem Form.exists_instr_row (f : Form) : ∃ i : Instr, i.row = f.row := by
  cases f with
  | f1 i => exact ⟨i, rfl⟩
  | f2 mk => exact ⟨mk 0, rfl⟩
  | f3 mk => exact ⟨mk 0, rfl⟩

theorem exists_instr_of_mem_operationTable {r : Row} (h : r ∈ operationTable) :
    ∃ i : Instr, i.row = r := by
  obtain ⟨n, -, hn⟩ := List.mem_filterMap.1 h
  obtain ⟨f, -, rfl⟩ := Option.map_eq_some_iff.1 hn
  exact f.exists_instr_row

set_option maxRecDepth 2000 in
theorem operationTable_length : operationTable.length = 151 := by decide

set_option maxRecDepth 2000 in
theorem operationTable_wf : tableWf operationTable = true := by decide

theorem Instr.row_wf (i : Instr) : i.row.wf = true := by
  have h := operationTable_wf
  rw [tableWf, Bool.and_eq_true, List.all_eq_true] at h
  obtain ⟨hrows, -⟩ := h
  exact hrows i.row i.row_mem_operationTable

/-- R130: an instruction carries as many parameter bytes as its mode has. -/
theorem Instr.operand_bytes_length (i : Instr) : i.operand.bytes.length = i.mode.parameterSize :=
  (Nat.add_left_cancel i.length_eq).symm

theorem Instr.wf_eq_true (i : Instr) : i.wf = true := by
  rw [Instr.wf, i.row_wf, i.operand_bytes_length, beq_self_eq_true, Bool.and_self]

/-! ## The unassigned bytes (R135, R192) -/

/-- The bytes R135 lists are those the opcode map leaves out. -/
theorem Machine.mem_unassignedOpcodes_iff :
    ∀ op : Byte, op ∈ unassignedOpcodes ↔ formOf op = none := by decide

theorem Form.row_opcode {op : Byte} {f : Form} (hf : formOf op = some f) : f.row.opcode = op := by
  obtain ⟨_, rfl, hop, -⟩ | ⟨_, rfl, hmk⟩ | ⟨_, rfl, hmk⟩ := formOf_some hf
  · exact hop
  · exact (hmk 0).1
  · exact (hmk 0).1

/-- R192: the fetch of an unassigned byte stops before any parameter byte is read. -/
theorem Machine.fetch_of_formOf_none {s t : State} {op : Byte} (hm : memRead s.PC s = .ok op t)
    (hf : formOf op = none) :
    fetch s = .err (.unknownOpcode op s.PC) { t with PC := t.PC + 1 } := by
  simp only [fetch, fetchByte, hm, Res.andThen_ok, hf]

theorem Machine.step_of_formOf_none {s t : State} {op : Byte} (hr : s.Running)
    (hm : memRead s.PC s = .ok op t) (hf : formOf op = none) :
    step s = .fault (.raised (.unknownOpcode op s.PC) t.bus) := by
  rw [step_of_running hr, fetch_of_formOf_none hm hf, Res.andThen_err, Res.outcome_err]

end Sys2Proof

/-! ## The statements -/

namespace Sys2Proof.Encoding

open Sys2Proof.Machine

/-- Settles O1: the opcode byte of an instruction selects the form that its parameter bytes complete to
it; its row is well-formed as a row of the operation table. -/
theorem decodeOfEncode : Obligations.DecodeOfEncode := by
  unfold Obligations.DecodeOfEncode
  exact fun i rest => ⟨i.wf_eq_true, decode_encode i rest, encode_length i⟩

/-- Settles O2: an instruction of the form an opcode byte selects has that opcode byte and the parameter
the form was given, and a word has the two bytes it was made of. -/
theorem decodeIsExact : Obligations.DecodeIsExact := by
  unfold Obligations.DecodeIsExact
  intro bs rest i hd
  obtain ⟨op, ⟨hf, rfl⟩ | ⟨mk, p, hf, rfl, rfl⟩ | ⟨mk, l, h, hf, rfl, rfl⟩⟩ := decode_eq_ok hd
  · rw [encode_of_formOf_f1 hf, List.singleton_append]
  · rw [encode_of_formOf_f2 hf, List.cons_append, List.singleton_append]
  · rw [encode_of_formOf_f3 hf, lo_wordOf, hi_wordOf, List.cons_append, List.cons_append,
      List.singleton_append]

/-- Settles O3: a byte is on the list of R135 exactly where the opcode map has no form for it. -/
theorem unassignedOpcodes : Obligations.UnassignedOpcodes := by
  unfold Obligations.UnassignedOpcodes
  refine fun op => ⟨fun hop => ?_, fun hop => ?_⟩
  · have hf := (mem_unassignedOpcodes_iff op).1 hop
    exact ⟨decode_of_formOf_none hf, fun s t hr hm => step_of_formOf_none hr hm hf⟩
  · rw [mem_unassignedOpcodes_iff] at hop
    obtain ⟨f, hf⟩ := Option.ne_none_iff_exists'.1 hop
    exact ⟨f, hf, Form.row_opcode hf⟩

/-- Settles O4: the number of rows and their well-formedness are evaluated; the rows are those of the
instructions because each opcode byte selects the row of its instruction. -/
theorem operationTable : Obligations.OperationTable := by
  unfold Obligations.OperationTable
  exact ⟨operationTable_length, operationTable_wf, fun _ => exists_instr_of_mem_operationTable,
    Instr.row_mem_operationTable⟩

/-- Settles O5 by evaluation of the decoder on each byte sequence. -/
theorem encodingsOfTheSpec : Obligations.EncodingsOfTheSpec := by
  unfold Obligations.EncodingsOfTheSpec
  and_intros <;> rfl

end Sys2Proof.Encoding
end

section
/-! PROOF. The statements of the family 40_addressing.md: the effective address and the page crossing of
each mode, what the resolver and the READ-class operand leave unchanged, and which instructions write
memory. -/

namespace Sys2Proof.Machine

/-! ## Address arithmetic as numbers (R6, R9, R175) -/

/-- An index added in the zero page wraps within it (R166, R170). -/
theorem zext_add (p q : Byte) : zext (p + q) = BitVec.ofNat 16 ((p.toNat + q.toNat) % 256) := by
  rw [zext_eq, BitVec.toNat_add]

theorem word_succ (w : Word) : w + 1 = BitVec.ofNat 16 (w.toNat + 1) := by
  rw [BitVec.ofNat_add, BitVec.ofNat_toNat, BitVec.setWidth_eq]
  rfl

/-- An index added to a word wraps modulo 65536 (R168, R171). -/
theorem word_add_zext (w : Word) (b : Byte) : w + zext b = BitVec.ofNat 16 (w.toNat + b.toNat) := by
  rw [BitVec.ofNat_add, BitVec.ofNat_toNat, BitVec.setWidth_eq, zext_eq]

/-- A signed offset added to a word wraps modulo 65536 (R172). -/
theorem word_add_sext (w : Word) (b : Byte) : w + sext b = BitVec.ofInt 16 (w.toNat + b.toInt) := by
  rw [sext_eq, BitVec.ofInt_add, BitVec.ofInt_natCast, BitVec.ofNat_toNat, BitVec.setWidth_eq]

theorem Resolved.from_add_zext (w : Word) (b : Byte) :
    Resolved.from w (w + zext b) = ⟨some (BitVec.ofNat 16 (w.toNat + b.toNat)),
      decide (w.toNat / 256 ≠ (w.toNat + b.toNat) % 65536 / 256)⟩ := by
  rw [Resolved.from, pageCrossed_eq, word_add_zext, BitVec.toNat_ofNat]

theorem Resolved.from_add_sext (w : Word) (b : Byte) :
    Resolved.from w (w + sext b) = ⟨some (BitVec.ofInt 16 (w.toNat + b.toInt)),
      decide (w.toNat / 256 ≠ (BitVec.ofInt 16 (w.toNat + b.toInt)).toNat / 256)⟩ := by
  rw [Resolved.from, pageCrossed_eq, word_add_sext]

/-! ## The modes that read no pointer (R162 to R168, R172) -/

section

variable (p : Byte) (s : State)

theorem resolve_indexedZeroPageX : resolve .indexedZeroPageX (zext p) s =
    .ok ⟨some (BitVec.ofNat 16 ((p.toNat + s.X.toNat) % 256)), false⟩ s := by
  rw [resolve, lo_zext, zext_add, Resolved.at]

theorem resolve_indexedZeroPageY : resolve .indexedZeroPageY (zext p) s =
    .ok ⟨some (BitVec.ofNat 16 ((p.toNat + s.Y.toNat) % 256)), false⟩ s := by
  rw [resolve, lo_zext, zext_add, Resolved.at]

theorem resolve_relative : resolve .relative (zext p) s =
    .ok ⟨some (BitVec.ofInt 16 (s.PC.toNat + p.toInt)),
      decide (s.PC.toNat / 256 ≠ (BitVec.ofInt 16 (s.PC.toNat + p.toInt)).toNat / 256)⟩ s := by
  rw [resolve, lo_zext, Resolved.from_add_sext]

end

section

variable (p : Word) (s : State)

theorem resolve_indexedAbsoluteX : resolve .indexedAbsoluteX p s =
    .ok ⟨some (BitVec.ofNat 16 (p.toNat + s.X.toNat)),
      decide (p.toNat / 256 ≠ (p.toNat + s.X.toNat) % 65536 / 256)⟩ s := by
  rw [resolve, Resolved.from_add_zext]

theorem resolve_indexedAbsoluteY : resolve .indexedAbsoluteY p s =
    .ok ⟨some (BitVec.ofNat 16 (p.toNat + s.Y.toNat)),
      decide (p.toNat / 256 ≠ (p.toNat + s.Y.toNat) % 65536 / 256)⟩ s := by
  rw [resolve, Resolved.from_add_zext]

end

set_option maxRecDepth 2000 in
/-- R163, R166, R172: the rows of three modes, evaluated over the operation table. -/
theorem operationTable_modes : ∀ r ∈ operationTable,
    (r.mode = .accumulator ↔ r.opcode ∈ [0x0A, 0x4A, 0x2A, 0x6A]) ∧
    (r.mode = .indexedZeroPageY ↔ r.opcode ∈ [0xB6, 0x96]) ∧
    (r.mode = .relative ↔ r.mnemonic.operandClass = .branch) := by decide

/-- Settles O19: each mode is an equation of the resolver; which instructions use a mode is read off the
operation table. -/
theorem modesWithoutPointer : Obligations.ModesWithoutPointer := by
  unfold Obligations.ModesWithoutPointer
  refine fun s => ⟨fun p => ⟨rfl, rfl, rfl⟩, fun p => ?_, fun p => ?_,
    fun i => operationTable_modes i.row i.row_mem_operationTable⟩
  · rw [← zext_eq]
    exact ⟨rfl, resolve_indexedZeroPageX p s, resolve_indexedZeroPageY p s, resolve_relative p s⟩
  · exact ⟨rfl, resolve_indexedAbsoluteX p s, resolve_indexedAbsoluteY p s⟩

/-! ## The modes that read a pointer (R169 to R171) -/

section

variable {s u : State} {ea : Word}

theorem resolve_indirect {p : Word} (h : read16PageWrap p s = .ok ea u) :
    resolve .indirect p s = .ok ⟨some ea, false⟩ u := by
  rw [resolve, h, Res.andThen_ok, Resolved.at]

theorem resolve_indexedIndirectX {p : Byte} (h : read16ZP (p + s.X) s = .ok ea u) :
    resolve .indexedIndirectX (zext p) s = .ok ⟨some ea, false⟩ u := by
  rw [resolve, lo_zext, h, Res.andThen_ok, Resolved.at]

theorem read16ZP_readOnly {p : Byte} (h : read16ZP p s = .ok ea u) : ReadOnly s u := by
  have hr : (read16ZP p s).ReadsOnly s := readPair_readsOnly _ _ s
  rw [h] at hr
  exact hr

/-- The index is the Y of before the pointer reads, which leave it. -/
theorem resolve_indexedIndirectY {p : Byte} (h : read16ZP p s = .ok ea u) :
    resolve .indexedIndirectY (zext p) s =
      .ok ⟨some (BitVec.ofNat 16 (ea.toNat + s.Y.toNat)),
        decide (ea.toNat / 256 ≠ (ea.toNat + s.Y.toNat) % 65536 / 256)⟩ u := by
  have hY : u.Y = s.Y := by rw [(read16ZP_readOnly h).state]
  rw [resolve, lo_zext, h, Res.andThen_ok, hY, Resolved.from_add_zext]

end

/-- The word of two bytes loses neither of them. -/
theorem toNat_ofNat_pair (l h : Byte) :
    (BitVec.ofNat 16 (l.toNat + 256 * h.toNat)).toNat = l.toNat + 256 * h.toNat := by
  have hl := l.isLt
  have hh := h.isLt
  rw [BitVec.toNat_ofNat]
  omega

set_option maxRecDepth 2000 in
/-- R169: only JMP has INDIRECT mode, evaluated over the operation table. -/
theorem operationTable_indirect :
    ∀ r ∈ operationTable, r.mode = .indirect ↔ r.opcode = 0x6C := by decide

/-- Settles O20: each mode is a pair of reads, the low byte first, and an equation of the resolver in the
word they give. -/
theorem modesThroughPointer : Obligations.ModesThroughPointer := by
  unfold Obligations.ModesThroughPointer
  refine fun s l h t u => ⟨fun p hwrap hl hh => ?_, fun p hlinear hl hh => ?_, fun p hl hh => ?_,
    fun p hl hh => ?_, fun i => operationTable_indirect i.row i.row_mem_operationTable⟩
  · apply resolve_indirect
    rw [read16PageWrap_of_pageWrap hwrap]
    exact readPair_ok hl hh
  · rw [← word_succ] at hh
    apply resolve_indirect
    rw [read16PageWrap_of_linear hlinear]
    exact readPair_ok hl hh
  · rw [← zext_add] at hl
    rw [← Nat.mod_add_mod, ← BitVec.toNat_add, ← zext_succ] at hh
    rw [← zext_eq]
    exact resolve_indexedIndirectX (readPair_ok hl hh)
  · rw [← zext_eq] at hl
    rw [← zext_succ] at hh
    have hy := resolve_indexedIndirectY (readPair_ok hl hh)
    rwa [toNat_ofNat_pair, zext_eq] at hy

/-! ## What the resolver and the operand read leave (R160, R161, R164, R174) -/

/-- A mode without a pointer is resolved without an access. -/
theorem resolve_of_no_pointer {m : Mode} (h1 : m ≠ .indirect) (h2 : m ≠ .indexedIndirectX)
    (h3 : m ≠ .indexedIndirectY) (p : Word) (s : State) : ∃ r, resolve m p s = .ok r s := by
  cases m
  case indirect => exact absurd rfl h1
  case indexedIndirectX => exact absurd rfl h2
  case indexedIndirectY => exact absurd rfl h3
  all_goals exact ⟨_, rfl⟩

theorem Res.ReadsOnly.readOnly_of_err {α : Type} {s t : State} {r : Res α} {e : CoreError}
    (h : r.ReadsOnly s) (hr : r = .err e t) : ReadOnly s t := by
  subst hr
  exact h

/-- Settles O21: the resolver only reads, and in the modes without a pointer it makes no access. -/
theorem resolverWritesNothing : Obligations.ResolverWritesNothing := by
  unfold Obligations.ResolverWritesNothing
  intro m p s s1 hres
  have hro : ReadOnly s s1 := by
    rcases hres with ⟨r, hr⟩ | ⟨e, he⟩
    · exact resolve_readOnly hr
    · exact (resolve_readsOnly m p s).readOnly_of_err he
  refine ⟨hro.state, hro.chunks, hro.mem, hro.byteAt, fun h1 h2 h3 => ?_⟩
  obtain ⟨r', hr'⟩ := resolve_of_no_pointer h1 h2 h3 p s
  rcases hres with ⟨r, hr⟩ | ⟨e, he⟩
  · rw [hr'] at hr
    cases hr
    rfl
  · rw [hr'] at he
    cases he

/-- Outside IMMEDIATE mode the operand is one read of the effective address. -/
theorem operandValue_of_ea {m : Mode} {r : Resolved} {ea : Word} (hm : m ≠ .immediate)
    (he : r.ea = some ea) (p : Word) (s : State) : operandValue m p r s = memRead ea s := by
  unfold operandValue
  split
  · exact absurd rfl hm
  · rw [needEA, he, Res.andThen_ok]

theorem readOperand_of_ea {m : Mode} {p : Word} {s s1 : State} {r : Resolved} {ea : Word}
    (hm : m ≠ .immediate) (hr : resolve m p s = .ok r s1) (he : r.ea = some ea) :
    readOperand m p s = (memRead ea s1).andThen fun v t => .ok (r, v) t := by
  rw [readOperand, hr, Res.andThen_ok, operandValue_of_ea hm he]

theorem readOperand_of_resolve_err {m : Mode} {p : Word} {s s1 : State} {e : CoreError}
    (h : resolve m p s = .err e s1) : readOperand m p s = .err e s1 := by
  rw [readOperand, h, Res.andThen_err]

/-- Settles O22: outside IMMEDIATE mode the operand is the resolver and one read of its address. -/
theorem operandOfReadClass : Obligations.OperandOfReadClass := by
  unfold Obligations.OperandOfReadClass
  refine ⟨fun p s => rfl, fun m p s r s1 ea v t hm hr he hv => ?_,
    fun _ _ _ _ _ => readOperand_of_resolve_err, fun m p s r s1 ea e t hm hr he hv => ?_,
    fun m p s x s1 h => ?_⟩
  · rw [readOperand_of_ea hm hr he, hv, Res.andThen_ok]
  · obtain ⟨rfl, -⟩ := memRead_err hv
    rw [readOperand_of_ea hm hr he, hv, Res.andThen_err]
  · have hro := readOperand_readOnly h
    exact ⟨hro.state, hro.chunks, hro.mem⟩

/-! ## Which instructions write memory (R161, R205) -/

/-- The mnemonics with a form that writes memory: the stores, the read-modify-writes, the pushes, JSR and
BRK. -/
def memoryWriterMnemonics : List Mnemonic :=
  [.sta, .stx, .sty, .inc, .dec, .asl, .lsr, .rol, .ror, .pha, .php, .jsr, .brk]

/-- A part of a step leaves the backing store as `m`, whether it ends well or in an error. -/
def Res.LeavesMem {α : Type} (m : Memory) : Res α → Prop
  | .ok _ t => t.bus.mem = m
  | .err _ t => t.bus.mem = m

theorem Res.LeavesMem.mem_of_ok {α : Type} {m : Memory} {r : Res α} {a : α} {t : State}
    (h : r.LeavesMem m) (hr : r = .ok a t) : t.bus.mem = m := by
  subst hr
  exact h

theorem Res.LeavesMem.andThen {α β : Type} {m : Memory} {r : Res α} {f : α → State → Res β}
    (h : r.LeavesMem m) (hf : ∀ a t, (f a t).LeavesMem t.bus.mem) : (r.andThen f).LeavesMem m := by
  cases r with
  | ok a t =>
    obtain rfl : t.bus.mem = m := h
    exact hf a t
  | err e t => exact h

theorem Res.ReadsOnly.leavesMem {α : Type} {s : State} {r : Res α} (h : r.ReadsOnly s) :
    r.LeavesMem s.bus.mem := by
  cases r with
  | ok a t => exact ReadOnly.mem h
  | err e t => exact ReadOnly.mem h

theorem pull_leavesMem (s : State) : (pull s).LeavesMem s.bus.mem :=
  (memRead_readsOnly _ { s with SP := s.SP + 1 }).leavesMem

theorem pullWord_leavesMem (s : State) : (pullWord s).LeavesMem s.bus.mem :=
  (pull_leavesMem s).andThen fun _ t => (pull_leavesMem t).andThen fun _ _ => rfl

theorem returnFromTrap_leavesMem (s : State) : (returnFromTrap s).LeavesMem s.bus.mem :=
  (pull_leavesMem s).andThen fun b t =>
    (pullWord_leavesMem { t with flags := t.flags.pulled b }).andThen fun _ _ => rfl

/-- The parts of a shape leave the backing store; WRITE and RMW have a write of their own. -/
def Shape.LeavesMem : Shape → Prop
  | .read chk f => (∀ u w, chk u = .ok () w → w = u) ∧ ∀ v u, (f v u).bus = u.bus
  | .write _ => False
  | .rmw _ => False
  | .jump f => ∀ ea u, (f ea u).LeavesMem u.bus.mem
  | .branch _ => True
  | .impl f => ∀ u, (f u).bus = u.bus
  | .stack f => ∀ u, (f u).LeavesMem u.bus.mem

theorem Shape.LeavesMem.run {sh : Shape} {i : Instr} {s t : State} (hm : sh.LeavesMem)
    (h : sh.run i s = .ok () t) : t.bus.mem = s.bus.mem := by
  cases sh with
  | read chk f =>
    obtain ⟨hchk, hf⟩ := hm
    obtain ⟨r, s1, v, s2, -, hro, rfl⟩ := readClass_ok hchk h
    rw [State.account_bus, hf, hro.mem]
  | write reg => exact hm.elim
  | rmw f => exact hm.elim
  | jump f =>
    obtain ⟨r, s1, ea, u, hr, -, hf, rfl⟩ := jumpClass_ok h
    rw [State.account_bus, (hm ea s1).mem_of_ok hf, (resolve_readOnly hr).mem]
  | branch cond =>
    obtain ⟨r, ea, -, -, rfl⟩ := branchClass_ok h
    rw [State.account_bus]
    split <;> rfl
  | impl f =>
    cases h
    rw [State.account_bus, hm]
  | stack f =>
    obtain ⟨u, hf, rfl⟩ := stackClass_ok h
    rw [State.account_bus, (hm s).mem_of_ok hf]

theorem shapeOf_leavesMem {i : Instr} (hi : i.mnemonic ∉ memoryWriterMnemonics) :
    (shapeOf i).LeavesMem := by
  unfold shapeOf
  cases hm : i.mnemonic
  case sta | stx | sty | inc | dec | asl | lsr | rol | ror | pha | php | jsr | brk =>
    rw [hm] at hi
    exact absurd (by decide) hi
  case cmp | cpx | cpy | bit | lda | ldx | ldy | and | ora | eor =>
    exact ⟨unchecked_ok, fun _ _ => rfl⟩
  case adc | sbc => exact ⟨decimalCheck_ok _ _, fun _ _ => rfl⟩
  case bcc | bcs | beq | bmi | bne | bpl | bvc | bvs => exact trivial
  case pla | plp => exact fun u => (pull_leavesMem u).andThen fun _ _ => rfl
  case rts => exact fun u => (pullWord_leavesMem u).andThen fun _ _ => rfl
  case rti => exact returnFromTrap_leavesMem
  case jmp => exact fun _ _ => rfl
  case tax | tay | txa | tya | tsx | txs | inx | iny | dex | dey | clc | cld | cli | clv | sec | sed
      | sei | nop => exact fun _ => rfl

/-! ### The shapes that write -/

theorem shapeOf_store {i : Instr} (h : i.mnemonic ∈ [.sta, .stx, .sty]) :
    ∃ reg, shapeOf i = .write reg := by
  simp only [List.mem_cons, List.not_mem_nil, or_false] at h
  unfold shapeOf
  rcases h with h | h | h <;> rw [h] <;> exact ⟨_, rfl⟩

/-- The effect of a read-modify-write changes flags only. -/
theorem shapeOf_readModifyWrite {i : Instr} (h : i.mnemonic ∈ [.inc, .dec, .asl, .lsr, .rol, .ror]) :
    ∃ f, shapeOf i = .rmw f ∧ ∀ v u, (f v u).2.bus = u.bus := by
  simp only [List.mem_cons, List.not_mem_nil, or_false] at h
  unfold shapeOf
  rcases h with h | h | h | h | h | h <;> rw [h] <;> exact ⟨_, rfl, fun _ _ => rfl⟩

/-- R163: the forms in ACCUMULATOR mode write A, not memory. -/
theorem exec_accumulator_mem {i : Instr} {s t : State} (hm : i.mode = .accumulator)
    (h : exec i s = .next t) : t.bus.mem = s.bus.mem := by
  have hi : i.mnemonic ∈ [.inc, .dec, .asl, .lsr, .rol, .ror] :=
    List.mem_of_mem_drop (i := 2) (shift_of_accumulator hm)
  obtain ⟨f, hs, hf⟩ := shapeOf_readModifyWrite hi
  have hrun := exec_eq_next h
  rw [hs, Shape.run] at hrun
  rcases rmwClass_ok hrun with ⟨-, rfl⟩ | ⟨hne, -⟩
  · rw [State.account_bus, hf]
  · exact absurd hm hne

/-! ### The bytes a store does not reach (R93, R94) -/

section

variable {s s1 t : State} {a ea : Word}

@[simp] theorem State.account_byteAt (c : Nat) (s : State) (a : Word) :
    (s.account c).byteAt a = s.byteAt a := State.byteAt_congr rfl rfl a

theorem ReadOnly.storeReaches_iff (h : ReadOnly s t) (ea a : Word) :
    t.storeReaches ea a ↔ s.storeReaches ea a := State.storeReaches_congr h.chunks ea a

/-- After reads, a write leaves every byte the store does not reach. -/
theorem ReadOnly.memWrite_unreached {v : Byte} (ro : ReadOnly s s1) (hw : s.bus.mem.wf = true)
    (h : memWrite ea v s1 = .ok () t) (ha : ¬ s.storeReaches ea a) : t.byteAt a = s.byteAt a := by
  rw [← ro.mem] at hw
  rw [← ro.storeReaches_iff] at ha
  rw [memWrite_byteAt_of_not_reached hw h ha, ro.byteAt]

variable {m : Mode} {p : Word} {c : Nat} {r : Resolved}

theorem writeClass_unreached {reg : State → Byte} (hw : s.bus.mem.wf = true)
    (h : writeClass m p c reg s = .ok () t) (hr : resolve m p s = .ok r s1) (he : r.ea = some ea)
    (ha : ¬ s.storeReaches ea a) : t.byteAt a = s.byteAt a := by
  rw [writeClass_of_ea hr he] at h
  obtain ⟨_, u, hu, h⟩ := Res.andThen_eq_ok.1 h
  cases h
  rw [State.account_byteAt]
  exact (resolve_readOnly hr).memWrite_unreached hw hu ha

theorem rmwClass_unreached {f : Byte → State → Byte × State} (hf : ∀ v u, (f v u).2.bus = u.bus)
    (hw : s.bus.mem.wf = true) (h : rmwClass m p c f s = .ok () t) (hr : resolve m p s = .ok r s1)
    (he : r.ea = some ea) (ha : ¬ s.storeReaches ea a) : t.byteAt a = s.byteAt a := by
  rw [rmwClass_of_ea hr he] at h
  obtain ⟨v, s2, hv, h⟩ := Res.andThen_eq_ok.1 h
  obtain ⟨_, u, hu, h⟩ := Res.andThen_eq_ok.1 h
  cases h
  have ro := (resolve_readOnly hr).trans (memRead_readOnly hv)
  have hwrite := memWrite_of_bus_eq (hf v s2).symm hu
  exact (ro.memWrite_unreached hw hwrite ha :)

theorem jsrEffect_unreached (hw : s.bus.mem.wf = true) (h : jsrEffect ea s = .ok () t)
    (h1 : ¬ s.storeReaches (stackAddress s.SP) a)
    (h2 : ¬ s.storeReaches (stackAddress (s.SP - 1)) a) : t.byteAt a = s.byteAt a := by
  obtain ⟨_, u, hu, h⟩ := Res.andThen_eq_ok.1 h
  cases h
  exact (pushWord_unreached hw hu h1 h2 :)

variable {i : Instr}

theorem exec_stack_ok {f : State → Res Unit} (hs : shapeOf i = .stack f) (h : exec i s = .next t) :
    ∃ u, f s = .ok () u ∧ t = u.account i.row.cycles := by
  have hrun := exec_eq_next h
  rw [hs] at hrun
  exact stackClass_ok hrun

theorem shapeOf_push (hi : i.mnemonic = .pha ∨ i.mnemonic = .php) :
    ∃ v : State → Byte, shapeOf i = .stack fun s => push (v s) s := by
  unfold shapeOf
  rcases hi with hi | hi <;> rw [hi] <;> exact ⟨_, rfl⟩

theorem exec_push_unreached (hi : i.mnemonic = .pha ∨ i.mnemonic = .php)
    (hw : s.bus.mem.wf = true) (h : exec i s = .next t)
    (h1 : ¬ s.storeReaches (stackAddress s.SP) a) : t.byteAt a = s.byteAt a := by
  obtain ⟨v, hs⟩ := shapeOf_push hi
  obtain ⟨u, hu, rfl⟩ := exec_stack_ok hs h
  rw [State.account_byteAt]
  exact push_unreached hw hu h1

theorem exec_jsr_unreached (hi : i.mnemonic = .jsr) (hw : s.bus.mem.wf = true)
    (h : exec i s = .next t) (h1 : ¬ s.storeReaches (stackAddress s.SP) a)
    (h2 : ¬ s.storeReaches (stackAddress (s.SP - 1)) a) : t.byteAt a = s.byteAt a := by
  have hs : shapeOf i = .jump jsrEffect := by rw [shapeOf, hi]
  have hrun := exec_eq_next h
  rw [hs] at hrun
  obtain ⟨r, s1, ea, u, hr, -, hu, rfl⟩ := jumpClass_ok hrun
  have ro := resolve_readOnly hr
  have hSP : s1.SP = s.SP := by rw [ro.state]
  rw [← ro.mem] at hw
  rw [← ro.storeReaches_iff, ← hSP] at h1 h2
  rw [State.account_byteAt, jsrEffect_unreached hw hu h1 h2, ro.byteAt]

theorem exec_brk_unreached (hi : i.mnemonic = .brk) (hw : s.bus.mem.wf = true)
    (h : exec i s = .next t) (h1 : ¬ s.storeReaches (stackAddress s.SP) a)
    (h2 : ¬ s.storeReaches (stackAddress (s.SP - 1)) a)
    (h3 : ¬ s.storeReaches (stackAddress (s.SP - 2)) a) : t.byteAt a = s.byteAt a := by
  have hs : shapeOf i = .stack brkEffect := by rw [shapeOf, hi]
  obtain ⟨u, hu, rfl⟩ := exec_stack_ok hs h
  rw [State.account_byteAt]
  exact enterTrap_unreached hw hu h1 h2 h3

/-- A store or a read-modify-write changes only bytes that a store to its address reaches. -/
theorem exec_ea_unreached (hi : i.mnemonic ∈ [.sta, .stx, .sty] ++ [.inc, .dec, .asl, .lsr, .rol, .ror])
    (hw : s.bus.mem.wf = true) (h : exec i s = .next t) (hr : resolve i.mode i.param s = .ok r s1)
    (he : r.ea = some ea) (ha : ¬ s.storeReaches ea a) : t.byteAt a = s.byteAt a := by
  have hrun := exec_eq_next h
  rcases List.mem_append.1 hi with hi | hi
  · obtain ⟨reg, hs⟩ := shapeOf_store hi
    rw [hs] at hrun
    exact writeClass_unreached hw hrun hr he ha
  · obtain ⟨f, hs, hf⟩ := shapeOf_readModifyWrite hi
    rw [hs] at hrun
    exact rmwClass_unreached hf hw hrun hr he ha

end

/-- Settles O48: a shape without a write leaves memory, and each that has one writes at its stack slots or
at the address the resolver gives. -/
theorem memoryWriters : Obligations.MemoryWriters := by
  unfold Obligations.MemoryWriters
  intro i s t h
  refine ⟨fun hne => ⟨fun hm => hne (exec_accumulator_mem hm h), ?_⟩,
    fun hw a h1 => ⟨fun hi => exec_push_unreached hi hw h h1,
      fun h2 => ⟨fun hi => exec_jsr_unreached hi hw h h1 h2,
        fun h3 hi => exec_brk_unreached hi hw h h1 h2 h3⟩⟩,
    fun hw r s1 ea hr he hi a ha => exec_ea_unreached hi hw h hr he ha⟩
  exact Classical.byContradiction fun hi => hne ((shapeOf_leavesMem hi).run (exec_eq_next h))

end Sys2Proof.Machine
end

section
/-! PROOF. The statements of the family 41_engine_step.md: what a step fetches and runs, the cycles and
the PC it ends with, the branches, its trace record, the order of its bus accesses, and that it
completes where every address is mapped. -/

namespace Sys2Proof.Machine

/-! ## The fetch, an equation for every form of R131 (R191 to R193) -/

section

variable {s t u w : State} {op : Byte}

theorem fetch_of_formOf_f1 {i : Instr} (hop : fetchByte s = .ok op t)
    (hf : formOf op = some (.f1 i)) : fetch s = .ok i t := by
  simp only [fetch, hop, Res.andThen_ok, hf]

theorem fetch_of_formOf_f2 {mk : Byte → Instr} {p : Byte} (hop : fetchByte s = .ok op t)
    (hf : formOf op = some (.f2 mk)) (hp : fetchByte t = .ok p u) : fetch s = .ok (mk p) u := by
  simp only [fetch, hop, Res.andThen_ok, hf, hp]

theorem fetch_of_formOf_f3 {mk : Word → Instr} {l h : Byte} (hop : fetchByte s = .ok op t)
    (hf : formOf op = some (.f3 mk)) (hl : fetchByte t = .ok l u) (hh : fetchByte u = .ok h w) :
    fetch s = .ok (mk (wordOf l h)) w := by
  simp only [fetch, hop, Res.andThen_ok, hf, hl, hh]

end

/-- The state with PC moved past `k` bytes. -/
def State.past (k : Nat) (s : State) : State := { s with PC := s.PC + BitVec.ofNat 16 k }

theorem State.past_zero (s : State) : s.past 0 = s := by
  rw [State.past, BitVec.add_zero]

theorem State.past_succ (k : Nat) (s : State) :
    { s.past k with PC := (s.past k).PC + 1 } = s.past (k + 1) := by
  simp only [State.past, BitVec.ofNat_add, BitVec.add_assoc]
  rfl

/-- A byte that stands at PC is fetched without a change of the bus. -/
theorem fetchByte_of_byteAt {s : State} {k : Nat} {v : Byte}
    (h : s.byteAt (s.PC + BitVec.ofNat 16 k) = some v) :
    fetchByte (s.past k) = .ok v (s.past (k + 1)) := by
  have hread : memRead (s.past k).PC (s.past k) = .ok v (s.past k) := memRead_of_byteAt h
  rw [fetchByte, hread, Res.andThen_ok, State.past_succ]

/-- The bytes of `encode i` stand at PC and the addresses after it. -/
def State.HoldsAtPC (s : State) (i : Instr) : Prop :=
  ∀ k b, (encode i)[k]? = some b → s.byteAt (s.PC + BitVec.ofNat 16 k) = some b

/-- An instruction whose bytes stand at PC is the one that is fetched. -/
theorem fetch_of_holdsAtPC {s : State} {i : Instr} (h : s.HoldsAtPC i) :
    fetch s = .ok i (s.past i.length) := by
  have byte {k : Nat} {v : Byte} (hv : (encode i)[k]? = some v) := fetchByte_of_byteAt (h k v hv)
  have hop := byte (k := 0) (v := i.opcode) rfl
  rw [State.past_zero] at hop
  cases ho : i.operand with
  | none =>
    rw [length_of_operand_none ho]
    exact fetch_of_formOf_f1 hop (formOf_opcode_none ho)
  | byte p =>
    obtain ⟨mk, hf, hmk⟩ := formOf_opcode_byte ho
    have hp := byte (k := 1) (v := p) (by rw [encode, ho]; rfl)
    have hfetch := fetch_of_formOf_f2 hop hf hp
    rw [← hmk] at hfetch
    rw [length_of_operand_byte ho, hfetch]
  | word p =>
    obtain ⟨mk, hf, hmk⟩ := formOf_opcode_word ho
    have hl := byte (k := 1) (v := lo p) (by rw [encode, ho]; rfl)
    have hh := byte (k := 2) (v := hi p) (by rw [encode, ho]; rfl)
    have hfetch := fetch_of_formOf_f3 hop hf hl hh
    rw [wordOf_lo_hi, ← hmk] at hfetch
    rw [length_of_operand_word ho, hfetch]

/-- Settles O6: the fetch reads the bytes that stand at PC, and a fetch moves PC and reads. -/
theorem stepRunsDecodedInstruction : Obligations.StepRunsDecodedInstruction := by
  unfold Obligations.StepRunsDecodedInstruction
  refine fun s hr => ⟨fun i hi => step_of_fetch hr (fetch_of_holdsAtPC hi), fun i s1 hf => ?_⟩
  obtain ⟨hs1, hchunks, hmem⟩ := fetch_ok hf
  exact ⟨step_of_fetch hr hf, hs1, State.byteAt_congr hchunks hmem⟩

/-! ## What an instruction leaves of PC and CYC (R196, R197, R199) -/

/-- The mnemonics other than the branches whose rule writes PC. -/
def pcWriterMnemonics : List Mnemonic := [.jmp, .jsr, .rts, .brk, .rti]

/-- A reading of the state that looks at no register but PC, at no flag and not at the bus. -/
def IgnoresData {α : Type} (g : State → α) : Prop :=
  ∀ s A X Y SP flags bus,
    g { s with A := A, X := X, Y := Y, SP := SP, flags := flags, bus := bus } = g s

/-- The parts of a shape keep a reading of the state; a branch has a write of PC of its own. -/
def Shape.Preserves {α : Type} (g : State → α) : Shape → Prop
  | .read chk f => (∀ u w, chk u = .ok () w → w = u) ∧ ∀ v u, g (f v u) = g u
  | .write _ => True
  | .rmw f => ∀ v u, g (f v u).2 = g u
  | .jump f => ∀ ea u w, f ea u = .ok () w → g w = g u
  | .branch _ => False
  | .impl f => ∀ u, g (f u) = g u
  | .stack f => ∀ u w, f u = .ok () w → g w = g u

/-- The operand class a shape is the shape of (R161). -/
def Shape.operandClass : Shape → OperandClass
  | .read _ _ => .read
  | .write _ => .write
  | .rmw _ => .rmw
  | .jump _ => .jump
  | .branch _ => .branch
  | .impl _ => .impl
  | .stack _ => .stack

theorem shapeOf_operandClass (i : Instr) : (shapeOf i).operandClass = i.mnemonic.operandClass := by
  unfold shapeOf
  cases i.mnemonic <;> rfl

set_option maxRecDepth 2000 in
/-- R197, R198: the penalised rows and the rows of the branches, evaluated over the operation table. -/
theorem operationTable_cycles : ∀ r ∈ operationTable,
    (r.pageCross = true ↔ r.mnemonic ∈ [.adc, .and, .cmp, .eor, .lda, .ldx, .ldy, .ora, .sbc] ∧
      r.mode ∈ [.indexedAbsoluteX, .indexedAbsoluteY, .indexedIndirectY]) ∧
    (r.pageCross = true → r.mnemonic.operandClass = .read ∧ r.cycles ≤ 6) ∧
    (r.mnemonic.operandClass = .branch → r.cycles = 2) ∧
    2 ≤ r.cycles ∧ r.cycles ≤ 7 := by decide

section

variable {α : Type} {g : State → α} {i : Instr} {s t : State}

theorem IgnoresData.readOnly (hg : IgnoresData g) (h : ReadOnly s t) : g t = g s := by
  rw [h.state]
  exact hg s _ _ _ _ _ _

theorem IgnoresData.memWrite (hg : IgnoresData g) {a : Word} {v : Byte}
    (h : memWrite a v s = .ok () t) : g t = g s := by
  rw [memWrite_state h]
  exact hg s _ _ _ _ _ _

theorem IgnoresData.stackFrame (hg : IgnoresData g) (h : StackFrame s t) : g t = g s := by
  rw [StackFrame] at h
  rw [h]
  exact hg s _ _ _ _ _ _

/-- Only a READ-class instruction pays for a page crossing. -/
theorem cost_of_not_read (h : i.mnemonic.operandClass ≠ .read) (r : Resolved) :
    i.row.cycles + crossExtra i.row.pageCross r = i.row.cycles := by
  obtain ⟨-, hread, -⟩ := operationTable_cycles i.row i.row_mem_operationTable
  have hp : i.row.pageCross = false := Bool.eq_false_iff.2 fun hp => h (hread hp).1
  rw [hp]
  rfl

theorem resolve_of_impl_or_stack
    (h : i.mnemonic.operandClass = .impl ∨ i.mnemonic.operandClass = .stack) (s : State) :
    resolve i.mode i.param s = .ok ⟨none, false⟩ s := by
  have htaken := Instr.mode_taken i
  have hm : i.mode = .implicit := by
    rcases h with h | h <;> rw [h] at htaken <;> exact eq_of_beq htaken
  rw [hm]
  rfl

/-- An instruction other than a branch that completes has resolved its address, kept what its parts keep,
and added to CYC the cycles of its row and the page-cross cycle. -/
theorem Shape.Preserves.run {sh : Shape} (hg : IgnoresData g) (hp : sh.Preserves g)
    (hc : sh.operandClass = i.mnemonic.operandClass) (h : sh.run i s = .ok () t) :
    ∃ r s1 u, resolve i.mode i.param s = .ok r s1 ∧ g u = g s ∧
      t = u.account (i.row.cycles + crossExtra i.row.pageCross r) := by
  have hcost (hne : sh.operandClass ≠ .read) := cost_of_not_read (i := i) (hc ▸ hne)
  cases sh with
  | read chk f =>
    obtain ⟨hchk, hf⟩ := hp
    obtain ⟨r, s1, v, s2, hr, hro, rfl⟩ := readClass_ok hchk h
    exact ⟨r, s1, f v s2, hr, (hf v s2).trans (hg.readOnly hro), rfl⟩
  | write reg =>
    obtain ⟨r, s1, ea, u, hr, -, hw, rfl⟩ := writeClass_ok h
    exact ⟨r, s1, u, hr, (hg.memWrite hw).trans (hg.readOnly (resolve_readOnly hr)),
      by rw [hcost nofun]⟩
  | rmw f =>
    rcases rmwClass_ok h with ⟨hm, rfl⟩ | ⟨-, r, s1, ea, v, s2, u, hr, -, hrd, hw, rfl⟩
    · exact ⟨⟨none, false⟩, s, { (f s.A s).2 with A := (f s.A s).1 }, by rw [hm]; rfl,
        (hg (f s.A s).2 _ _ _ _ _ _).trans (hp s.A s), by rw [hcost nofun]⟩
    · have hro := (resolve_readOnly hr).trans (memRead_readOnly hrd)
      exact ⟨r, s1, u, hr, ((hg.memWrite hw).trans (hp v s2)).trans (hg.readOnly hro),
        by rw [hcost nofun]⟩
  | jump f =>
    obtain ⟨r, s1, ea, u, hr, -, hf, rfl⟩ := jumpClass_ok h
    exact ⟨r, s1, u, hr, (hp ea s1 u hf).trans (hg.readOnly (resolve_readOnly hr)),
      by rw [hcost nofun]⟩
  | branch cond => exact hp.elim
  | impl f =>
    cases h
    exact ⟨_, s, f s, resolve_of_impl_or_stack (.inl hc.symm) s, hp s, by rw [hcost nofun]⟩
  | stack f =>
    obtain ⟨u, hf, rfl⟩ := stackClass_ok h
    exact ⟨_, s, u, resolve_of_impl_or_stack (.inr hc.symm) s, hp s u hf, by rw [hcost nofun]⟩

/-- Every instruction other than a branch keeps a reading that ignores data; one that writes PC, a
reading that ignores PC too. -/
theorem shapeOf_preserves (hg : IgnoresData g) (hb : i.mnemonic.operandClass ≠ .branch)
    (hpc : i.mnemonic ∈ pcWriterMnemonics → ∀ s pc, g { s with PC := pc } = g s) :
    (shapeOf i).Preserves g := by
  unfold shapeOf
  cases hm : i.mnemonic <;> rw [hm] at hb hpc
  case bcc | bcs | beq | bmi | bne | bpl | bvc | bvs => exact absurd rfl hb
  case cmp | cpx | cpy | bit | lda | ldx | ldy | and | ora | eor =>
    exact ⟨unchecked_ok, fun v u => hg u _ _ _ _ _ _⟩
  case adc | sbc => exact ⟨decimalCheck_ok _ _, fun v u => hg u _ _ _ _ _ _⟩
  case sta | stx | sty => exact trivial
  case inc | dec | asl | lsr | rol | ror => exact fun v u => hg u _ _ _ _ _ _
  case tax | tay | txa | tya | tsx | txs | inx | iny | dex | dey | clc | cld | cli | clv | sec | sed
      | sei | nop => exact fun u => hg u _ _ _ _ _ _
  case pha | php => exact fun u w h => hg.stackFrame (push_frame h)
  case pla | plp =>
    intro u w h
    obtain ⟨v, x, hx, h⟩ := Res.andThen_eq_ok.1 h
    cases h
    exact (hg x _ _ _ _ _ _).trans (hg.stackFrame (pull_frame hx))
  case jmp =>
    intro ea u w h
    cases h
    exact hpc (by decide) u ea
  case jsr =>
    intro ea u w h
    obtain ⟨_, x, hx, h⟩ := Res.andThen_eq_ok.1 h
    cases h
    exact (hpc (by decide) x ea).trans (hg.stackFrame (pushWord_frame hx))
  case rts =>
    intro u w h
    obtain ⟨v, x, hx, h⟩ := Res.andThen_eq_ok.1 h
    cases h
    exact (hpc (by decide) x _).trans (hg.stackFrame (pullWord_frame hx))
  case brk =>
    intro u w h
    rw [enterTrap_frame h]
    exact (hg { u with PC := w.PC } _ _ _ _ _ _).trans (hpc (by decide) u w.PC)
  case rti =>
    intro u w h
    obtain ⟨b, hw⟩ := returnFromTrap_frame h
    rw [hw]
    exact (hg { u with PC := w.PC } _ _ _ _ _ _).trans (hpc (by decide) u w.PC)

theorem exec_ok_of_not_branch (hg : IgnoresData g) (hb : i.mnemonic.operandClass ≠ .branch)
    (hpc : i.mnemonic ∈ pcWriterMnemonics → ∀ s pc, g { s with PC := pc } = g s)
    (h : exec i s = .next t) :
    ∃ r s1 u, resolve i.mode i.param s = .ok r s1 ∧ g u = g s ∧
      t = u.account (i.row.cycles + crossExtra i.row.pageCross r) :=
  (shapeOf_preserves hg hb hpc).run hg (shapeOf_operandClass i) (exec_eq_next h)

theorem shapeOf_branch (hb : i.mnemonic.operandClass = .branch) :
    ∃ cond, shapeOf i = .branch cond := by
  rw [← shapeOf_operandClass] at hb
  cases hs : shapeOf i with
  | branch cond => exact ⟨cond, rfl⟩
  | _ =>
    rw [hs] at hb
    cases hb

/-- R198: a branch costs 2 and moves PC to its target, at an extra cost, if it is taken. -/
theorem exec_branch_ok (hb : i.mnemonic.operandClass = .branch) (h : exec i s = .next t) :
    ∃ r ea, resolve i.mode i.param s = .ok r s ∧ r.ea = some ea ∧
      (t = { s with CYC := s.CYC + 2 } ∨
        t = { s with PC := ea, CYC := s.CYC + 2 + if r.crossed then 2 else 1 }) := by
  obtain ⟨-, -, hmode⟩ := operationTable_modes i.row i.row_mem_operationTable
  have hm : i.mode = .relative := hmode.2 hb
  obtain ⟨cond, hs⟩ := shapeOf_branch hb
  have hrun := exec_eq_next h
  rw [hs] at hrun
  obtain ⟨r, ea, hr, he, rfl⟩ := branchClass_ok hrun
  refine ⟨r, ea, by rw [hm]; exact hr, he, ?_⟩
  cases cond s with
  | false => exact .inl rfl
  | true => exact .inr (by rw [Nat.add_assoc]; rfl)

end

/-- R196 to R198: what an instruction that completes adds to CYC. -/
theorem exec_cycles {i : Instr} {s t : State} (h : exec i s = .next t) :
    ∃ r s1, resolve i.mode i.param s = .ok r s1 ∧
      (i.mnemonic.operandClass ≠ .branch →
        t.CYC = s.CYC + i.row.cycles + if i.row.pageCross ∧ r.crossed then 1 else 0) ∧
      (i.mnemonic.operandClass = .branch → i.row.cycles = 2 ∧
        (t = { s with CYC := s.CYC + 2 } ∨
         ∃ ea, r.ea = some ea ∧
           t = { s with PC := ea, CYC := s.CYC + 2 + if r.crossed then 2 else 1 })) := by
  by_cases hb : i.mnemonic.operandClass = .branch
  · obtain ⟨-, -, hcycles, -⟩ := operationTable_cycles i.row i.row_mem_operationTable
    obtain ⟨r, ea, hr, he, ht⟩ := exec_branch_ok hb h
    exact ⟨r, s, hr, fun hne => absurd hb hne,
      fun _ => ⟨hcycles hb, ht.imp_right fun ht => ⟨ea, he, ht⟩⟩⟩
  · obtain ⟨r, s1, u, hr, hu, rfl⟩ := exec_ok_of_not_branch (g := State.CYC)
      (fun _ _ _ _ _ _ _ => rfl) hb (fun _ _ _ => rfl) h
    refine ⟨r, s1, hr, fun _ => ?_, fun hb' => absurd hb' hb⟩
    rw [State.account_CYC, hu, crossExtra_eq, Nat.add_assoc]

theorem exec_cycles_bounds {i : Instr} {s t : State} (h : exec i s = .next t) :
    s.CYC + 2 ≤ t.CYC ∧ t.CYC ≤ s.CYC + 7 := by
  obtain ⟨-, hpenalty, -, hlow, hhigh⟩ := operationTable_cycles i.row i.row_mem_operationTable
  obtain ⟨r, -, -, hother, hbranch⟩ := exec_cycles h
  by_cases hb : i.mnemonic.operandClass = .branch
  · obtain ⟨-, rfl | ⟨ea, -, rfl⟩⟩ := hbranch hb
    · exact ⟨Nat.le_refl _, Nat.add_le_add_left (by decide) _⟩
    · dsimp only
      split <;> omega
  · rw [hother hb]
    split
    next hcross =>
      obtain ⟨-, hmax⟩ := hpenalty hcross.1
      omega
    next => omega

/-- A step adds to CYC what its instruction does: the fetch leaves it. -/
theorem step_cycles_bounds {s t : State} (h : step s = .next t) :
    s.CYC + 2 ≤ t.CYC ∧ t.CYC ≤ s.CYC + 7 := by
  obtain ⟨-, i, s1, hf, he⟩ := step_eq_next h
  have hCYC : s1.CYC = s.CYC := by rw [(fetch_ok hf).1]
  rw [← hCYC]
  exact exec_cycles_bounds he

/-- Settles O44: the cycles of each class shape, and the rows of the operation table. -/
theorem cycleAccounting : Obligations.CycleAccounting := by
  unfold Obligations.CycleAccounting
  exact ⟨fun _ _ _ => exec_cycles,
    fun i => (operationTable_cycles i.row i.row_mem_operationTable).1,
    fun _ _ => step_cycles_bounds⟩

/-- R199: an instruction whose rule does not write PC leaves it. -/
theorem exec_PC {i : Instr} {s t : State} (h : exec i s = .next t)
    (hi : i.mnemonic ∉ pcWriterMnemonics) (hb : i.mnemonic.operandClass ≠ .branch) :
    t.PC = s.PC := by
  obtain ⟨r, s1, u, -, hu, rfl⟩ := exec_ok_of_not_branch (g := State.PC)
    (fun _ _ _ _ _ _ _ => rfl) hb (fun hmem => absurd hmem hi) h
  exact hu

/-- NextPC as a number (R199). -/
theorem fetch_PC {s s1 : State} {i : Instr} (h : fetch s = .ok i s1) :
    s1.PC = BitVec.ofNat 16 (s.PC.toNat + 1 + i.mode.parameterSize) := by
  rw [(fetch_ok h).1, Instr.length, Nat.add_assoc, BitVec.ofNat_add s.PC.toNat, BitVec.ofNat_toNat,
    BitVec.setWidth_eq]

/-- Settles O45: the fetch leaves PC at NextPC, and an instruction that does not write PC keeps it. -/
theorem nextProgramCounter : Obligations.NextProgramCounter := by
  unfold Obligations.NextProgramCounter
  intro s t h
  obtain ⟨-, i, s1, hf, he⟩ := step_eq_next h
  refine ⟨i, s1, hf, fetch_PC hf, ?_⟩
  by_cases hi : i.mnemonic ∈ pcWriterMnemonics
  · exact .inr (.inl hi)
  · by_cases hb : i.mnemonic.operandClass = .branch
    · exact .inr (.inr hb)
    · exact .inl (exec_PC he hi hb)

/-! ## The branches (R198, R295 to R303) -/

theorem branchExtra_taken (ea : Option Word) (p q : Nat) :
    2 + branchExtra true ⟨ea, decide (p ≠ q)⟩ = if p = q then 3 else 4 := by
  by_cases h : p = q
  · simp [branchExtra, h]
  · simp [branchExtra, h]

/-- A branch completes, whatever its condition. -/
theorem branchClass_outcome (p : Byte) (cond : State → Bool) (s : State) :
    (branchClass (zext p) cond s).outcome =
      if cond s then
        .next { s with
          PC := BitVec.ofInt 16 (s.PC.toNat + p.toInt),
          CYC := s.CYC + if s.PC.toNat / 256 =
            (BitVec.ofInt 16 (s.PC.toNat + p.toInt)).toNat / 256 then 3 else 4 }
      else .next { s with CYC := s.CYC + 2 } := by
  rw [branchClass, resolve_relative, Res.andThen_ok, needEA, Res.andThen_ok, Res.outcome_ok]
  cases cond s with
  | false => rfl
  | true => simp only [State.account, branchExtra_taken, if_true]

/-- Settles O42: each branch is the BRANCH shape with its condition. -/
theorem branchInstructions : Obligations.BranchInstructions := by
  unfold Obligations.BranchInstructions
  intro s p target branch
  have hbranch (cond : State → Bool) : (branchClass (zext p) cond s).outcome = branch (cond s) :=
    branchClass_outcome p cond s
  exact ⟨hbranch fun s => !s.flags.C, rfl, hbranch fun s => s.flags.C, rfl,
    hbranch fun s => s.flags.Z, rfl, hbranch fun s => s.flags.N, rfl,
    hbranch fun s => !s.flags.Z, rfl, hbranch fun s => !s.flags.N, rfl,
    hbranch fun s => !s.flags.V, rfl, hbranch fun s => s.flags.V, rfl⟩

/-! ## The trace record (R202) -/

theorem stepTrace_of_fetch {s s1 t : State} {i : Instr} (hf : fetch s = .ok i s1)
    (h : step s = .next t) :
    stepTrace s = some { pcFetch := s.PC, mnemonic := i.mnemonic, mode := i.mode,
                         raw := rawParameter i, resolved := resolvedParameter i s1 } := by
  rw [stepTrace, h, hf]

theorem stepWithTrace_of_next {s t : State} (h : step s = .next t) :
    stepWithTrace s = .next (t, stepTrace s) := by
  rw [stepWithTrace, h]

/-- A step that fails or is refused has no record. -/
theorem stepTrace_eq_none {s : State} (h : ∀ t, step s ≠ .next t) : stepTrace s = none := by
  unfold stepTrace
  split
  next t _ _ ht _ => exact absurd ht (h t)
  next => rfl

theorem rawParameter_eq (i : Instr) :
    rawParameter i = if i.length = 1 then none else some i.param := by
  simp only [rawParameter, Instr.length, Nat.add_eq_left]

/-- The resolved parameter of a mode with an effective address is that address. -/
theorem resolvedParameter_of_resolve {i : Instr} {s s1 : State} {r : Resolved}
    (h1 : i.mode ≠ .implicit) (h2 : i.mode ≠ .accumulator) (h3 : i.mode ≠ .immediate)
    (h : resolve i.mode i.param s = .ok r s1) : resolvedParameter i s = r.ea := by
  unfold resolvedParameter
  split
  next hm => exact absurd hm h1
  next hm => exact absurd hm h2
  next hm => exact absurd hm h3
  next => rw [h]

/-- Settles O54: the record is read off the fetch; the resolver answers where the step completes. -/
theorem traceRecordOfAStep : Obligations.TraceRecordOfAStep := by
  unfold Obligations.TraceRecordOfAStep
  refine fun s i s1 t hf h => ⟨⟨resolvedParameter i s1, ?_, fun hm => ?_, fun hm => ?_,
    fun hlen hne => ?_⟩, fun _ => stepTrace_eq_none⟩
  · rw [stepWithTrace_of_next h, stepTrace_of_fetch hf h, rawParameter_eq]
  · rcases hm with hm | hm <;> simp only [resolvedParameter, hm]
  · simp only [resolvedParameter, hm]
  · have h1 : i.mode ≠ .implicit := fun hm => hlen (by rw [Instr.length, hm]; rfl)
    have h2 : i.mode ≠ .accumulator := fun hm => hlen (by rw [Instr.length, hm]; rfl)
    obtain ⟨-, j, s1', hf', he⟩ := step_eq_next h
    rw [hf] at hf'
    cases hf'
    obtain ⟨r, s2, hr, -⟩ := exec_cycles he
    obtain ⟨ea, hea⟩ := resolve_ea hr h1 h2 hne
    exact ⟨r, s2, ea, hr, hea, (resolvedParameter_of_resolve h1 h2 hne hr).trans hea⟩

/-! ## Completion where every address is mapped (R83, R190, R251) -/

theorem not_busError_of_mapped {s : State} {e : CoreError} (hmap : ∀ a, s.mapped a) :
    ¬ BusError s.bus.chunks e := by
  rintro (⟨hnone, -⟩ | ⟨-, a, -, -, hun⟩)
  · obtain ⟨cs, hcs, -⟩ := hmap 0
    rw [hnone] at hcs
    cases hcs
  · exact hun s rfl (hmap a)

/-- Of the errors an instruction can raise none is left. -/
theorem exec_of_mapped {i : Instr} {s : State} (hmap : ∀ a, s.mapped a)
    (hdec : s.refusesDecimal → i.mnemonic ≠ .adc ∧ i.mnemonic ≠ .sbc) : ∃ t, exec i s = .next t := by
  have hraises := shape_run_raises i s
  rw [exec_eq_run]
  cases hrun : (shapeOf i).run i s with
  | ok _ t => exact ⟨t, rfl⟩
  | err e t =>
    rw [hrun] at hraises
    rcases hraises with hbus | ⟨-, hrefuse, hi⟩
    · exact absurd hbus (not_busError_of_mapped hmap)
    · obtain ⟨hadc, hsbc⟩ := hdec hrefuse
      exact absurd hi (not_or.2 ⟨hadc, hsbc⟩)

/-- Settles O58: no error can be raised, and an instruction that completes costs 2 cycles or more. -/
theorem everyInstructionCompletes : Obligations.EveryInstructionCompletes := by
  unfold Obligations.EveryInstructionCompletes
  intro i s hmap hdec
  obtain ⟨t, ht⟩ := exec_of_mapped hmap hdec
  have hk := exec_keeps ht
  obtain ⟨hcyc, -⟩ := exec_cycles_bounds ht
  exact ⟨t, ht, hk.fault, hk.chunks, by omega⟩

/-! ## The accesses on a bus that is one device (R93, R193, R205, R291, R293) -/

/-- The bus is the device `d` over the whole address space. -/
def State.OneDevice (d : Nat) (s : State) : Prop :=
  s.bus.chunks = some [{ start := 0, size := 0x10000, kind := .device d }]

theorem State.OneDevice.of_chunks {d : Nat} {s t : State} (h : s.OneDevice d)
    (hc : t.bus.chunks = s.bus.chunks) : t.OneDevice d := hc.trans h

/-- The state after a push to the device `d`. -/
def State.pushedTo (d : Nat) (v : Byte) (s : State) : State :=
  { s.seen (.write d (stackAddress s.SP).toNat v) with SP := s.SP - 1 }

@[simp] theorem State.seen_io (ev : IoEvent) (s : State) : (s.seen ev).bus.io = ev :: s.bus.io := rfl

@[simp] theorem State.pushedTo_SP (d : Nat) (v : Byte) (s : State) :
    (s.pushedTo d v).SP = s.SP - 1 := rfl

@[simp] theorem State.pushedTo_io (d : Nat) (v : Byte) (s : State) :
    (s.pushedTo d v).bus.io = .write d (stackAddress s.SP).toNat v :: s.bus.io := rfl

/-- What the device `d` has seen of `k` reads from `pc` upward, latest first. -/
def readsUpward (d : Nat) (pc : Word) (k : Nat) : List IoEvent :=
  ((List.range k).map fun j => .read d (pc + BitVec.ofNat 16 j).toNat).reverse

/-- The state after `k` fetched bytes from the device `d`. -/
def State.fetchedFrom (d k : Nat) (s : State) : State :=
  { s.past k with bus := { s.bus with io := readsUpward d s.PC k ++ s.bus.io } }

theorem readsUpward_succ (d : Nat) (pc : Word) (k : Nat) :
    readsUpward d pc (k + 1) = .read d (pc + BitVec.ofNat 16 k).toNat :: readsUpward d pc k := by
  rw [readsUpward, List.range_succ, List.map_append, List.reverse_append]
  rfl

theorem State.fetchedFrom_zero (d : Nat) (s : State) : s.fetchedFrom d 0 = s := by
  rw [State.fetchedFrom, State.past_zero]
  rfl

section

variable {d : Nat} {s : State} (h : s.OneDevice d)

include h

theorem locate_oneDevice (a : Word) (k : AccessKind) :
    locate s.bus.chunks a k = .ok (.device d, a.toNat) := by
  rw [h]
  refine locate_of_firstCovering (firstCovering_append (pre := []) nofun ?_) k
  exact decide_eq_true ⟨Nat.zero_le _, by simpa using a.isLt⟩

theorem memRead_oneDevice (a : Word) :
    memRead a s = .ok (Config.deviceRead d a.toNat s.bus.io) (s.seen (.read d a.toNat)) :=
  memRead_of_locate_device (locate_oneDevice h a .read)

theorem memWrite_oneDevice (a : Word) (v : Byte) :
    memWrite a v s = .ok () (s.seen (.write d a.toNat v)) :=
  memWrite_of_locate_device v (locate_oneDevice h a .write)

/-- A word read is two events, the low byte's first. -/
theorem readPair_oneDevice (al ah : Word) :
    readPair al ah s = .ok
      (BitVec.ofNat 16 ((Config.deviceRead d al.toNat s.bus.io).toNat +
        256 * (Config.deviceRead d ah.toNat (.read d al.toNat :: s.bus.io)).toNat))
      ((s.seen (.read d al.toNat)).seen (.read d ah.toNat)) :=
  readPair_ok (memRead_oneDevice h al)
    (memRead_oneDevice (s := s.seen (.read d al.toNat)) (h.of_chunks rfl) ah)

theorem push_oneDevice (v : Byte) : push v s = .ok () (s.pushedTo d v) :=
  push_ok (memWrite_oneDevice h _ v)

theorem pushWord_oneDevice (w : Word) :
    pushWord w s = .ok () ((s.pushedTo d (hi w)).pushedTo d (lo w)) := by
  have hlow := push_oneDevice (s := s.pushedTo d (hi w)) (h.of_chunks rfl) (lo w)
  rw [pushWord, push_oneDevice h, Res.andThen_ok, hlow]

/-- Taking a trap is three writes downward and the two reads of the vector upward. -/
theorem enterTrap_oneDevice (ret : Word) (status : Byte) (vector : Word) :
    ∃ t, enterTrap ret status vector s = .ok () t ∧ t.bus.io =
      [.read d (vector + 1).toNat, .read d vector.toNat,
        .write d (stackAddress (s.SP - 2)).toNat status,
        .write d (stackAddress (s.SP - 1)).toNat (lo ret),
        .write d (stackAddress s.SP).toNat (hi ret)] ++ s.bus.io := by
  have hstatus := push_oneDevice (s := (s.pushedTo d (hi ret)).pushedTo d (lo ret))
    (h.of_chunks rfl) status
  have hSP : s.SP - 1 - 1 = s.SP - 2 := by rw [BitVec.sub_sub]; rfl
  rw [enterTrap, pushWord_oneDevice h, Res.andThen_ok, hstatus, Res.andThen_ok, read16,
    readPair_oneDevice (d := d), Res.andThen_ok, ← hSP]
  · refine ⟨_, rfl, ?_⟩
    simp only [State.seen_io, State.pushedTo_io, State.pushedTo_SP, List.cons_append, List.nil_append]
  · exact h.of_chunks rfl

theorem fetchByte_oneDevice (k : Nat) :
    ∃ v, fetchByte (s.fetchedFrom d k) = .ok v (s.fetchedFrom d (k + 1)) := by
  have hnext : s.fetchedFrom d (k + 1) =
      { (s.fetchedFrom d k).seen (.read d (s.fetchedFrom d k).PC.toNat) with
        PC := (s.fetchedFrom d k).PC + 1 } := by
    rw [State.fetchedFrom, readsUpward_succ, ← State.past_succ]
    rfl
  rw [fetchByte, memRead_oneDevice (s := s.fetchedFrom d k) (h.of_chunks rfl), Res.andThen_ok, hnext]
  exact ⟨_, rfl⟩

/-- A fetch reads the bytes of the instruction upward, and the opcode byte alone if it is unassigned. -/
theorem fetch_oneDevice :
    (∃ i, fetch s = .ok i (s.fetchedFrom d i.length)) ∨
      ∃ e, fetch s = .err e (s.fetchedFrom d 1) := by
  obtain ⟨op, hop⟩ := fetchByte_oneDevice h 0
  obtain ⟨l, hl⟩ := fetchByte_oneDevice h 1
  obtain ⟨hb, hh⟩ := fetchByte_oneDevice h 2
  rw [State.fetchedFrom_zero, Nat.zero_add] at hop
  cases hf : formOf op with
  | none => exact .inr ⟨.unknownOpcode op s.PC, by simp only [fetch, hop, Res.andThen_ok, hf]⟩
  | some f =>
    left
    obtain ⟨i, rfl, -, ho⟩ | ⟨mk, rfl, hmk⟩ | ⟨mk, rfl, hmk⟩ := formOf_some hf
    · exact ⟨i, length_of_operand_none ho ▸ fetch_of_formOf_f1 hop hf⟩
    · exact ⟨mk l, length_of_operand_byte (hmk l).2 ▸ fetch_of_formOf_f2 hop hf hl⟩
    · exact ⟨mk (wordOf l hb),
        length_of_operand_word (hmk (wordOf l hb)).2 ▸ fetch_of_formOf_f3 hop hf hl hh⟩

/-- BRK: the trap entry and no other access. -/
theorem exec_brk_oneDevice : ∃ t, exec .brk s = .next t ∧ t.bus.io =
    [.read d 0xFFFF, .read d 0xFFFE,
      .write d (stackAddress (s.SP - 2)).toNat (s.flags.toByte ||| 0x30),
      .write d (stackAddress (s.SP - 1)).toNat (lo (s.PC + 1)),
      .write d (stackAddress s.SP).toNat (hi (s.PC + 1))] ++ s.bus.io := by
  have hlow : irqVector.toNat = 0xFFFE := rfl
  have hhigh : (irqVector + 1).toNat = 0xFFFF := rfl
  obtain ⟨t, ht, hio⟩ := enterTrap_oneDevice h (s.PC + 1) s.flags.pushedByProgram irqVector
  rw [hlow, hhigh, Flags.pushedByProgram] at hio
  have hexec : exec .brk s = (stackClass 7 brkEffect s).outcome := rfl
  rw [hexec, stackClass, brkEffect, ht, Res.andThen_ok]
  exact ⟨_, rfl, hio⟩

/-- JSR: the two pushes and no other access. -/
theorem exec_jsrAbs_oneDevice (p : Word) : ∃ t, exec (.jsrAbs p) s = .next t ∧ t.bus.io =
    [.write d (stackAddress (s.SP - 1)).toNat (lo (s.PC - 1)),
      .write d (stackAddress s.SP).toNat (hi (s.PC - 1))] ++ s.bus.io := by
  have hexec : exec (.jsrAbs p) s =
      ((jsrEffect p s).andThen fun _ u => .ok () (u.account 6)).outcome := rfl
  rw [hexec, jsrEffect, pushWord_oneDevice h]
  exact ⟨_, rfl, rfl⟩

/-- STA (zp),Y: the two reads of the pointer, then the one write. -/
theorem exec_staIndY_oneDevice (p : Byte) :
    ∃ t, exec (.staIndY p) s = .next t ∧ t.bus.io =
      [.write d (((Config.deviceRead d p.toNat s.bus.io).toNat +
          256 * (Config.deviceRead d ((p.toNat + 1) % 256) (.read d p.toNat :: s.bus.io)).toNat +
            s.Y.toNat) % 65536) s.A,
        .read d ((p.toNat + 1) % 256), .read d p.toNat] ++ s.bus.io := by
  have hhigh : (zext (p + 1)).toNat = (p.toNat + 1) % 256 := by
    rw [zext_toNat, BitVec.toNat_add]
    rfl
  have hpointer := readPair_oneDevice h (zext p) (zext (p + 1))
  rw [zext_toNat, hhigh] at hpointer
  have hresolve := resolve_indexedIndirectY hpointer
  have hexec : exec (.staIndY p) s = (writeClass .indexedIndirectY (zext p) 6 State.A s).outcome :=
    rfl
  rw [toNat_ofNat_pair] at hresolve
  rw [hexec, writeClass_of_ea hresolve rfl, memWrite_oneDevice (d := d), BitVec.toNat_ofNat]
  · exact ⟨_, rfl, rfl⟩
  · exact h.of_chunks rfl

end

/-- Settles O13: each part of a step is run as the sequence of its events at the device. -/
theorem accessOrderOnTheBus : Obligations.AccessOrderOnTheBus := by
  unfold Obligations.AccessOrderOnTheBus
  intro s d h
  refine ⟨?_, exec_brk_oneDevice h, exec_jsrAbs_oneDevice h, exec_staIndY_oneDevice h⟩
  obtain ⟨i, hi⟩ | ⟨e, he⟩ := fetch_oneDevice h
  · rw [hi]
    rfl
  · rw [he]
    have hPC : s.PC + BitVec.ofNat 16 0 = s.PC := BitVec.add_zero s.PC
    show readsUpward d s.PC 1 ++ s.bus.io = _
    rw [readsUpward_succ, hPC]
    rfl

end Sys2Proof.Machine
end

section
/-! PROOF. The statements of the family 42_compare_bit.md: the flags the compares and BIT assign, and
that they change nothing else. -/

namespace Sys2Proof.Machine

/-! ## The unchecked READ shape, in terms of its operand read (R161, R196, R197) -/

section

variable {i : Instr} {f : Byte → State → State} {s t : State}

/-- An unchecked READ whose operand is readable is its effect, the cost of the row, and the bus the
operand read leaves. -/
theorem exec_read_of_readOperand_ok (hs : shapeOf i = .read unchecked f) {r : Resolved} {v : Byte}
    (h : readOperand i.mode i.param s = .ok (r, v) t) (hf : ∀ u, (f v u).CYC = u.CYC) :
    exec i s = .next { f v { s with bus := t.bus } with
      CYC := s.CYC + i.row.cycles + if i.row.pageCross ∧ r.crossed then 1 else 0 } := by
  have ht : t = { s with bus := t.bus } := (readOperand_readOnly h).state
  have hcyc : t.CYC = s.CYC := by rw [ht]
  rw [exec_eq_run, hs, Shape.run, readClass_unchecked_ok h, Res.outcome_ok, State.account, hf, hcyc,
    crossExtra_eq, Nat.add_assoc, ← ht]

theorem exec_read_of_readOperand_err (hs : shapeOf i = .read unchecked f) {e : CoreError}
    (h : readOperand i.mode i.param s = .err e t) : exec i s = .fault (.raised e t.bus) := by
  rw [exec_eq_run, hs, Shape.run, readClass_unchecked_err h, Res.outcome_err]

end

/-! ## The compares and BIT (R220 to R224) -/

/-- Settles O30: each of the four is an unchecked READ that assigns its flags. -/
theorem compareAndBitTestInstructions : Obligations.CompareAndBitTestInstructions := by
  unfold Obligations.CompareAndBitTestInstructions
  refine ⟨rfl, rfl, rfl, rfl, fun i s s1 => ⟨fun r v h => ?_, fun e h hi => ?_⟩⟩
  · have hnext (f : Byte → State → State) (hf : ∀ u, (f v u).CYC = u.CYC)
        (hs : shapeOf i = .read unchecked f) := exec_read_of_readOperand_ok hs h hf
    exact ⟨fun hm => hnext cmpEffect (fun _ => rfl) (by rw [shapeOf, hm]),
      fun hm => hnext cpxEffect (fun _ => rfl) (by rw [shapeOf, hm]),
      fun hm => hnext cpyEffect (fun _ => rfl) (by rw [shapeOf, hm]),
      fun hm => hnext bitEffect (fun _ => rfl) (by rw [shapeOf, hm]),
      (readOperand_readOnly h).byteAt⟩
  · obtain ⟨f, hs, -⟩ := shapeOf_compare hi
    exact exec_read_of_readOperand_err hs h

end Sys2Proof.Machine
end

section
/-! PROOF. The statements of the family 43_load_store_transfer.md: what the loads, the stores and the
transfers write, and that they change nothing else. -/

namespace Sys2Proof.Machine

/-! ## The loads (R230 to R232) -/

/-- LDA, LDX and LDY have an unchecked READ shape. -/
theorem shapeOf_load {i : Instr} (h : i.mnemonic ∈ [.lda, .ldx, .ldy]) :
    ∃ f, shapeOf i = .read unchecked f := by
  simp only [List.mem_cons, List.not_mem_nil, or_false] at h
  unfold shapeOf
  rcases h with h | h | h <;> rw [h] <;> exact ⟨_, rfl⟩

/-- Settles O23: each of the three is an unchecked READ that assigns its register, Z and N. -/
theorem loadInstructions : Obligations.LoadInstructions := by
  unfold Obligations.LoadInstructions
  refine ⟨rfl, rfl, rfl, fun i s s1 => ⟨fun r v h => ?_, fun e h hi => ?_⟩⟩
  · have hnext (f : Byte → State → State) (hf : ∀ u, (f v u).CYC = u.CYC)
        (hs : shapeOf i = .read unchecked f) := exec_read_of_readOperand_ok hs h hf
    exact ⟨fun hm => hnext ldaEffect (fun _ => rfl) (by rw [shapeOf, hm]),
      fun hm => hnext ldxEffect (fun _ => rfl) (by rw [shapeOf, hm]),
      fun hm => hnext ldyEffect (fun _ => rfl) (by rw [shapeOf, hm]),
      (readOperand_readOnly h).byteAt⟩
  · obtain ⟨f, hs⟩ := shapeOf_load hi
    exact exec_read_of_readOperand_err hs h

/-! ## The WRITE shape, in terms of its resolver and its write (R161, R196) -/

section

variable {i : Instr} {reg : State → Byte} {s s1 t : State} {e : CoreError}

theorem exec_write_of_resolve_err (hs : shapeOf i = .write reg)
    (hr : resolve i.mode i.param s = .err e s1) : exec i s = .fault (.raised e s1.bus) := by
  rw [exec_eq_run, hs, Shape.run, writeClass, hr, Res.andThen_err, Res.outcome_err]

variable {r : Resolved} {ea : Word}

/-- With an effective address, a WRITE is its write of the register, which the pointer reads leave, and
the cost of the row. -/
theorem exec_write_of_ea (hs : shapeOf i = .write reg) (hreg : ∀ b, reg { s with bus := b } = reg s)
    (hr : resolve i.mode i.param s = .ok r s1) (he : r.ea = some ea) :
    exec i s = ((memWrite ea (reg s) s1).andThen fun _ u => .ok () (u.account i.row.cycles)).outcome := by
  have hv : reg s1 = reg s := by rw [(resolve_readOnly hr).state, hreg]
  rw [exec_eq_run, hs, Shape.run, writeClass_of_ea hr he, hv]

theorem exec_write_of_memWrite_ok (hs : shapeOf i = .write reg)
    (hreg : ∀ b, reg { s with bus := b } = reg s) (hr : resolve i.mode i.param s = .ok r s1)
    (he : r.ea = some ea) (hw : memWrite ea (reg s) s1 = .ok () t) :
    exec i s = .next { s with CYC := s.CYC + i.row.cycles, bus := t.bus } := by
  have ht : t = { s with bus := t.bus } := by
    rw [memWrite_state hw, (resolve_readOnly hr).state]
  rw [exec_write_of_ea hs hreg hr he, hw, Res.andThen_ok, Res.outcome_ok, ht, State.account]

/-- A failing write leaves the bus as the resolver left it. -/
theorem exec_write_of_memWrite_err (hs : shapeOf i = .write reg)
    (hreg : ∀ b, reg { s with bus := b } = reg s) (hr : resolve i.mode i.param s = .ok r s1)
    (he : r.ea = some ea) (hw : memWrite ea (reg s) s1 = .err e t) :
    exec i s = .fault (.raised e s1.bus) := by
  obtain ⟨rfl, -⟩ := memWrite_err hw
  rw [exec_write_of_ea hs hreg hr he, hw, Res.andThen_err, Res.outcome_err]

/-- After reads, a write puts its byte at every address the store reaches. -/
theorem ReadOnly.memWrite_reached {v : Byte} {a : Word} (ro : ReadOnly s s1)
    (hwf : s.bus.mem.wf = true) (h : memWrite ea v s1 = .ok () t) (ha : s.storeReaches ea a) :
    t.byteAt a = some v := by
  rw [← ro.mem] at hwf
  rw [← ro.storeReaches_iff] at ha
  exact memWrite_byteAt_of_reached hwf h ha

/-- What a WRITE does where the resolver gives an address: it completes where its write does, and changes
the bytes the store reaches. -/
theorem exec_write_spec (hs : shapeOf i = .write reg) (hreg : ∀ b, reg { s with bus := b } = reg s)
    (hr : resolve i.mode i.param s = .ok r s1) (he : r.ea = some ea) (hwf : s.bus.mem.wf = true) :
    (∀ t, memWrite ea (reg s) s1 = .ok () t →
      exec i s = .next { s with CYC := s.CYC + i.row.cycles, bus := t.bus } ∧
      (∀ a, ¬ s.storeReaches ea a → t.byteAt a = s.byteAt a) ∧
      ∀ a, s.storeReaches ea a → t.byteAt a = some (reg s)) ∧
    ∀ e t, memWrite ea (reg s) s1 = .err e t → exec i s = .fault (.raised e s1.bus) := by
  have hro := resolve_readOnly hr
  exact ⟨fun t hw => ⟨exec_write_of_memWrite_ok hs hreg hr he hw,
      fun a => hro.memWrite_unreached hwf hw, fun a => hro.memWrite_reached hwf hw⟩,
    fun e t => exec_write_of_memWrite_err hs hreg hr he⟩

end

/-- The WRITE class takes only modes with an effective address (R160, R161). -/
theorem resolve_ea_of_write {i : Instr} (hc : i.mnemonic.operandClass = .write) {s s1 : State}
    {r : Resolved} (hr : resolve i.mode i.param s = .ok r s1) : ∃ ea, r.ea = some ea := by
  have htakes := Instr.mode_taken i
  rw [hc] at htakes
  apply resolve_ea hr <;>
    · intro hm
      rw [hm] at htakes
      cases htakes

/-! ## The stores (R233 to R235) -/

/-- Settles O24: each of the three is a WRITE of its register at the address the resolver gives. -/
theorem storeInstructions : Obligations.StoreInstructions := by
  unfold Obligations.StoreInstructions
  refine ⟨rfl, rfl, rfl, fun i s s1 hwf => ⟨fun r ea hr he => ?_, fun e hr hi => ?_, fun hi r hr => ?_⟩⟩
  · have hstore (reg : State → Byte) (hreg : ∀ b, reg { s with bus := b } = reg s)
        (hs : shapeOf i = .write reg) := exec_write_spec hs hreg hr he hwf
    exact ⟨fun hm => hstore State.A (fun _ => rfl) (by rw [shapeOf, hm]),
      fun hm => hstore State.X (fun _ => rfl) (by rw [shapeOf, hm]),
      fun hm => hstore State.Y (fun _ => rfl) (by rw [shapeOf, hm])⟩
  · obtain ⟨reg, hs⟩ := shapeOf_store hi
    exact exec_write_of_resolve_err hs hr
  · obtain ⟨reg, hs⟩ := shapeOf_store hi
    exact resolve_ea_of_write (by rw [← shapeOf_operandClass, hs, Shape.operandClass]) hr

/-! ## The transfers (R236 to R241) -/

/-- An IMPL instruction completes in every state, by its effect and the cost of the row. -/
theorem exec_impl {i : Instr} {f : State → State} (hs : shapeOf i = .impl f) (s : State) :
    exec i s = .next ((f s).account i.row.cycles) := by
  rw [exec_eq_run, hs, Shape.run, implClass, Res.outcome_ok]

/-- Settles O25: each transfer is the effect of its IMPL shape, at 2 cycles. -/
theorem transferInstructions : Obligations.TransferInstructions := by
  unfold Obligations.TransferInstructions
  intro s
  exact ⟨exec_impl (f := taxEffect) rfl s, exec_impl (f := tayEffect) rfl s,
    exec_impl (f := txaEffect) rfl s, exec_impl (f := tyaEffect) rfl s,
    exec_impl (f := tsxEffect) rfl s, exec_impl (f := txsEffect) rfl s, rfl, rfl, rfl, rfl, rfl, rfl⟩

end Sys2Proof.Machine
end

section
/-! PROOF. The statements of the family 44_arith_logic.md: what the arithmetic, logic, increment and
decrement instructions write, and that they change nothing else. -/

namespace Sys2Proof.Machine

/-! ## AND, ORA and EOR (R254 to R256) -/

/-- AND, ORA and EOR have an unchecked READ shape. -/
theorem shapeOf_logic {i : Instr} (h : i.mnemonic ∈ [.and, .ora, .eor]) :
    ∃ f, shapeOf i = .read unchecked f := by
  simp only [List.mem_cons, List.not_mem_nil, or_false] at h
  unfold shapeOf
  rcases h with h | h | h <;> rw [h] <;> exact ⟨_, rfl⟩

/-- Settles O29: each of the three is an unchecked READ that assigns A, Z and N. -/
theorem logicInstructions : Obligations.LogicInstructions := by
  unfold Obligations.LogicInstructions
  refine ⟨rfl, rfl, rfl, fun i s s1 => ⟨fun r v h => ?_, fun e h hi => ?_⟩⟩
  · have hnext (f : Byte → State → State) (hf : ∀ u, (f v u).CYC = u.CYC)
        (hs : shapeOf i = .read unchecked f) := exec_read_of_readOperand_ok hs h hf
    exact ⟨fun hm => hnext andEffect (fun _ => rfl) (by rw [shapeOf, hm]),
      fun hm => hnext oraEffect (fun _ => rfl) (by rw [shapeOf, hm]),
      fun hm => hnext eorEffect (fun _ => rfl) (by rw [shapeOf, hm]),
      (readOperand_readOnly h).byteAt⟩
  · obtain ⟨f, hs⟩ := shapeOf_logic hi
    exact exec_read_of_readOperand_err hs h

/-! ## The READ shape with the decimal check, where decimal arithmetic is not refused (R251) -/

section

variable {i : Instr} {op : Byte} {n : Word} {f : Byte → State → State} {s t : State}

/-- Where the check passes, a READ whose operand is readable is its effect, the cost of the row, and the
bus the operand read leaves. -/
theorem exec_decimal_of_readOperand_ok (hs : shapeOf i = .read (decimalCheck op n) f)
    (hd : ¬ s.refusesDecimal) {r : Resolved} {v : Byte}
    (h : readOperand i.mode i.param s = .ok (r, v) t) (hf : ∀ u, (f v u).CYC = u.CYC) :
    exec i s = .next { f v { s with bus := t.bus } with
      CYC := s.CYC + i.row.cycles + if i.row.pageCross ∧ r.crossed then 1 else 0 } := by
  have ht : t = { s with bus := t.bus } := (readOperand_readOnly h).state
  have hcyc : t.CYC = s.CYC := by rw [ht]
  rw [exec_eq_run, hs, Shape.run, readClass_decimal_ok hd h, Res.outcome_ok, State.account, hf, hcyc,
    crossExtra_eq, Nat.add_assoc, ← ht]

theorem exec_decimal_of_readOperand_err (hs : shapeOf i = .read (decimalCheck op n) f)
    (hd : ¬ s.refusesDecimal) {e : CoreError} (h : readOperand i.mode i.param s = .err e t) :
    exec i s = .fault (.raised e t.bus) := by
  rw [exec_eq_run, hs, Shape.run, readClass_decimal_err hd h, Res.outcome_err]

end

/-! ## ADC (R250, R252) -/

/-- The effect of ADC in numbers: the sum, its unsigned carry and its signed overflow. -/
theorem adcEffect_eq (v : Byte) (s : State) : adcEffect v s =
    { s with A := BitVec.ofNat 8 (s.A.toNat + v.toNat + s.flags.C.toNat),
             flags := { s.flags with C := decide (s.A.toNat + v.toNat + s.flags.C.toNat > 255),
                                     V := decide (s.A.toInt + v.toInt + s.flags.C.toNat < -128 ∨
                                       127 < s.A.toInt + v.toInt + s.flags.C.toNat)
                      }.setZN s.params.znPolicy
                        (BitVec.ofNat 8 (s.A.toNat + v.toNat + s.flags.C.toNat)) } := by
  rw [← addWithCarry_overflow]
  rfl

/-- Settles O26: ADC is a checked READ, and its effect is `adcEffect_eq`. -/
theorem addWithCarryInstruction : Obligations.AddWithCarryInstruction := by
  unfold Obligations.AddWithCarryInstruction
  refine ⟨rfl, fun i s s1 hi => ?_⟩
  have hs : shapeOf i = .read (decimalCheck i.opcode (BitVec.ofNat 16 i.length)) adcEffect := by
    rw [shapeOf, hi]
  refine ⟨fun r v hd h => ⟨?_, (readOperand_readOnly h).byteAt⟩, fun e hd h => ?_⟩
  · rw [exec_decimal_of_readOperand_ok hs hd h fun _ => rfl, adcEffect_eq]
  · exact exec_decimal_of_readOperand_err hs hd h

/-! ## SBC (R250, R253) -/

section

variable (a v : Byte) (c : Bool)

/-- The sum that SBC forms with the complement of v is the difference and 256. -/
theorem add_not_eq_sub : ((a.toNat + (~~~v).toNat + c.toNat : Nat) : Int) =
    (a.toNat - v.toNat - (1 - c.toNat) : Int) + 256 := by
  have hv := v.isLt
  rw [BitVec.toNat_not]
  omega

theorem ofNat_add_not : BitVec.ofNat 8 (a.toNat + (~~~v).toNat + c.toNat) =
    BitVec.ofInt 8 (a.toNat - v.toNat - (1 - c.toNat)) := by
  rw [← BitVec.ofInt_natCast, add_not_eq_sub]
  exact BitVec.eq_of_toInt_eq (by simp only [BitVec.toInt_ofInt]; exact Int.add_bmod_right ..)

/-- A carry out of that sum is no borrow. -/
theorem add_not_carry_iff : a.toNat + (~~~v).toNat + c.toNat > 255 ↔
    (0 : Int) ≤ a.toNat - v.toNat - (1 - c.toNat) := by
  have h := add_not_eq_sub a v c
  omega

/-- The same for signed numbers, where the complement of v is −v − 1. -/
theorem toInt_add_not : a.toInt + (~~~v).toInt + c.toNat = a.toInt - v.toInt - (1 - c.toNat) := by
  have hv := v.isLt
  rw [byte_toInt v, byte_toInt (~~~v), BitVec.toNat_not]
  split <;> split <;> omega

end

/-- The effect of SBC in numbers: the difference, no borrow and the signed overflow. -/
theorem sbcEffect_eq (v : Byte) (s : State) : sbcEffect v s =
    { s with A := BitVec.ofInt 8 (s.A.toNat - v.toNat - (1 - s.flags.C.toNat)),
             flags := { s.flags with C := decide ((0 : Int) ≤
                                       s.A.toNat - v.toNat - (1 - s.flags.C.toNat)),
                                     V := decide (s.A.toInt - v.toInt - (1 - s.flags.C.toNat) < -128 ∨
                                       127 < s.A.toInt - v.toInt - (1 - s.flags.C.toNat))
                      }.setZN s.params.znPolicy
                        (BitVec.ofInt 8 (s.A.toNat - v.toNat - (1 - s.flags.C.toNat))) } := by
  have hadc : sbcEffect v s = adcEffect (~~~v) s := rfl
  simp only [hadc, adcEffect_eq, ofNat_add_not, add_not_carry_iff, toInt_add_not]

/-- Settles O27: SBC is a checked READ, and its effect is `sbcEffect_eq`. -/
theorem subtractWithBorrowInstruction : Obligations.SubtractWithBorrowInstruction := by
  unfold Obligations.SubtractWithBorrowInstruction
  refine ⟨rfl, fun i s s1 hi => ?_⟩
  have hs : shapeOf i = .read (decimalCheck i.opcode (BitVec.ofNat 16 i.length)) sbcEffect := by
    rw [shapeOf, hi]
  refine ⟨fun r v hd h => ⟨?_, (readOperand_readOnly h).byteAt⟩, fun e hd h => ?_⟩
  · rw [exec_decimal_of_readOperand_ok hs hd h fun _ => rfl, sbcEffect_eq]
  · exact exec_decimal_of_readOperand_err hs hd h

/-! ## Steps of a byte by one (R257 to R262) -/

section

variable {v r : Byte}

theorem eq_add_one_of_toNat (h : r.toNat = (v.toNat + 1) % 256) : r = v + 1 :=
  BitVec.eq_of_toNat_eq h

theorem eq_sub_one_of_toNat (h : r.toNat = (v.toNat + 255) % 256) : r = v - 1 := by
  apply BitVec.eq_of_toNat_eq
  rw [h, BitVec.toNat_sub, Nat.add_comm]
  rfl

end

/-- Settles O32: each of the four is the effect of its IMPL shape, at 2 cycles. -/
theorem incrementDecrementRegister : Obligations.IncrementDecrementRegister := by
  unfold Obligations.IncrementDecrementRegister
  intro s
  refine ⟨fun r h => ?_, fun r h => ?_, fun r h => ?_, fun r h => ?_, rfl, rfl, rfl, rfl⟩
  · rw [eq_add_one_of_toNat h]
    exact exec_impl (f := inxEffect) rfl s
  · rw [eq_add_one_of_toNat h]
    exact exec_impl (f := inyEffect) rfl s
  · rw [eq_sub_one_of_toNat h]
    exact exec_impl (f := dexEffect) rfl s
  · rw [eq_sub_one_of_toNat h]
    exact exec_impl (f := deyEffect) rfl s

/-! ## The RMW shape in a memory mode, in terms of its resolver and its read (R161, R196) -/

section

variable {i : Instr} {f : Byte → State → Byte × State} {s s1 s2 t : State} {e : CoreError}

theorem exec_rmw_of_resolve_err (hs : shapeOf i = .rmw f) (hr : resolve i.mode i.param s = .err e s1) :
    exec i s = .fault (.raised e s1.bus) := by
  rw [exec_eq_run, hs, Shape.run, rmwClass, hr, Res.andThen_err, Res.outcome_err]

variable {r : Resolved} {ea : Word}

/-- A failing read leaves the bus as the resolver left it, and no write is made. -/
theorem exec_rmw_of_memRead_err (hs : shapeOf i = .rmw f) (hr : resolve i.mode i.param s = .ok r s1)
    (he : r.ea = some ea) (hm : memRead ea s1 = .err e t) : exec i s = .fault (.raised e s1.bus) := by
  obtain ⟨rfl, -⟩ := memRead_err hm
  rw [exec_eq_run, hs, Shape.run, rmwClass_of_ea hr he, hm, Res.andThen_err, Res.outcome_err]

/-- What an RMW does where its read answers: one write of the result, which completes, the flags of the
effect and the cost of the row. -/
theorem exec_rmw_memory (hs : shapeOf i = .rmw f) (hwf : s.bus.mem.wf = true) {v : Byte}
    (hr : resolve i.mode i.param s = .ok r s1) (he : r.ea = some ea) (hm : memRead ea s1 = .ok v s2)
    (hf : ∀ (v : Byte) (u : State), (f v u).2 = { u with flags := (f v u).2.flags })
    (hb : ∀ (v : Byte) (u : State) (b : Bus), (f v { u with bus := b }).1 = (f v u).1 ∧
      (f v { u with bus := b }).2.flags = (f v u).2.flags) :
    ∃ t, memWrite ea (f v s).1 s2 = .ok () t ∧
      exec i s =
        .next { s with flags := (f v s).2.flags, CYC := s.CYC + i.row.cycles, bus := t.bus } ∧
      (∀ a, ¬ s.storeReaches ea a → t.byteAt a = s.byteAt a) ∧
      ∀ a, s.storeReaches ea a → t.byteAt a = some (f v s).1 := by
  obtain ⟨t, hwrite, hrun, hbytes⟩ := rmwClass_memory hwf hr he hm hf hb
  exact ⟨t, hwrite, by rw [exec_eq_run, hs, Shape.run, hrun, Res.outcome_ok], hbytes⟩

end

/-! ## INC and DEC (R257, R258) -/

/-- INC and DEC have an RMW shape. -/
theorem shapeOf_incDec {i : Instr} (h : i.mnemonic ∈ [.inc, .dec]) : ∃ f, shapeOf i = .rmw f := by
  simp only [List.mem_cons, List.not_mem_nil, or_false] at h
  unfold shapeOf
  rcases h with h | h <;> rw [h] <;> exact ⟨_, rfl⟩

/-- Settles O31: both are an RMW that assigns Z and N. -/
theorem incrementDecrementMemory : Obligations.IncrementDecrementMemory := by
  unfold Obligations.IncrementDecrementMemory
  refine ⟨rfl, rfl, fun i s s1 hwf => ⟨fun r ea v s2 hr he hm res hres => ?_, fun hi => ?_⟩⟩
  · rcases hres with ⟨hi, hres⟩ | ⟨hi, hres⟩
    · rw [eq_add_one_of_toNat hres]
      exact exec_rmw_memory (f := incEffect) (by rw [shapeOf, hi]) hwf hr he hm (fun _ _ => rfl)
        fun _ _ _ => ⟨rfl, rfl⟩
    · rw [eq_sub_one_of_toNat hres]
      exact exec_rmw_memory (f := decEffect) (by rw [shapeOf, hi]) hwf hr he hm (fun _ _ => rfl)
        fun _ _ _ => ⟨rfl, rfl⟩
  · obtain ⟨f, hs⟩ := shapeOf_incDec hi
    exact ⟨fun e => exec_rmw_of_resolve_err hs, fun r ea e t => exec_rmw_of_memRead_err hs⟩

end Sys2Proof.Machine
end

section
/-! PROOF. The statements of the family 45_shift_rotate.md: what the shifts and rotates write, in A and
in memory, and that they change nothing else. -/

namespace Sys2Proof.Machine

/-! ## The RMW shape in ACCUMULATOR mode (R161, R163) -/

set_option maxRecDepth 2000 in
/-- The cost of the ACCUMULATOR rows, evaluated over the operation table. -/
theorem operationTable_accumulator_cycles :
    ∀ r ∈ operationTable, r.mode = .accumulator → r.cycles = 2 := by decide

/-- An RMW in ACCUMULATOR mode makes no access: it completes with the result for A in A. -/
theorem exec_rmw_accumulator {i : Instr} {f : Byte → State → Byte × State}
    (hs : shapeOf i = .rmw f) (hm : i.mode = .accumulator) (s : State) :
    exec i s = .next (State.account 2 { (f s.A s).2 with A := (f s.A s).1 }) := by
  have hc : i.row.cycles = 2 := operationTable_accumulator_cycles i.row i.row_mem_operationTable hm
  rw [exec_eq_run, hs, Shape.run, hm, hc]
  rfl

/-! ## What the four operations share (R271 to R274) -/

/-- The effect of a shift, by its result for an operand and the old C, and by the bit that leaves. -/
def shiftEffect (result : Byte → Bool → Byte) (out : Byte → Bool) (v : Byte) (s : State) :
    Byte × State :=
  (result v s.flags.C, shiftFlags (out v) (result v s.flags.C) s)

section

variable {i : Instr}

theorem shapeOf_asl (h : i.mnemonic = .asl) :
    shapeOf i = .rmw (shiftEffect (fun v _ => v <<< 1) (·.getLsbD 7)) := by
  rw [shapeOf, h]
  rfl

theorem shapeOf_lsr (h : i.mnemonic = .lsr) :
    shapeOf i = .rmw (shiftEffect (fun v _ => v >>> 1) (·.getLsbD 0)) := by
  rw [shapeOf, h]
  rfl

theorem shapeOf_rol (h : i.mnemonic = .rol) :
    shapeOf i = .rmw (shiftEffect (fun v c => (v <<< 1) ||| (BitVec.ofBool c).setWidth 8)
      (·.getLsbD 7)) := by
  rw [shapeOf, h]
  rfl

theorem shapeOf_ror (h : i.mnemonic = .ror) :
    shapeOf i = .rmw (shiftEffect (fun v c => (v >>> 1) ||| ((BitVec.ofBool c).setWidth 8 <<< 7))
      (·.getLsbD 0)) := by
  rw [shapeOf, h]
  rfl

end

/-- The value of ASL (R271). -/
theorem asl_toNat (v : Byte) : (v <<< 1).toNat = 2 * v.toNat % 256 := by
  rw [BitVec.toNat_shiftLeft, Nat.shiftLeft_eq, Nat.mul_comm]

/-- The value of LSR (R272). -/
theorem lsr_toNat (v : Byte) : (v >>> 1).toNat = v.toNat / 2 := by
  rw [BitVec.toNat_ushiftRight, Nat.shiftRight_eq_div_pow, Nat.pow_one]

/-! ## ASL, LSR, ROL and ROR (R270) -/

/-- Settles O33: each of the four is an RMW of its `shiftEffect`, and from there on they are alike. -/
theorem shiftsAndRotates : Obligations.ShiftsAndRotates := by
  unfold Obligations.ShiftsAndRotates
  refine ⟨rfl, rfl, rfl, rfl, fun i s s1 v res c hres => ?_⟩
  obtain ⟨result, out, hs, rfl, rfl⟩ : ∃ result out, shapeOf i = .rmw (shiftEffect result out) ∧
      res = result v s.flags.C ∧ c = out v := by
    rcases hres with ⟨hi, hr, hc⟩ | ⟨hi, hr, hc⟩ | ⟨hi, hr, hc⟩ | ⟨hi, hr, hc⟩
    · exact ⟨_, _, shapeOf_asl hi, BitVec.eq_of_toNat_eq (hr.trans (asl_toNat v).symm),
        hc.trans (getLsbD_seven v).symm⟩
    · exact ⟨_, _, shapeOf_lsr hi, BitVec.eq_of_toNat_eq (hr.trans (lsr_toNat v).symm),
        hc.trans (getLsbD_zero v).symm⟩
    · exact ⟨_, _, shapeOf_rol hi, BitVec.eq_of_toNat_eq (hr.trans (rol_toNat v _).symm),
        hc.trans (getLsbD_seven v).symm⟩
    · exact ⟨_, _, shapeOf_ror hi, BitVec.eq_of_toNat_eq (hr.trans (ror_toNat v _).symm),
        hc.trans (getLsbD_zero v).symm⟩
  refine ⟨?_, fun r ea s2 hwf hr he hm => ?_, fun e => exec_rmw_of_resolve_err hs,
    fun r ea e t => exec_rmw_of_memRead_err hs⟩
  · rintro hmode rfl
    exact exec_rmw_accumulator hs hmode s
  · exact exec_rmw_memory hs hwf hr he hm (fun _ _ => rfl) fun _ _ _ => ⟨rfl, rfl⟩

end Sys2Proof.Machine
end

section
/-! PROOF. The statements of the family 46_stack.md: what a push writes and a pull reads, and that they
change nothing else. -/

namespace Sys2Proof.Machine

/-! ## The STACK shape, in terms of its effect (R161, R196) -/

section

variable {i : Instr} {f : State → Res Unit} {s t : State} {e : CoreError}

/-- A STACK instruction whose accesses answer is its effect and the cost of the row. -/
theorem exec_stack_of_ok (hs : shapeOf i = .stack f) (h : f s = .ok () t) :
    exec i s = .next (t.account i.row.cycles) := by
  rw [exec_eq_run, hs, Shape.run, stackClass, h, Res.andThen_ok, Res.outcome_ok]

theorem exec_stack_of_err (hs : shapeOf i = .stack f) (h : f s = .err e t) :
    exec i s = .fault (.raised e t.bus) := by
  rw [exec_eq_run, hs, Shape.run, stackClass, h, Res.andThen_err, Res.outcome_err]

end

/-! ## PHA and PHP (R280, R281) -/

/-- What an instruction that pushes one byte does: it completes where the write of its stack slot does,
and changes the bytes that store reaches. -/
theorem exec_push_spec {i : Instr} {v : State → Byte} {s : State}
    (hs : shapeOf i = .stack fun s => push (v s) s) (hwf : s.bus.mem.wf = true) :
    (∀ t, memWrite (stackAddress s.SP) (v s) s = .ok () t →
      exec i s = .next { s with SP := s.SP - 1, CYC := s.CYC + i.row.cycles, bus := t.bus } ∧
      (∀ a, ¬ s.storeReaches (stackAddress s.SP) a → t.byteAt a = s.byteAt a) ∧
      ∀ a, s.storeReaches (stackAddress s.SP) a → t.byteAt a = some (v s)) ∧
    ∀ e t, memWrite (stackAddress s.SP) (v s) s = .err e t → exec i s = .fault (.raised e s.bus) :=
  ⟨fun _ hw => ⟨exec_stack_of_ok hs (push_ok hw), fun _ => memWrite_byteAt_of_not_reached hwf hw,
    fun _ => memWrite_byteAt_of_reached hwf hw⟩, fun _ _ hw => exec_stack_of_err hs (push_err hw)⟩

/-- Settles O34: both push one byte, PHA the register and PHP the flags with bits 5 and 4 set. -/
theorem pushInstructions : Obligations.PushInstructions := by
  unfold Obligations.PushInstructions
  intro s hwf
  obtain ⟨hphaOk, hphaErr⟩ := exec_push_spec (i := .pha) (v := State.A) rfl hwf
  obtain ⟨hphpOk, hphpErr⟩ := exec_push_spec (i := .php) (v := (·.flags.pushedByProgram)) rfl hwf
  exact ⟨hphaOk, hphaErr, rfl, hphpOk, hphpErr, rfl⟩

/-! ## PLA and PLP (R282, R283) -/

section

variable {i : Instr} {g : Byte → State → State} {s t : State}
  (hs : shapeOf i = .stack fun s => (pull s).andThen fun v u => .ok () (g v u))
include hs

/-- An instruction that pulls one byte and then makes no access completes where the read of its stack
slot does. -/
theorem exec_pull_of_memRead_ok {v : Byte} (h : memRead (stackAddress (s.SP + 1)) s = .ok v t) :
    exec i s = .next ((g v { s with SP := s.SP + 1, bus := t.bus }).account i.row.cycles) :=
  exec_stack_of_ok hs (by rw [pull_ok h, Res.andThen_ok])

/-- SP has moved when the read fails, and the bus has not. -/
theorem exec_pull_of_memRead_err {e : CoreError} (h : memRead (stackAddress (s.SP + 1)) s = .err e t) :
    exec i s = .fault (.raised e s.bus) :=
  exec_stack_of_err (t := { s with SP := s.SP + 1 }) hs (by rw [pull_err h, Res.andThen_err])

end

theorem shapeOf_pla : shapeOf .pla =
    .stack fun s => (pull s).andThen fun v u => .ok () (State.setZN v { u with A := v }) := rfl

theorem shapeOf_plp : shapeOf .plp =
    .stack fun s => (pull s).andThen fun v u => .ok () { u with flags := u.flags.pulled v } := rfl

/-- Settles O35: both pull one byte, and a pull leaves every byte of memory. -/
theorem pullInstructions : Obligations.PullInstructions := by
  unfold Obligations.PullInstructions
  refine fun s => ⟨fun v t h => ⟨?_, ?_, (memRead_readOnly h).byteAt⟩, fun e t h => ⟨?_, ?_⟩, rfl, rfl⟩
  · exact exec_pull_of_memRead_ok shapeOf_pla h
  · exact exec_pull_of_memRead_ok shapeOf_plp h
  · exact exec_pull_of_memRead_err shapeOf_pla h
  · exact exec_pull_of_memRead_err shapeOf_plp h

end Sys2Proof.Machine
end

section
/-! PROOF. The statements of the family 47_control.md: where the jumps, the call, the trap and the two
returns go, what they push and pull, and that the returns undo the call and the trap. -/

namespace Sys2Proof.Machine

/-! ## The stack pointer -/

theorem sub_one_sub_one (b : Byte) : b - 1 - 1 = b - 2 := by bv_omega

theorem sub_two_sub_one (b : Byte) : b - 2 - 1 = b - 3 := by bv_omega

theorem add_one_add_one (b : Byte) : b + 1 + 1 = b + 2 := by bv_omega

theorem add_two_add_one (b : Byte) : b + 2 + 1 = b + 3 := by bv_omega

/-! ## Pushing a word and stacking a trap, in terms of their writes (R94) -/

section

variable {w : Word} {st : Byte} {s t u x : State} {e : CoreError}

theorem pushWord_of_memWrites (hhigh : memWrite (stackAddress s.SP) (hi w) s = .ok () t)
    (hlow : memWrite (stackAddress (s.SP - 1)) (lo w) t = .ok () u) :
    pushWord w s = .ok () { s with SP := s.SP - 2, bus := u.bus } := by
  rw [pushWord, push_ok hhigh, Res.andThen_ok, ← sub_one_sub_one]
  exact push_at (t := t) rfl rfl hlow

theorem pushWord_high_err (h : memWrite (stackAddress s.SP) (hi w) s = .err e t) :
    pushWord w s = .err e s := by
  rw [pushWord, push_err h, Res.andThen_err]

/-- The high byte is written, and SP has moved once, when the write of the low byte fails. -/
theorem pushWord_low_err (hhigh : memWrite (stackAddress s.SP) (hi w) s = .ok () t)
    (h : memWrite (stackAddress (s.SP - 1)) (lo w) t = .err e u) :
    pushWord w s = .err e { s with SP := s.SP - 1, bus := t.bus } := by
  rw [pushWord, push_ok hhigh, Res.andThen_ok]
  exact push_err_at (t := t) rfl rfl h

theorem push_reached {v : Byte} {a : Word} (hwf : s.bus.mem.wf = true) (h : push v s = .ok () t)
    (ha : s.storeReaches (stackAddress s.SP) a) : t.byteAt a = some v := by
  obtain ⟨_, u, hu, h⟩ := Res.andThen_eq_ok.1 h
  cases h
  exact (memWrite_byteAt_of_reached hwf hu ha :)

/-! ### The bytes a pushed word and a stacked status stand in -/

variable {a : Word} (hwf : s.bus.mem.wf = true) (hword : pushWord w s = .ok () u)

include hwf hword

theorem pushWord_low_reached (ha : s.storeReaches (stackAddress (s.SP - 1)) a) :
    u.byteAt a = some (lo w) := by
  obtain ⟨_, t, ht, hu⟩ := Res.andThen_eq_ok.1 hword
  obtain ⟨hk, hsp⟩ := push_ok_keeps ht
  exact push_reached (hk.wf hwf) hu (by rwa [State.storeReaches_congr hk.chunks, hsp])

/-- The high byte stands where the later store of the low byte does not reach. -/
theorem pushWord_high_reached (ha : s.storeReaches (stackAddress s.SP) a)
    (hn : ¬ s.storeReaches (stackAddress (s.SP - 1)) a) : u.byteAt a = some (hi w) := by
  obtain ⟨_, t, ht, hu⟩ := Res.andThen_eq_ok.1 hword
  obtain ⟨hk, hsp⟩ := push_ok_keeps ht
  rw [push_unreached (hk.wf hwf) hu (by rwa [State.storeReaches_congr hk.chunks, hsp])]
  exact push_reached hwf ht ha

variable (hstatus : push st u = .ok () x)

include hstatus

theorem push_after_pushWord_reached (ha : s.storeReaches (stackAddress (s.SP - 2)) a) :
    x.byteAt a = some st := by
  obtain ⟨hk, hsp⟩ := pushWord_ok_keeps hword
  exact push_reached (hk.wf hwf) hstatus (by rwa [State.storeReaches_congr hk.chunks, hsp])

theorem push_after_pushWord_unreached (hn : ¬ s.storeReaches (stackAddress (s.SP - 2)) a) :
    x.byteAt a = u.byteAt a := by
  obtain ⟨hk, hsp⟩ := pushWord_ok_keeps hword
  exact push_unreached (hk.wf hwf) hstatus (by rwa [State.storeReaches_congr hk.chunks, hsp])

end

/-! ## Pulling a word, in terms of its reads (R94) -/

section

variable {s t u w : State} {a c : Byte} {l h : Byte} {e : CoreError} (hb : s.bus = t.bus)
  (ha : s.SP + 1 = a)

include hb ha

theorem pullWord_at (hc : a + 1 = c) (hlow : memRead (stackAddress a) t = .ok l u)
    (hhigh : memRead (stackAddress c) u = .ok h w) :
    pullWord s = .ok (wordOf l h) { s with SP := c, bus := w.bus } := by
  have hhighPull := pull_at (s := { s with SP := a, bus := u.bus }) (t := u) rfl hc hhigh
  rw [wordOf_eq]
  exact pullWord_ok (pull_at hb ha hlow) hhighPull

theorem pullWord_low_err_at (hlow : memRead (stackAddress a) t = .err e u) :
    pullWord s = .err e { s with SP := a } := by
  rw [pullWord, pull_err_at hb ha hlow, Res.andThen_err]

theorem pullWord_high_err_at (hc : a + 1 = c) (hlow : memRead (stackAddress a) t = .ok l u)
    (hhigh : memRead (stackAddress c) u = .err e w) :
    pullWord s = .err e { s with SP := c, bus := u.bus } := by
  have hhighPull := pull_err_at (s := { s with SP := a, bus := u.bus }) (t := u) rfl hc hhigh
  rw [pullWord, pull_at hb ha hlow, Res.andThen_ok, hhighPull, Res.andThen_err]

end

/-! ## The JUMP shape, in terms of its resolver and its effect (R161, R196) -/

section

variable {i : Instr} {f : Word → State → Res Unit} {s s1 t : State} {r : Resolved} {ea : Word}
  {e : CoreError} (hs : shapeOf i = .jump f)

include hs

theorem exec_jump_of_resolve_err (hr : resolve i.mode i.param s = .err e t) :
    exec i s = .fault (.raised e t.bus) := by
  rw [exec_eq_run, hs, Shape.run, jumpClass, hr, Res.andThen_err, Res.outcome_err]

variable (hr : resolve i.mode i.param s = .ok r s1) (hea : r.ea = some ea)

include hr hea

theorem exec_jump_of_ea : exec i s =
    ((f ea s1).andThen fun _ u => .ok () (u.account i.row.cycles)).outcome := by
  rw [exec_eq_run, hs, Shape.run, jumpClass, hr, Res.andThen_ok, needEA, hea, Res.andThen_ok]

/-- A JUMP instruction whose accesses answer is its effect and the cost of the row. -/
theorem exec_jump_of_ok (h : f ea s1 = .ok () t) : exec i s = .next (t.account i.row.cycles) := by
  rw [exec_jump_of_ea hs hr hea, h, Res.andThen_ok, Res.outcome_ok]

theorem exec_jump_of_err (h : f ea s1 = .err e t) : exec i s = .fault (.raised e t.bus) := by
  rw [exec_jump_of_ea hs hr hea, h, Res.andThen_err, Res.outcome_err]

end

/-! ## JMP (R290) -/

/-- Settles O36: both forms set PC to the effective address, and a pointer read leaves memory. -/
theorem jumpInstruction : Obligations.JumpInstruction := by
  unfold Obligations.JumpInstruction
  refine fun s p => ⟨rfl, rfl, rfl, fun ea s1 h => ⟨?_, ?_⟩, fun e s1 h => ?_⟩
  · have hro := resolve_readOnly (resolve_indirect h)
    rw [exec_jump_of_ok (i := .jmpInd p) rfl (resolve_indirect h) rfl rfl, hro.state]
    rfl
  · exact (resolve_readOnly (resolve_indirect h)).byteAt
  · exact exec_jump_of_resolve_err (i := .jmpInd p) rfl (Res.andThen_eq_err.2 (.inl h))

/-! ## JSR (R291) -/

section

variable {p : Word} {s t : State} {e : CoreError}

theorem exec_jsrAbs_of_pushWord_ok (h : pushWord (s.PC - 1) s = .ok () t) :
    exec (.jsrAbs p) s = .next { t with PC := p, CYC := t.CYC + 6 } :=
  exec_jump_of_ok (i := .jsrAbs p) (ea := p) (t := { t with PC := p }) rfl rfl rfl
    (by rw [jsrEffect, h, Res.andThen_ok])

theorem exec_jsrAbs_of_pushWord_err (h : pushWord (s.PC - 1) s = .err e t) :
    exec (.jsrAbs p) s = .fault (.raised e t.bus) :=
  exec_jump_of_err (i := .jsrAbs p) (ea := p) rfl rfl rfl (by rw [jsrEffect, h, Res.andThen_err])

end

/-- Settles O37: JSR is the push of a word, and a jump. -/
theorem callInstruction : Obligations.CallInstruction := by
  unfold Obligations.CallInstruction
  refine ⟨fun _ => rfl, fun s p hwf => ?_⟩
  simp only [← hi_eq, ← lo_eq]
  refine ⟨fun e t h => exec_jsrAbs_of_pushWord_err (pushWord_high_err h), fun t hhigh =>
    ⟨fun e u h => (exec_jsrAbs_of_pushWord_err (pushWord_low_err hhigh h) :), fun u hlow => ?_⟩⟩
  have hword := pushWord_of_memWrites hhigh hlow
  exact ⟨exec_jsrAbs_of_pushWord_ok hword, fun _ h1 h2 => (pushWord_unreached hwf hword h1 h2 :),
    fun _ h2 => (pushWord_low_reached hwf hword h2 :),
    fun _ h1 h2 => (pushWord_high_reached hwf hword h1 h2 :)⟩

/-! ## RTS (R292) -/

section

variable {s t u : State} {l h : Byte} {e : CoreError}

theorem exec_rts_of_memReads (hlow : memRead (stackAddress (s.SP + 1)) s = .ok l t)
    (hhigh : memRead (stackAddress (s.SP + 2)) t = .ok h u) :
    exec .rts s =
      .next { s with PC := wordOf l h + 1, SP := s.SP + 2, CYC := s.CYC + 6, bus := u.bus } :=
  exec_stack_of_ok (i := .rts) (f := rtsEffect)
    (t := { s with PC := wordOf l h + 1, SP := s.SP + 2, bus := u.bus }) rfl
    (by rw [rtsEffect, pullWord_at rfl rfl (add_one_add_one s.SP) hlow hhigh, Res.andThen_ok])

theorem exec_rts_of_pullWord_err (h : pullWord s = .err e t) :
    exec .rts s = .fault (.raised e t.bus) :=
  exec_stack_of_err (i := .rts) (f := rtsEffect) rfl (by rw [rtsEffect, h, Res.andThen_err])

end

/-- Settles O38: RTS is the pull of a word, which leaves memory, and a jump one past it. -/
theorem returnFromCallInstruction : Obligations.ReturnFromCallInstruction := by
  unfold Obligations.ReturnFromCallInstruction
  refine ⟨rfl, fun s => ⟨fun l t h u hlow hhigh => ⟨?_, ?_⟩, fun e t h => ?_, fun l t e u hlow h => ?_⟩⟩
  · rw [BitVec.ofNat_add, ← wordOf_eq]
    exact exec_rts_of_memReads hlow hhigh
  · exact ((memRead_readOnly hlow).trans (memRead_readOnly hhigh)).byteAt
  · exact (exec_rts_of_pullWord_err (pullWord_low_err_at (s := s) rfl rfl h) :)
  · exact (exec_rts_of_pullWord_err (pullWord_high_err_at rfl rfl (add_one_add_one s.SP) hlow h) :)

/-! ## BRK (R293) -/

section

variable {s t u : State} {e : CoreError}

theorem exec_brk_of_pushWord_err (h : pushWord (s.PC + 1) s = .err e t) :
    exec .brk s = .fault (.raised e t.bus) :=
  exec_stack_of_err (i := .brk) (f := brkEffect) rfl
    (by rw [brkEffect, enterTrap, h, Res.andThen_err])

variable (hword : pushWord (s.PC + 1) s = .ok () t)

include hword

theorem exec_brk_of_push_err (h : push s.flags.pushedByProgram t = .err e u) :
    exec .brk s = .fault (.raised e u.bus) :=
  exec_stack_of_err (i := .brk) (f := brkEffect) rfl
    (by rw [brkEffect, enterTrap, hword, Res.andThen_ok, h, Res.andThen_err])

variable (hstatus : push s.flags.pushedByProgram t = .ok () u)

include hstatus

/-- BRK whose pushes answer goes on with the read of the vector, with I set. -/
theorem brkEffect_of_pushes : brkEffect s =
    (read16 irqVector { u with flags := { u.flags with I := true } }).andThen fun pc v =>
      .ok () { v with PC := pc } := by
  rw [brkEffect, enterTrap, hword, Res.andThen_ok, hstatus, Res.andThen_ok]

theorem exec_brk_of_read16_err {v : State}
    (h : read16 irqVector { u with flags := { u.flags with I := true } } = .err e v) :
    exec .brk s = .fault (.raised e v.bus) :=
  exec_stack_of_err (i := .brk) rfl (by rw [brkEffect_of_pushes hword hstatus, h, Res.andThen_err])

theorem exec_brk_of_read16_ok {v : State} {pc : Word}
    (h : read16 irqVector { u with flags := { u.flags with I := true } } = .ok pc v) :
    exec .brk s = .next { v with PC := pc, CYC := v.CYC + 7 } :=
  exec_stack_of_ok (i := .brk) (f := brkEffect) (t := { v with PC := pc }) rfl
    (by rw [brkEffect_of_pushes hword hstatus, h, Res.andThen_ok])

end

/-- Settles O39: BRK is the push of a word, the push of the status and the read of the vector, each of
which may fail. -/
theorem breakInstruction : Obligations.BreakInstruction := by
  unfold Obligations.BreakInstruction
  refine ⟨rfl, fun s hwf => ⟨fun e t h => exec_brk_of_pushWord_err (pushWord_high_err h),
    fun t1 hhigh => ⟨fun e t h => (exec_brk_of_pushWord_err (pushWord_low_err hhigh h) :),
    fun t2 hlow => ?_⟩⟩⟩
  have hword := pushWord_of_memWrites hhigh hlow
  refine ⟨fun e t h => (exec_brk_of_push_err hword (push_err_at (t := t2) rfl rfl h) :),
    fun t3 hst => ?_⟩
  have hstatus : push s.flags.pushedByProgram { s with SP := s.SP - 2, bus := t2.bus } =
      .ok () { s with SP := s.SP - 3, bus := t3.bus } := by
    rw [← sub_two_sub_one]
    exact push_at (t := t2) rfl rfl hst
  refine ⟨fun a h1 h2 h3 => ?_, fun a h3 => (push_after_pushWord_reached hwf hword hstatus h3 :),
    fun e t h => ?_, fun l t4 hl => ⟨fun e t h => ?_, fun h t5 hh => ⟨?_, ?_⟩⟩⟩
  · exact (push_after_pushWord_unreached hwf hword hstatus h3 :).trans
      (pushWord_unreached hwf hword h1 h2)
  · exact (exec_brk_of_read16_err hword hstatus (read16_first_err_at (t := t3) rfl h) :)
  · exact (exec_brk_of_read16_err hword hstatus (read16_second_err_at (t := t3) rfl hl h) :)
  · exact exec_brk_of_read16_ok hword hstatus (read16_at (t := t3) rfl hl hh)
  · exact ((memRead_readOnly hl).trans (memRead_readOnly hh)).byteAt

/-! ## RTI (R294) -/

section

variable {s t u w : State} {b l h : Byte} {e : CoreError}

theorem exec_rti_of_pull_err (h : pull s = .err e t) : exec .rti s = .fault (.raised e t.bus) :=
  exec_stack_of_err (i := .rti) (f := rtiEffect) rfl
    (by rw [rtiEffect, returnFromTrap, h, Res.andThen_err])

variable (hstatus : memRead (stackAddress (s.SP + 1)) s = .ok b t)

include hstatus

/-- RTI whose status is read goes on with the pull of the return address, with the flags loaded. -/
theorem rtiEffect_of_memRead : rtiEffect s =
    (pullWord { s with SP := s.SP + 1, flags := s.flags.pulled b, bus := t.bus }).andThen fun pc v =>
      .ok () { v with PC := pc } := by
  rw [rtiEffect, returnFromTrap, pull_ok hstatus, Res.andThen_ok]

theorem exec_rti_of_pullWord_err
    (h : pullWord { s with SP := s.SP + 1, flags := s.flags.pulled b, bus := t.bus } = .err e u) :
    exec .rti s = .fault (.raised e u.bus) :=
  exec_stack_of_err (i := .rti) rfl (by rw [rtiEffect_of_memRead hstatus, h, Res.andThen_err])

theorem exec_rti_of_memReads (hlow : memRead (stackAddress (s.SP + 2)) t = .ok l u)
    (hhigh : memRead (stackAddress (s.SP + 3)) u = .ok h w) :
    exec .rti s = .next { s with PC := wordOf l h, SP := s.SP + 3, CYC := s.CYC + 6, bus := w.bus,
                                 flags := s.flags.pulled b } :=
  exec_stack_of_ok (i := .rti) (f := rtiEffect)
    (t := { s with PC := wordOf l h, SP := s.SP + 3, bus := w.bus, flags := s.flags.pulled b }) rfl
    (by
      have hpc := pullWord_at (t := t)
        (s := { s with SP := s.SP + 1, flags := s.flags.pulled b, bus := t.bus })
        rfl (add_one_add_one s.SP) (add_two_add_one s.SP) hlow hhigh
      rw [rtiEffect_of_memRead hstatus, hpc, Res.andThen_ok])

end

/-- Settles O40: RTI is the pull of the status and the pull of a word, which leave memory. -/
theorem returnFromTrapInstruction : Obligations.ReturnFromTrapInstruction := by
  unfold Obligations.ReturnFromTrapInstruction
  refine ⟨rfl, fun s => ⟨fun e t h => ?_, fun b t hb => ⟨fun e u h => ?_,
    fun l u hl => ⟨fun e w h => ?_, fun h w hh => ⟨?_, ?_⟩⟩⟩⟩⟩
  · exact (exec_rti_of_pull_err (pull_err h) :)
  · exact (exec_rti_of_pullWord_err hb (pullWord_low_err_at (t := t) rfl (add_one_add_one s.SP) h) :)
  · exact (exec_rti_of_pullWord_err hb
      (pullWord_high_err_at (t := t) rfl (add_one_add_one s.SP) (add_two_add_one s.SP) hl h) :)
  · rw [← wordOf_eq]
    exact exec_rti_of_memReads hb hl hh
  · exact (((memRead_readOnly hb).trans (memRead_readOnly hl)).trans (memRead_readOnly hh)).byteAt

/-! ## The returns undo the call and the trap (R332, D23) -/

theorem State.storeReaches_self {s : State} {a : Word} (h : s.ramCell a ≠ none) :
    s.storeReaches a a := by
  obtain ⟨k, hk⟩ := Option.ne_none_iff_exists'.1 h
  exact ⟨k, hk, State.cellOf_of_ramCell hk⟩

/-- A store does not reach the byte of another RAM cell. -/
theorem State.not_storeReaches {s : State} {ea a : Word} (h : s.ramCell a ≠ none)
    (hne : s.ramCell ea ≠ s.ramCell a) : ¬ s.storeReaches ea a := by
  rintro ⟨k, hea, hcell⟩
  obtain ⟨j, hj⟩ := Option.ne_none_iff_exists'.1 h
  have hjk : j = k := Option.some.inj ((State.cellOf_of_ramCell hj).symm.trans hcell)
  exact hne (by rw [hea, hj, hjk])

/-- Bits 5 and 4 of a byte are B1 and B2 alone. -/
theorem Flags.load_or_breaks (b : Byte) :
    Flags.load (b ||| 0x30) = { Flags.load b with B1 := true, B2 := true } := by
  simp [Flags.load]

/-- The flags a program pushed are the flags pulled, where B1 and B2 are still the same. -/
theorem Flags.pulled_pushedByProgram (f g : Flags) (h1 : g.B1 = f.B1) (h2 : g.B2 = f.B2) :
    g.pulled f.pushedByProgram = f := by
  rw [Flags.pulled, Flags.pushedByProgram, Flags.load_or_breaks, Flags.load_toByte, h1, h2]

theorem read16_readOnly {a pc : Word} {s t : State} (h : read16 a s = .ok pc t) : ReadOnly s t := by
  have hr := readPair_readsOnly a (a + 1) s
  rw [read16] at h
  rwa [h] at hr

section

variable {s t : State} {w : Word} {sp : Byte}

theorem exec_rts_of_byteAt (hsp : s.SP = sp - 2)
    (hlow : s.byteAt (stackAddress (sp - 1)) = some (lo w))
    (hhigh : s.byteAt (stackAddress sp) = some (hi w)) :
    exec .rts s = .next { s with PC := w + 1, SP := sp, CYC := s.CYC + 6 } := by
  have hsp1 : s.SP + 1 = sp - 1 := by bv_omega
  have hsp2 : s.SP + 2 = sp := by bv_omega
  rw [← hsp1] at hlow
  rw [← hsp2] at hhigh
  rw [exec_rts_of_memReads (memRead_of_byteAt hlow) (memRead_of_byteAt hhigh), wordOf_lo_hi, hsp2]

theorem exec_rti_of_byteAt {b : Byte} (hsp : s.SP = sp - 3)
    (hstatus : s.byteAt (stackAddress (sp - 2)) = some b)
    (hlow : s.byteAt (stackAddress (sp - 1)) = some (lo w))
    (hhigh : s.byteAt (stackAddress sp) = some (hi w)) :
    exec .rti s = .next { s with PC := w, SP := sp, CYC := s.CYC + 6, flags := s.flags.pulled b } := by
  have hsp1 : s.SP + 1 = sp - 2 := by bv_omega
  have hsp2 : s.SP + 2 = sp - 1 := by bv_omega
  have hsp3 : s.SP + 3 = sp := by bv_omega
  rw [← hsp1] at hstatus
  rw [← hsp2] at hlow
  rw [← hsp3] at hhigh
  rw [exec_rti_of_memReads (memRead_of_byteAt hstatus) (memRead_of_byteAt hlow)
    (memRead_of_byteAt hhigh), wordOf_lo_hi, hsp3]

/-- A JSR that completes has pushed the word before NextPC. -/
theorem exec_jsrAbs_eq_next {p : Word} (h : exec (.jsrAbs p) s = .next t) :
    ∃ u, pushWord (s.PC - 1) s = .ok () u ∧ (∀ a, t.byteAt a = u.byteAt a) ∧
      t = { s with PC := p, SP := s.SP - 2, CYC := s.CYC + 6, bus := t.bus } := by
  obtain ⟨_, _, _, y, hr, hea, hy, rfl⟩ := jumpClass_ok (f := jsrEffect) (exec_eq_next h)
  cases hr
  cases hea
  obtain ⟨_, u, hu, hy⟩ := Res.andThen_eq_ok.1 hy
  cases hy
  obtain ⟨-, hsp⟩ := pushWord_ok_keeps hu
  have hframe := pushWord_frame hu
  rw [StackFrame, hsp] at hframe
  exact ⟨u, hu, State.byteAt_congr rfl rfl, by rw [hframe]; rfl⟩

/-- A BRK that completes has pushed the word after NextPC, then the status. -/
theorem exec_brk_eq_next (h : exec .brk s = .next t) :
    ∃ u x, pushWord (s.PC + 1) s = .ok () u ∧ push s.flags.pushedByProgram u = .ok () x ∧
      (∀ a, t.byteAt a = x.byteAt a) ∧
      t = { s with PC := t.PC, SP := s.SP - 3, flags := { s.flags with I := true },
                   CYC := s.CYC + 7, bus := t.bus } := by
  obtain ⟨y, hy, rfl⟩ := stackClass_ok (f := brkEffect) (exec_eq_next h)
  have hframe := enterTrap_frame hy
  obtain ⟨_, u, hu, hy⟩ := Res.andThen_eq_ok.1 hy
  obtain ⟨_, x, hx, hy⟩ := Res.andThen_eq_ok.1 hy
  obtain ⟨pc, v, hv, hy⟩ := Res.andThen_eq_ok.1 hy
  cases hy
  have hro := read16_readOnly hv
  obtain ⟨-, hspWord⟩ := pushWord_ok_keeps hu
  obtain ⟨-, hspStatus⟩ := push_ok_keeps hx
  have hsp : v.SP = s.SP - 3 := by rw [hro.state, hspStatus, hspWord, sub_two_sub_one]
  refine ⟨u, x, hu, hx, hro.byteAt, ?_⟩
  rw [hframe]
  simp only [State.account, hsp]
  rfl

end

/-- Settles O41: the bytes JSR and BRK have pushed stand where RTS and RTI read them. -/
theorem callAndTrapReturn : Obligations.CallAndTrapReturn := by
  unfold Obligations.CallAndTrapReturn
  refine ⟨fun s t p hwf hram1 hram2 h12 h => ?_, fun s t hwf hram1 hram2 hram3 h12 h13 h23 h => ?_⟩
  · obtain ⟨u, hword, hbytes, ht⟩ := exec_jsrAbs_eq_next h
    have hlow := pushWord_low_reached hwf hword (State.storeReaches_self hram2)
    have hhigh := pushWord_high_reached hwf hword (State.storeReaches_self hram1)
      (State.not_storeReaches hram1 h12.symm)
    have hsp : t.SP = s.SP - 2 := by rw [ht]
    rw [← hbytes] at hlow hhigh
    rw [exec_rts_of_byteAt hsp hlow hhigh, BitVec.sub_add_cancel, ht]
  · obtain ⟨u, x, hword, hstatus, hbytes, ht⟩ := exec_brk_eq_next h
    have hunreached {a : Word} := push_after_pushWord_unreached (a := a) hwf hword hstatus
    have hst := push_after_pushWord_reached hwf hword hstatus (State.storeReaches_self hram3)
    have hlow := pushWord_low_reached hwf hword (State.storeReaches_self hram2)
    have hhigh := pushWord_high_reached hwf hword (State.storeReaches_self hram1)
      (State.not_storeReaches hram1 h12.symm)
    have hsp : t.SP = s.SP - 3 := by rw [ht]
    have hflags : t.flags.pulled s.flags.pushedByProgram = s.flags :=
      Flags.pulled_pushedByProgram _ _ (by rw [ht]) (by rw [ht])
    rw [← hbytes] at hst
    rw [← hunreached (State.not_storeReaches hram2 h23.symm), ← hbytes] at hlow
    rw [← hunreached (State.not_storeReaches hram1 h13.symm), ← hbytes] at hhigh
    rw [exec_rti_of_byteAt hsp hst hlow hhigh, hflags, ht]

end Sys2Proof.Machine
end

section
/-! PROOF. The statements of the families 48_flags_misc.md, 60_exceptions.md and
70_reset_and_hazards.md: the flag instructions, the errors of a step and their order in the fetch, the
stuck core, the refusal of decimal arithmetic, the reset and the interrupt entry. -/

namespace Sys2Proof.Machine

/-! ## The flag instructions (R310 to R317) -/

/-- Settles O43: each of the eight is the effect of its IMPL shape, at 2 cycles. -/
theorem flagInstructions : Obligations.FlagInstructions := by
  unfold Obligations.FlagInstructions
  intro s
  exact ⟨exec_impl (f := clcEffect) rfl s, rfl, exec_impl (f := cldEffect) rfl s, rfl,
    exec_impl (f := cliEffect) rfl s, rfl, exec_impl (f := clvEffect) rfl s, rfl,
    exec_impl (f := secEffect) rfl s, rfl, exec_impl (f := sedEffect) rfl s, rfl,
    exec_impl (f := seiEffect) rfl s, rfl, exec_impl (f := nopEffect) rfl s, rfl⟩

/-! ## The errors of the fetch (R193, R200, R321, R322, R327, R328) -/

theorem memRead_of_locate_error {s : State} {a : Word} {e : CoreError}
    (h : locate s.bus.chunks a .read = .error e) : memRead a s = .err e s := by
  simp only [memRead, Bus.read, h]

theorem memRead_of_chunks_none {s : State} (h : s.bus.chunks = none) (a : Word) :
    memRead a s = .err (.configurationError .read) s := memRead_of_locate_error (by rw [h, locate])

theorem memRead_of_chunks_nil {s : State} (h : s.bus.chunks = some []) (a : Word) :
    memRead a s = .err (.unmappedAddress a .read) s :=
  memRead_of_locate_error (by rw [h]; exact locate_unmapped rfl .read)

section

variable {s t u : State} {e : CoreError}

theorem step_of_fetch_err (hr : s.Running) (h : fetch s = .err e t) :
    step s = .fault (.raised e t.bus) := by
  rw [step_of_running hr, h, Res.andThen_err, Res.outcome_err]

theorem fetchByte_at {a : Word} {v : Byte} (hb : s.bus = t.bus) (ha : s.PC = a)
    (h : memRead a t = .ok v u) : fetchByte s = .ok v { s with PC := a + 1, bus := u.bus } := by
  subst ha
  rw [fetchByte, memRead_of_bus_eq hb h, Res.andThen_ok]

theorem fetchByte_err_at {a : Word} (hb : s.bus = t.bus) (ha : s.PC = a)
    (h : memRead a t = .err e u) : fetchByte s = .err e s := by
  subst ha
  rw [fetchByte, memRead_err_of_bus_eq hb h, Res.andThen_err]

theorem fetch_opcode_err (h : fetchByte s = .err e t) : fetch s = .err e t := by
  rw [fetch, h, Res.andThen_err]

variable {op : Byte} {f : Form}

/-- How many parameter bytes the fetch reads for a form (R131, R193). -/
def parameterCount : Form → Nat
  | .f1 _ => 0
  | .f2 _ => 1
  | .f3 _ => 2

/-- The fetch reads as many parameter bytes as the mode has (R130). -/
theorem row_parameterSize (hf : formOf op = some f) :
    f.row.mode.parameterSize = parameterCount f := by
  have hsize (i : Instr) : i.row.mode.parameterSize = i.operand.bytes.length :=
    i.operand_bytes_length.symm
  obtain ⟨i, rfl, -, ho⟩ | ⟨mk, rfl, hmk⟩ | ⟨mk, rfl, hmk⟩ := formOf_some hf
  · rw [Form.row, hsize, ho]
    rfl
  · rw [Form.row, hsize, (hmk 0).2]
    rfl
  · rw [Form.row, hsize, (hmk 0).2]
    rfl

/-- An error of the read of the first parameter byte ends the fetch. -/
theorem fetch_first_parameter_err (hop : fetchByte s = .ok op t) (hf : formOf op = some f)
    (hsize : f.row.mode.parameterSize ≠ 0) (h : fetchByte t = .err e u) : fetch s = .err e u := by
  rw [row_parameterSize hf] at hsize
  cases f with
  | f1 i => exact absurd rfl hsize
  | f2 mk => simp only [fetch, hop, Res.andThen_ok, hf, h, Res.andThen_err]
  | f3 mk => simp only [fetch, hop, Res.andThen_ok, hf, h, Res.andThen_err]

/-- An error of the read of the second parameter byte ends the fetch. -/
theorem fetch_second_parameter_err {w : State} {l : Byte} (hop : fetchByte s = .ok op t)
    (hf : formOf op = some f) (hsize : f.row.mode.parameterSize = 2) (hl : fetchByte t = .ok l u)
    (h : fetchByte u = .err e w) : fetch s = .err e w := by
  rw [row_parameterSize hf] at hsize
  cases f with
  | f1 i => cases hsize
  | f2 mk => cases hsize
  | f3 mk => simp only [fetch, hop, Res.andThen_ok, hf, hl, h, Res.andThen_err]

theorem step_of_opcode_err (hr : s.Running) (h : memRead s.PC s = .err e t) :
    step s = .fault (.raised e s.bus) :=
  step_of_fetch_err hr (fetch_opcode_err (fetchByte_err_at rfl rfl h))

theorem step_of_chunks_none (hr : s.Running) (h : s.bus.chunks = none) :
    step s = .fault (.raised (.configurationError .read) s.bus) :=
  step_of_opcode_err hr (memRead_of_chunks_none h s.PC)

end

theorem add_one_add_one_word (a : Word) : a + 1 + 1 = a + 2 := by bv_omega

/-- Settles O7: the fetch ends at the first of its reads that fails. -/
theorem fetchErrorsComeInOrder : Obligations.FetchErrorsComeInOrder := by
  unfold Obligations.FetchErrorsComeInOrder
  refine fun s hr => ⟨fun e t => step_of_opcode_err hr, fun op t e u hop ⟨f, hf, hsize⟩ h => ?_,
    fun op l t u e w hop ⟨f, hf, hsize⟩ hl h => ?_, step_of_chunks_none hr,
    fun h => step_of_opcode_err hr (memRead_of_chunks_nil h s.PC)⟩
  · have hop' := fetchByte_at (s := s) rfl rfl hop
    have herr := fetch_first_parameter_err hop' hf hsize (fetchByte_err_at (t := t) rfl rfl h)
    exact (step_of_fetch_err hr herr :)
  · have hop' := fetchByte_at (s := s) rfl rfl hop
    have hl' := fetchByte_at (s := { s with PC := s.PC + 1, bus := t.bus }) (t := t) rfl rfl hl
    rw [add_one_add_one_word] at hl'
    have herr := fetch_second_parameter_err hop' hf hsize hl' (fetchByte_err_at (t := u) rfl rfl h)
    exact (step_of_fetch_err hr herr :)

/-! ## The errors of a step (R320 to R324) -/

/-- The errors a fetch can raise: an error of routing, or an unassigned byte at PC. -/
theorem fetch_raises (s : State) : (fetch s).Raises s.bus.chunks fun e =>
    ∃ op, e = .unknownOpcode op s.PC ∧ formOf op = none := by
  refine (fetchByte_raises rfl).andThen fun op t ht => ?_
  cases hf : formOf op with
  | none => exact .inr ⟨op, rfl, hf⟩
  | some f =>
    cases f with
    | f1 i => exact ht
    | f2 mk => exact (fetchByte_raises ht).andThen fun _ _ hu => hu
    | f3 mk =>
      exact (fetchByte_raises ht).andThen fun _ _ hu => (fetchByte_raises hu).andThen fun _ _ hw => hw

/-- The errors a step of a running core can raise: those of the fetch, and the refusal of decimal
arithmetic, with the address of the opcode byte. -/
theorem step_raises {s : State} {e : CoreError} {left : Bus} (hr : s.Running)
    (h : step s = .fault (.raised e left)) :
    BusError s.bus.chunks e ∨ (∃ op, e = .unknownOpcode op s.PC ∧ formOf op = none) ∨
    ∃ i : Instr, e = .decimalModeRefused i.opcode s.PC ∧ (i.mnemonic = .adc ∨ i.mnemonic = .sbc) ∧
      s.refusesDecimal := by
  rw [step_of_running hr] at h
  obtain ⟨t, ht, -⟩ := Res.outcome_eq_fault.1 h
  rcases Res.andThen_eq_err.1 ht with hfetch | ⟨i, s1, hfetch, hrun⟩
  · have hraises := fetch_raises s
    rw [hfetch] at hraises
    exact hraises.imp_right .inl
  · obtain ⟨hs1, hchunks, -⟩ := fetch_ok hfetch
    have hraises := shape_run_raises i s1
    rw [hrun, hchunks] at hraises
    refine hraises.imp_right fun ⟨he, hdec, hi⟩ => .inr ⟨i, ?_, hi, ?_⟩
    · have hPC : s1.PC = s.PC + BitVec.ofNat 16 i.length := by rw [hs1]
      rw [he, hPC, BitVec.add_sub_cancel]
    · rw [hs1] at hdec
      exact hdec

/-- Settles O57: with no chunks defined the opcode read fails, and every other error is of routing, of
the opcode byte or of the decimal check. -/
theorem onlyTheErrorsOfTheSpec : Obligations.OnlyTheErrorsOfTheSpec := by
  unfold Obligations.OnlyTheErrorsOfTheSpec
  intro s e left hfault h
  have hr : s.Running := by
    obtain hr | ⟨-, he, -⟩ := step_eq_fault h
    · exact hr
    · rw [hfault] at he
      cases he
  by_cases hchunks : s.bus.chunks = none
  · rw [step_of_chunks_none hr hchunks] at h
    cases h
    exact .inl ⟨rfl, hchunks⟩
  · refine .inr ((step_raises hr h).imp_left ?_)
    rintro (⟨hnone, -⟩ | ⟨-, a, k, he, hun⟩)
    · exact absurd hnone hchunks
    · exact ⟨a, k, he, hun s rfl, hchunks⟩

/-! ## The refusal of decimal arithmetic (R251, R324) -/

/-- ADC and SBC are the READ shapes with the decimal check. -/
theorem shapeOf_adcSbc {i : Instr} (h : i.mnemonic = .adc ∨ i.mnemonic = .sbc) :
    ∃ f, shapeOf i = .read (decimalCheck i.opcode (BitVec.ofNat 16 i.length)) f := by
  unfold shapeOf
  rcases h with h | h <;> rw [h] <;> exact ⟨_, rfl⟩

theorem decimalCheck_of_refusesDecimal {s : State} (h : s.refusesDecimal) (op : Byte) (n : Word) :
    decimalCheck op n s = .err (.decimalModeRefused op (s.PC - n)) s := if_pos h

section

variable {i : Instr} {chk : State → Res Unit} {f : Byte → State → State} {s s1 : State}
  {e : CoreError} (hs : shapeOf i = .read chk f)

include hs

theorem exec_read_of_resolve_err (h : resolve i.mode i.param s = .err e s1) :
    exec i s = .fault (.raised e s1.bus) := by
  rw [exec_eq_run, hs, Shape.run, readClass, h, Res.andThen_err, Res.outcome_err]

theorem exec_read_of_check_err {r : Resolved} {t : State} (h : resolve i.mode i.param s = .ok r s1)
    (hc : chk s1 = .err e t) : exec i s = .fault (.raised e t.bus) := by
  rw [exec_eq_run, hs, Shape.run, readClass, h, Res.andThen_ok, hc, Res.andThen_err, Res.outcome_err]

end

/-- Settles O28: the check comes after the resolver, which leaves PC, the flags and the parameters, and
no other part of an instruction raises its error. -/
theorem decimalModeRefusal : Obligations.DecimalModeRefusal := by
  unfold Obligations.DecimalModeRefusal
  refine fun i s => ⟨fun hi hd => ?_, fun op pc b h => ?_⟩
  · obtain ⟨f, hs⟩ := shapeOf_adcSbc hi
    refine ⟨fun r s1 hr => ?_, fun e s1 hr => exec_read_of_resolve_err hs hr⟩
    have hstate := (resolve_readOnly hr).state
    have hPC : s1.PC = s.PC := by rw [hstate]
    have hd1 : s1.refusesDecimal := by rw [hstate]; exact hd
    rw [exec_read_of_check_err hs hr (decimalCheck_of_refusesDecimal hd1 _ _), hPC]
  · rw [exec_eq_run] at h
    obtain ⟨t, ht, -⟩ := Res.outcome_eq_fault.1 h
    have hraises := shape_run_raises i s
    rw [ht] at hraises
    rcases hraises with (⟨-, _, ⟨⟩⟩ | ⟨-, _, _, ⟨⟩, -⟩) | ⟨-, ⟨hpolicy, hD⟩, hi⟩
    exact ⟨hpolicy, hD, hi⟩

/-! ## The fault record and the reset flag in a session (R200, R326, R350) -/

/-- The reset flag is the same, and the fault record is not emptied. -/
def State.KeepsRecord (s t : State) : Prop :=
  t.resetMade = s.resetMade ∧ (s.fault ≠ none → t.fault ≠ none)

theorem Keeps.keepsRecord {s t : State} (h : Keeps s t) : s.KeepsRecord t :=
  ⟨h.resetMade, fun hf => by rwa [h.fault]⟩

theorem State.recordError_keepsRecord (e : CoreError) (left : Bus) (s : State) :
    s.KeepsRecord (s.recordError e left) := ⟨rfl, fun _ => nofun⟩

theorem Res.KeepsFrom.settle_keepsRecord {s : State} {r : Res Unit} (h : r.KeepsFrom s) :
    s.KeepsRecord r.settle := by
  cases r with
  | ok _ t => exact Keeps.keepsRecord h
  | err e t =>
    have hk : Keeps s t := h
    exact ⟨hk.resetMade, fun _ => nofun⟩

theorem step_of_not_resetMade {s : State} (h : s.resetMade = false) :
    step s = .refused .neverReset := by
  rw [step, h]
  rfl

theorem step_of_fault {s : State} {e : CoreError} (hr : s.resetMade = true) (h : s.fault = some e) :
    step s = .fault (.raised e s.bus) := by
  simp only [step, hr, h, if_true]

theorem sessionStep_of_refused {s : State} {x : Refusal} (h : step s = .refused x) :
    sessionStep s = s := by
  rw [sessionStep, h]

/-- A stuck core is not changed by a step. -/
theorem sessionStep_of_stuck {s : State} {e e' : CoreError} {left : Bus}
    (h : step s = .fault (.raised e left)) (hf : s.fault = some e') : sessionStep s = s := by
  simp only [sessionStep, h, hf, Option.isSome_some, if_true]

theorem sessionStep_of_raised {s : State} {e : CoreError} {left : Bus}
    (h : step s = .fault (.raised e left)) (hf : s.fault = none) :
    sessionStep s = s.recordError e left := by
  rw [sessionStep, h, hf]
  rfl

theorem sessionStep_keepsRecord (s : State) : s.KeepsRecord (sessionStep s) := by
  unfold sessionStep
  split
  case h_1 t h => exact (step_keeps h).keepsRecord
  case h_2 e left h =>
    split
    · exact (Keeps.refl s).keepsRecord
    · exact s.recordError_keepsRecord e left
  case h_3 => exact (Keeps.refl s).keepsRecord

theorem hostOp_defineChunks_keepsRecord (cs : List Chunk) (s : State) :
    s.KeepsRecord (hostOp (.defineChunks cs) s) := by
  cases hcs : chunksWf cs with
  | true =>
    rw [hostOp, defineChunks_of_wf hcs]
    exact ⟨rfl, id⟩
  | false =>
    rw [hostOp_defineChunks_of_not_wf hcs]
    exact ⟨rfl, id⟩

theorem hostWrite_keepsRecord (w : HostWrite) (s : State) : s.KeepsRecord (hostWrite w s) := by
  cases w <;> exact ⟨rfl, id⟩

theorem hostOp_keepsRecord {o : HostOp} (ho : o ≠ .reset) (s : State) :
    s.KeepsRecord (hostOp o s) := by
  cases o with
  | defineChunks cs => exact hostOp_defineChunks_keepsRecord cs s
  | reset => exact absurd rfl ho
  | write w => exact hostWrite_keepsRecord w s
  | interrupt k => exact (enterInterrupt_keeps k s).settle_keepsRecord
  | busRead a =>
    rw [hostOp]
    split
    case h_1 t h => exact ((memRead_keeps a s).keeps_of_ok h).keepsRecord
    case h_2 => exact ⟨rfl, id⟩
  | busWrite a v =>
    rw [hostOp]
    split
    case h_1 t h => exact (memWrite_ok_keeps h).keepsRecord
    case h_2 => exact ⟨rfl, id⟩
  | deviceEvent d n => exact ⟨rfl, id⟩
  | step => exact sessionStep_keepsRecord s

/-- Settles O8: a stuck core answers its record, and of the host operations reset alone clears it. -/
theorem coreStuckAfterError : Obligations.CoreStuckAfterError := by
  unfold Obligations.CoreStuckAfterError
  refine ⟨fun s e hr hf => ?_, fun s e left ⟨_, hf⟩ h => ?_, fun o s hf h => ?_⟩
  · have h := step_of_fault hr hf
    exact ⟨h, sessionStep_of_stuck h hf⟩
  · rw [sessionStep_of_raised h hf]
    exact ⟨rfl, rfl⟩
  · refine Classical.byContradiction fun ho => ?_
    obtain ⟨-, hkeeps⟩ := hostOp_keepsRecord ho s
    exact hkeeps hf h

/-- Settles O9: a step before any reset is refused, and reset alone sets the flag that enables it. -/
theorem noStepBeforeReset : Obligations.NoStepBeforeReset := by
  unfold Obligations.NoStepBeforeReset
  refine ⟨fun s hr => ?_, fun p => ⟨rfl, rfl, rfl⟩, fun o s hr h => ?_, fun s => ?_⟩
  · have h := step_of_not_resetMade hr
    exact ⟨h, sessionStep_of_refused h⟩
  · refine Classical.byContradiction fun ho => ?_
    obtain ⟨hkeeps, -⟩ := hostOp_keepsRecord ho s
    rw [hkeeps, hr] at h
    cases h
  · obtain ⟨hkeeps, -⟩ := (powerOnReset_keeps s).settle_keepsRecord
    exact hkeeps

/-! ## The power-on reset (R351) -/

section

variable {s t u : State} {e : CoreError}

theorem powerOnReset_of_host {pc : Word} (h : s.params.entry = .host pc) :
    powerOnReset s = .ok () { s.resetRegisters with PC := pc } := by
  simp only [powerOnReset, h, State.resetRegisters]

theorem powerOnReset_of_vector (h : s.params.entry = .vector) : powerOnReset s =
    (read16 resetVector s.resetRegisters).andThen fun pc t => .ok () { t with PC := pc } := by
  simp only [powerOnReset, h, State.resetRegisters]

theorem hostOp_reset_of_host {pc : Word} (h : s.params.entry = .host pc) :
    hostOp .reset s = { s.resetRegisters with PC := pc } := by
  rw [hostOp, powerOnReset_of_host h, Res.settle]

theorem hostOp_reset_of_read16_ok {pc : Word} (hv : s.params.entry = .vector)
    (h : read16 resetVector s.resetRegisters = .ok pc t) :
    hostOp .reset s = { t with PC := pc } := by
  rw [hostOp, powerOnReset_of_vector hv, h, Res.andThen_ok, Res.settle]

theorem hostOp_reset_of_read16_err (hv : s.params.entry = .vector)
    (h : read16 resetVector s.resetRegisters = .err e t) :
    hostOp .reset s = t.recordError e t.bus := by
  rw [hostOp, powerOnReset_of_vector hv, h, Res.andThen_err, Res.settle]

end

/-- Settles O52: the registers are set before the vector is read, and a read changes no register. -/
theorem resetProcedure : Obligations.ResetProcedure := by
  unfold Obligations.ResetProcedure
  refine fun s => ⟨fun pc h => hostOp_reset_of_host h, fun hv => ⟨fun l t h u hl hh => ?_,
    fun e t h => ?_, fun l t e u hl h => ?_⟩⟩
  · have hro := (memRead_readOnly hl).trans (memRead_readOnly hh)
    exact ⟨hostOp_reset_of_read16_ok hv (read16_at (t := s) rfl hl hh), hro.chunks, hro.mem,
      hro.byteAt⟩
  · rw [hostOp_reset_of_read16_err hv (read16_first_err_at (t := s) rfl h)]
    exact ⟨rfl, rfl⟩
  · rw [hostOp_reset_of_read16_err hv (read16_second_err_at (t := s) rfl hl h)]
    exact ⟨rfl, rfl⟩

/-! ## The interrupt entry (R330) -/

section

variable {s t : State} {ret vec : Word} {st : Byte} {e : CoreError}

theorem enterTrap_first_err (h : memWrite (stackAddress s.SP) (hi ret) s = .err e t) :
    enterTrap ret st vec s = .err e s := by
  rw [enterTrap, pushWord_high_err h, Res.andThen_err]

/-- A trap whose pushes and vector read answer. -/
theorem enterTrap_of_read16_ok {u v : State} {pc : Word} (hword : pushWord ret s = .ok () t)
    (hstatus : push st t = .ok () u)
    (h : read16 vec { u with flags := { u.flags with I := true } } = .ok pc v) :
    enterTrap ret st vec s = .ok () { v with PC := pc } := by
  rw [enterTrap, hword, Res.andThen_ok, hstatus, Res.andThen_ok, h, Res.andThen_ok]

/-- A trap whose five accesses answer. -/
theorem enterTrap_of_accesses {t1 t2 t3 t4 t5 : State} {l h : Byte}
    (hhigh : memWrite (stackAddress s.SP) (hi ret) s = .ok () t1)
    (hlow : memWrite (stackAddress (s.SP - 1)) (lo ret) t1 = .ok () t2)
    (hstatus : memWrite (stackAddress (s.SP - 2)) st t2 = .ok () t3)
    (hl : memRead vec t3 = .ok l t4) (hh : memRead (vec + 1) t4 = .ok h t5) :
    enterTrap ret st vec s =
      .ok () { s with PC := BitVec.ofNat 16 (l.toNat + 256 * h.toNat), SP := s.SP - 3,
                      flags := { s.flags with I := true }, bus := t5.bus } := by
  have hpush : push st { s with SP := s.SP - 2, bus := t2.bus } =
      .ok () { s with SP := s.SP - 3, bus := t3.bus } := by
    rw [← sub_two_sub_one]
    exact push_at (t := t2) rfl rfl hstatus
  exact enterTrap_of_read16_ok (pushWord_of_memWrites hhigh hlow) hpush
    (read16_at (t := t3) rfl hl hh)

variable {k : Interrupt}

theorem enterInterrupt_masked (h : s.flags.I = true) : enterInterrupt .irq s = .ok () s :=
  if_pos ⟨rfl, h⟩

theorem hostOp_interrupt_of_err (h : enterInterrupt k s = .err e t) :
    hostOp (.interrupt k) s = t.recordError e t.bus := by
  rw [hostOp, h, Res.settle]

variable (hk : k = .nmi ∨ s.flags.I = false)

include hk

/-- An interrupt that is not masked is a trap entry and 7 cycles. -/
theorem enterInterrupt_unmasked : enterInterrupt k s =
    (enterTrap s.PC s.flags.pushedByInterrupt (if k = .nmi then nmiVector else irqVector) s).andThen
      fun _ t => .ok () (t.account 7) := by
  refine if_neg fun ⟨hirq, hI⟩ => ?_
  rcases hk with hk | hk
  · rw [hk] at hirq
    cases hirq
  · rw [hk] at hI
    cases hI

theorem enterInterrupt_of_enterTrap_ok (h : enterTrap s.PC s.flags.pushedByInterrupt
    (if k = .nmi then nmiVector else irqVector) s = .ok () t) :
    enterInterrupt k s = .ok () (t.account 7) := by
  rw [enterInterrupt_unmasked hk, h, Res.andThen_ok]

theorem enterInterrupt_of_enterTrap_err (h : enterTrap s.PC s.flags.pushedByInterrupt
    (if k = .nmi then nmiVector else irqVector) s = .err e t) : enterInterrupt k s = .err e t := by
  rw [enterInterrupt_unmasked hk, h, Res.andThen_err]

end

/-- Settles O53: an entry that is not masked is the trap entry, with the status byte of R330. -/
theorem interruptEntry : Obligations.InterruptEntry := by
  unfold Obligations.InterruptEntry
  refine fun k s hwf => ⟨enterInterrupt_masked,
    fun hk t1 t2 t3 l t4 h t5 hhigh hlow hstatus hl hh => ?_, fun hk e t h => ?_, fun e t h => ?_,
    fun n q => ⟨rfl, rfl, rfl, rfl⟩⟩
  · have htrap := enterTrap_of_accesses hhigh hlow hstatus hl hh
    exact ⟨(enterInterrupt_of_enterTrap_ok hk htrap :),
      fun a h1 h2 h3 => (enterTrap_unreached hwf htrap h1 h2 h3 :)⟩
  · exact enterInterrupt_of_enterTrap_err hk (enterTrap_first_err h)
  · rw [hostOp_interrupt_of_err h]
    exact ⟨rfl, rfl⟩

end Sys2Proof.Machine
end
